-- ==== Sys2Proof/Word.lean ====
section
/-! DEFINITION. The word types of the HUFF core's ports and the constants that 00_scope.md fixes. -/

namespace Sys2Proof

/-- A register's 32 bits (R22, R27 to R51). -/
abbrev Word := BitVec 32

/-- A byte of the codebook buffer (R53). -/
abbrev Byte := BitVec 8

/-- A byte offset on the host register port (R22). -/
abbrev Offset := BitVec 8

/-- A host transaction written as one word: DIR [40], ADDR [39:32], DATA [31:0] (R90). -/
abbrev TransactionWord := BitVec 41

/-- EOF_SENTINEL, the host's name for the EOF symbol (R12). -/
def eofSentinel : Word := 0xFFFFFFFF

/-- MAX_LEN, the largest code length the core represents (R9). -/
def maxCodeLength : Nat := 32

/-- The identification word "HUFF" (R3, R30). -/
def idWord : Word := 0x48554646

end Sys2Proof
end

