-- ==== Sys2Proof/Config.lean ====
section
/-! DEFINITION. What an implementation of the core fixes (its two parameters) and the free values: every value the
spec leaves open, as a constant without a body, so that no proof can see which value it is. -/

namespace Sys2Proof

/-- The implementation parameters N_MAX (R8) and CB_BYTES (R11). A machine carries its own in `State.params`, so a
claim about every state is a claim about every choice of them. Which choices the spec allows is `Params.Legal`. -/
structure Params where
  nMax : Nat
  cbBytes : Nat
  deriving DecidableEq, Repr

/-- DESIGN CHOICE (unsafe for claims about `State.reset` alone, A6). The parameters of 95_test_vectors.md:
N_MAX = 256 and the default CB_BYTES = N_MAX + 11 of R11. -/
def Params.ofVectors : Params := ⟨256, 267⟩

/-- U4, U6 (safe, A2): how many host transactions find the BUSY window of a command open. Applied to the draw counter. -/
opaque Config.windowLength : Nat → Nat

/-- U2, U3 (safe, A3): what a host read returns in the BUSY window. Applied to the draw counter. -/
opaque Config.busyRead : Nat → Word

/-- U1 (safe, A5): what a never-written W entry holds. Applied to the reset epoch and the index. -/
opaque Config.ramWeight : Nat → Nat → Word

/-- U1 (safe, A5): what a never-written CB entry holds. Applied to the reset epoch and the index. -/
opaque Config.ramByte : Nat → Nat → Byte

/-- U8 (safe, A10): whether a reset in ENCODE's window comes after the writer took the transfer. -/
opaque Config.transferTaken : Nat → Bool

/-- U8 (safe, A10): how many answers a DECODE has taken when a reset comes in its window. -/
opaque Config.bitsTaken : Nat → Nat

/-- U7 (safe, A11): what an unspecified LEN entry holds. -/
opaque Config.staleLen : Nat → BitVec 6

/-- U7, U18 (safe, A11): what an unspecified CODE entry holds. -/
opaque Config.staleCode : Nat → Word

/-- U7, U19 (safe, A11): what an unspecified SORTED entry holds. -/
opaque Config.staleSorted : Nat → Word

/-- U7 (safe, A11): what an unspecified NUML entry holds. -/
opaque Config.staleNuml : Nat → Word

end Sys2Proof
end

