-- ==== Sys2Proof/Syntax.lean ====
section
/-! DEFINITION. The instructions of the core: one constructor per row of opcode_table.json. -/

namespace Sys2Proof

/-- The operations a command word names (R86). -/
inductive Op where
  | nop | build | serialize | deserialize | symlen | encode | decode | clear
  deriving DecidableEq, Repr

/-- The instructions: eight command words (R86) and the two host transactions (R90). A command instruction stands for
the host write of its word to CMD (R85, R87). -/
inductive Instr where
  /-- R156 -/
  | nop
  /-- R101 -/
  | build
  /-- R123 -/
  | serialize
  /-- R125 -/
  | deserialize
  /-- R136 -/
  | symlen
  /-- R138 -/
  | encode
  /-- R144 -/
  | decode
  /-- R157 -/
  | clear
  /-- R159: host write of `data` at byte offset `addr`. -/
  | hwr (addr : Offset) (data : Word)
  /-- R160: host read at byte offset `addr`. -/
  | hrd (addr : Offset)
  deriving DecidableEq, Repr

/-- The instruction of an operation. -/
def Op.instr : Op → Instr
  | .nop => .nop
  | .build => .build
  | .serialize => .serialize
  | .deserialize => .deserialize
  | .symlen => .symlen
  | .encode => .encode
  | .decode => .decode
  | .clear => .clear

end Sys2Proof
end

