-- ==== Sys2Proof/Machine/State.lean ====
section
/-! DEFINITION. The state of one HUFF core and its two stream ports, as plain data, and the state after reset. -/

namespace Sys2Proof.Machine

/-- A RAM: (index, entry) pairs with rising indices. An index that is not listed was never written since reset and
has no value (R52, R53). -/
abbrev Memory (w : Nat) := List (Nat × BitVec w)

/-- The values STATUS.ERR takes (R165). -/
inductive ErrCode where
  | ok | invalidCodebook | unknownSymbol | endOfStream | noCodebook | lengthOverflow | range | illegalCommand
  deriving DecidableEq, Repr

/-- The bit reader's answer to one request (R24). -/
inductive Answer where
  | bit (b : Bool)
  | eos
  deriving DecidableEq, Repr

/-- One bit-writer transfer `BitWrite(value, nbits)` (R23). -/
structure Transfer where
  value : Word
  nbits : Nat
  deriving DecidableEq, Repr

/-- What the command in the BUSY window has done at a stream port, which a reset may cut short (R181). -/
inductive PortUse where
  | none
  /-- ENCODE: its one transfer is the last of the writer's record. -/
  | wrote
  /-- DECODE: the answers it has taken, in order. -/
  | read (taken : List Answer)
  deriving DecidableEq, Repr

/-- The sequencer phase (R28). `busy op left port` is BUSY(op): the next host transaction finds the window open, and
so do `left` more after it (R185, U4). -/
inductive Phase where
  | idle
  | busy (op : Op) (left : Nat) (port : PortUse)
  deriving DecidableEq, Repr

/-- The fields of STATUS that are stored on their own (R32). BUSY is the phase and VALID the context's. -/
structure Flags where
  done : Bool
  ovr : Bool
  err : ErrCode
  lastop : BitVec 8
  deriving DecidableEq, Repr

/-- The stored registers of the map of 10_state.md section 4 that are not STATUS or the context's (R33 to R45). -/
structure Csrs where
  alpha : Word
  widx : Word
  sym : Word
  result : Word
  cbidx : Word
  cblen : Word
  dlim : Word
  tidx : Word
  deriving DecidableEq, Repr

/-- The codebook context: VALID, NSYM, MAXLEN, NCODED and the tables LEN, CODE, SORTED, NUML (R38 to R40, R54 to R58).
A table holds the entries that are specified, and nothing for the others (R54, R56, R57, A11). -/
structure Context where
  valid : Bool
  nsym : Word
  maxlen : BitVec 6
  ncoded : Word
  len : List (BitVec 6)
  code : Memory 32
  sorted : List Word
  numl : List Word
  deriving DecidableEq, Repr

/-- No codebook: VALID, NSYM, MAXLEN and NCODED are 0 and the tables unspecified (R54). -/
def Context.invalid : Context := ⟨false, 0, 0, 0, [], [], [], []⟩

/-- What the outside does to the core, one event a step. -/
inductive HostEvent where
  /-- A register-port transaction with its four byte enables (R22, R73, R90). -/
  | transaction (enables : BitVec 4) (word : TransactionWord)
  /-- The reset input. A transaction issued at the same time is lost (R25, R180). -/
  | reset (lost : Option TransactionWord)
  deriving DecidableEq, Repr

/-- One HUFF core with its stream ports (INVENTORY.md, State). -/
structure State where
  /-- N_MAX and CB_BYTES, which P_NMAX and P_CBBYTES read (R8, R11, R50) -/
  params : Params
  /-- the host's events still to come, the next one first -/
  pending : List HostEvent
  /-- R28 -/
  phase : Phase
  /-- R32 -/
  flags : Flags
  /-- R33 to R45 -/
  csr : Csrs
  /-- R54 to R58 -/
  ctx : Context
  /-- weight RAM W (R52) -/
  weights : Memory 32
  /-- codebook buffer CB (R53) -/
  cb : Memory 8
  /-- the transfers the bit writer has taken, oldest first (R23) -/
  writer : List Transfer
  /-- the bit reader's answers to the coming requests; after them it has no more bits (R24, A8) -/
  reader : List Answer
  /-- the data the host's reads have returned, oldest first (A12) -/
  answers : List Word
  /-- the BUSY window lengths of the coming commands, as far as the run fixes them; after them they are free (A2) -/
  windows : List Nat
  /-- the counter that free values are drawn with (A16) -/
  free : Nat
  /-- the number of reset events so far (A16) -/
  epoch : Nat
  deriving DecidableEq, Repr

/-- Why the machine stops. -/
inductive Fault where
  /-- BUILD over a W entry never written since reset (R101, U1). Raised by BUILD; safe. -/
  | neverWrittenWeight (index : Nat)
  /-- The parse of DESERIALIZE reaches a CB entry never written since reset (R125, U1). Raised by DESERIALIZE; safe. -/
  | neverWrittenByte (index : Nat)
  /-- A transaction at an offset with ADDR[1:0] != 0, which does not exist on the port (R22, R64). Raised by HWR and
  HRD, and by a step that finds such a word; safe. -/
  | noSuchOffset (addr : Offset)
  deriving DecidableEq, Repr

/-- Why the machine gives no meaning. -/
inductive Refusal where
  /-- An instruction of the table without a meaning. Raised by exec's refused arms, of which there are none; safe. -/
  | notModelled (mnemonic : String)
  /-- A word with DIR = 0 and DATA != 0, which R90 does not define. Raised by a step that finds it; safe. -/
  | readCarriesData (data : Word)
  deriving DecidableEq, Repr

/-- The register values after reset (R63). -/
def Csrs.reset (p : Params) : Csrs := ⟨0, 0, 0, 0, 0, 0, BitVec.ofNat 32 (p.nMax + 1), 0⟩

/-- STATUS = 0 after reset (R32, R63). -/
def Flags.reset : Flags := ⟨false, false, .ok, 0⟩

/-- The core with given parameters after its first reset (R63, R180). The streams are no part of the core: that the writer
has taken nothing yet and that no reader answer is given, so that each request is answered EOS, is the model's choice (DESIGN
CHOICE, A25), as are the other fields of the model's own (A2, A12, A15, A16). -/
def State.resetOf (p : Params) : State where
  params := p
  pending := []
  phase := .idle
  flags := Flags.reset
  csr := Csrs.reset p
  ctx := Context.invalid
  weights := []
  cb := []
  writer := []
  reader := []
  answers := []
  windows := []
  free := 0
  epoch := 0

/-- The machine right after reset, with the parameters of 95_test_vectors.md (A6). -/
def State.reset : State := State.resetOf Params.ofVectors

end Sys2Proof.Machine
end

