-- ==== Sys2Proof/Machine/Canon.lean ====
section
/-! DEFINITION. CANON, the canonical code assigner by radix count and rank (R113, R117). -/

namespace Sys2Proof.Machine

/-- `cnt[L]` for L >= 1: how many symbols have length L (R113). -/
def lengthCount (lt : List Nat) (l : Nat) : Nat := lt.count l

/-- `first[L]`: the first code of length L (R113). first[1] = 0. -/
def firstCode (lt : List Nat) : Nat → Nat
  | 0 => 0
  | 1 => 0
  | l + 2 => (firstCode lt (l + 1) + lengthCount lt (l + 1)) <<< 1

/-- `base[L]`: how many coded symbols are shorter than L (R113). base[1] = 0. -/
def rankBase (lt : List Nat) : Nat → Nat
  | 0 => 0
  | 1 => 0
  | l + 2 => rankBase lt (l + 1) + lengthCount lt (l + 1)

/-- The code lengths 1..32 (R9, R113). -/
def allLengths : List Nat := List.range' 1 maxCodeLength

/-- The oversubscription check over every L in 1..32 (R113, R119). -/
def oversubscribed (lt : List Nat) : Bool :=
  allLengths.any fun l => decide (2 ^ l < firstCode lt l + lengthCount lt l)

/-- `fill[Lt[s]]` when the ranking loop reaches symbol s: how many symbols below s have its length (R113). -/
def rankOf (lt : List Nat) (s : Nat) : Nat := (lt.take s).count (lt.getD s 0)

/-- `CODE[s] = first[L] + r` (R113). -/
def canonCode (lt : List Nat) (s : Nat) : Nat := firstCode lt (lt.getD s 0) + rankOf lt s

/-- CODE: one entry for each coded symbol (R113, R56). -/
def codeTable (lt : List Nat) : Memory 32 :=
  (List.range lt.length).filterMap fun s =>
    if 1 ≤ lt.getD s 0 then some (s, BitVec.ofNat 32 (canonCode lt s)) else none

/-- The symbols of length L in ascending id: `SORTED[base[L]], SORTED[base[L] + 1], ...` (R113). -/
def symbolsOfLength (lt : List Nat) (l : Nat) : List Nat :=
  (List.range lt.length).filter fun s => decide (lt.getD s 0 = l)

/-- SORTED[0..NCODED-1] as symbol ids: the runs of `symbolsOfLength`, each at its `base` (R113, R115). -/
def sortedSymbols (lt : List Nat) : List Nat := allLengths.flatMap (symbolsOfLength lt)

/-- NUML[0..32] (R113): 0, then cnt[1..32]. -/
def numlTable (lt : List Nat) : List Nat := 0 :: allLengths.map (lengthCount lt)

/-- The commit of a length array (R110, R133) with what CANON computes from it (R113): LEN, CODE, SORTED, NUML, then NSYM,
MAXLEN, NCODED and VALID. Each value is held in its register's width (R16, R122). -/
def canonContext (lt : List Nat) : Context where
  valid := true
  nsym := BitVec.ofNat 32 lt.length
  maxlen := BitVec.ofNat 6 (lt.foldl max 0)
  ncoded := BitVec.ofNat 32 (rankBase lt (maxCodeLength + 1))
  len := lt.map (BitVec.ofNat 6)
  code := codeTable lt
  sorted := (sortedSymbols lt).map (BitVec.ofNat 32)
  numl := (numlTable lt).map (BitVec.ofNat 32)

end Sys2Proof.Machine
end

