-- ==== Sys2Proof/WellFormed.lean ====
section
/-! DEFINITION. Which instructions the port can express: an offset is 4-byte aligned (R22, R64). -/

namespace Sys2Proof

/-- ADDR[1:0] = 0 (R22, R64, R90). -/
def Offset.aligned (a : Offset) : Bool := a.extractLsb' 0 2 == 0

/-- A command has no operands, so it is always well formed (R85). A transaction names an aligned offset (R90). -/
def Instr.wellFormed : Instr → Bool
  | .nop => true
  | .build => true
  | .serialize => true
  | .deserialize => true
  | .symlen => true
  | .encode => true
  | .decode => true
  | .clear => true
  | .hwr addr _ => Offset.aligned addr
  | .hrd addr => Offset.aligned addr

abbrev Instr.WellFormed (i : Instr) : Prop := i.wellFormed = true

end Sys2Proof
end

