-- ==== Sys2Proof/Decode.lean ====
section
/-! DEFINITION. The decoder of command words (R85 to R88) and of transaction words (R90), and the encoder after it. -/

namespace Sys2Proof

/-- A word that the decoder reads. The two formats of opcode_table.json have different lengths, 32 and 41 bits. -/
inductive PortWord where
  /-- The data of a host write to CMD (R85). -/
  | command (w : Word)
  /-- A host transaction (R90). -/
  | transaction (w : TransactionWord)
  deriving DecidableEq, Repr

/-- Why a word is no instruction. -/
inductive Reject where
  /-- RSVD != 0 or OP >= 0x08 (R88). -/
  | illegalCommand (w : Word)
  /-- ADDR[1:0] != 0, an offset that does not exist on the port (R22, R64). -/
  | misalignedOffset (addr : Offset)
  /-- A read whose DATA field is not 0 (R90). -/
  | readCarriesData (data : Word)
  deriving DecidableEq, Repr

/-- OP of each command word (R86). -/
def Op.code : Op → BitVec 8
  | .nop => 0x00
  | .build => 0x01
  | .serialize => 0x02
  | .deserialize => 0x03
  | .symlen => 0x04
  | .encode => 0x05
  | .decode => 0x06
  | .clear => 0x07

/-- The operation an OP field names, if any (R86, R88). -/
def opOfCode (c : BitVec 8) : Option Op :=
  if c = 0x00 then some .nop
  else if c = 0x01 then some .build
  else if c = 0x02 then some .serialize
  else if c = 0x03 then some .deserialize
  else if c = 0x04 then some .symlen
  else if c = 0x05 then some .encode
  else if c = 0x06 then some .decode
  else if c = 0x07 then some .clear
  else none

/-- OP, bits [7:0] of a command word (R85). -/
def opField (d : Word) : BitVec 8 := d.extractLsb' 0 8

/-- RSVD, bits [31:8] of a command word (R85). -/
def rsvdField (d : Word) : BitVec 24 := d.extractLsb' 8 24

/-- The command decoder (R87, R88): RSVD must be zero and OP below 0x08. -/
def decodeOp (d : Word) : Option Op :=
  if rsvdField d = 0 then opOfCode (opField d) else none

/-- DIR, bit [40] of a transaction word (R90): 1 is a write. -/
def dirField (w : TransactionWord) : BitVec 1 := w.extractLsb' 40 1

/-- ADDR, bits [39:32] of a transaction word (R90). -/
def addrField (w : TransactionWord) : Offset := w.extractLsb' 32 8

/-- DATA, bits [31:0] of a transaction word (R90). -/
def dataField (w : TransactionWord) : Word := w.extractLsb' 0 32

/-- A transaction word from its fields (R90). -/
def transactionWord (dir : BitVec 1) (addr : Offset) (data : Word) : TransactionWord :=
  (dir ++ addr ++ data : BitVec (1 + 8 + 32))

/-- The decoder of both formats, total on every word. -/
def decode : PortWord → Except Reject Instr
  | .command d =>
    match decodeOp d with
    | some op => .ok op.instr
    | none => .error (.illegalCommand d)
  | .transaction w =>
    if Offset.aligned (addrField w) then
      if dirField w = 1 then .ok (.hwr (addrField w) (dataField w))
      else if dataField w = 0 then .ok (.hrd (addrField w))
      else .error (.readCarriesData (dataField w))
    else .error (.misalignedOffset (addrField w))

/-- The command word of an operation (R85, R86): RSVD zero, OP its code. -/
def Op.word (op : Op) : Word := (0#24 ++ op.code : BitVec (24 + 8))

/-- The encoder of both formats (R86, R90). -/
def encode : Instr → PortWord
  | .nop => .command (Op.word .nop)
  | .build => .command (Op.word .build)
  | .serialize => .command (Op.word .serialize)
  | .deserialize => .command (Op.word .deserialize)
  | .symlen => .command (Op.word .symlen)
  | .encode => .command (Op.word .encode)
  | .decode => .command (Op.word .decode)
  | .clear => .command (Op.word .clear)
  | .hwr addr data => .transaction (transactionWord 1 addr data)
  | .hrd addr => .transaction (transactionWord 0 addr 0)

/-- The offset of CMD (R31). -/
def cmdOffset : Offset := 0x04

/-- The host transaction that carries a word to the core: a command word is the data of a write to CMD (R85). -/
def PortWord.carrier : PortWord → TransactionWord
  | .command d => transactionWord 1 cmdOffset d
  | .transaction w => w

/-- The word that opcode_table.json numbers `w`, in a row of `nbits` bits: its command rows have 32 bits and its
transaction rows 41, which is 48 in whole bytes. -/
def portWordOf (nbits w : Nat) : Option PortWord :=
  if nbits ≤ 32 then
    if w < 2 ^ 32 then some (.command (BitVec.ofNat 32 w)) else none
  else if w < 2 ^ 41 then some (.transaction (BitVec.ofNat 41 w)) else none

/-- The instruction the decoder reads from a word numbered as opcode_table.json numbers it. -/
def decodeTableWord (nbits w : Nat) : Option Instr :=
  match portWordOf nbits w with
  | some p => (decode p).toOption
  | none => none

end Sys2Proof
end

