-- ==== Sys2Proof/Machine/Flags.lean ====
section
/-! DEFINITION. STATUS: its word and every change of its fields (R32, R87, R158). -/

namespace Sys2Proof.Machine

/-- The code of an error in STATUS.ERR (R165). -/
def ErrCode.code : ErrCode → BitVec 4
  | .ok => 0
  | .invalidCodebook => 1
  | .unknownSymbol => 2
  | .endOfStream => 3
  | .noCodebook => 4
  | .lengthOverflow => 5
  | .range => 6
  | .illegalCommand => 7

/-- STATUS.BUSY (R28, R32). -/
def Phase.isBusy : Phase → Bool
  | .idle => false
  | .busy _ _ _ => true

/-- A flag as one bit. -/
def bit (b : Bool) : BitVec 1 := if b then 1 else 0

/-- STATUS as a host reads it while BUSY = 0 (R32):
[31:24] 0, LASTOP, [15:12] 0, ERR, [7:4] 0, OVR, VALID, DONE, BUSY. -/
def statusWord (s : State) : Word :=
  (0#8 ++ s.flags.lastop ++ 0#4 ++ s.flags.err.code ++ 0#4 ++ bit s.flags.ovr ++ bit s.ctx.valid
    ++ bit s.flags.done ++ bit s.phase.isBusy : BitVec (8 + 8 + 4 + 4 + 4 + 1 + 1 + 1 + 1))

/-- STATUS as a host reads it while BUSY = 1: bits [1:0] are 0b01 and the others open (R185 (3), U3). -/
def busyStatusWord (v : Word) : Word := (v &&& ~~~3#32) ||| 1#32

/-- Acceptance of a command word: DONE <- 0 and LASTOP <- d[7:0] (R87). -/
def Flags.accept (f : Flags) (code : BitVec 8) : Flags := { f with done := false, lastop := code }

/-- The end of a command: ERR <- code (R87). DONE becomes 1 when the window closes. -/
def Flags.ended (f : Flags) (e : ErrCode) (done : Bool) : Flags := { f with err := e, done := done }

/-- A dropped host write: OVR <- 1 (R32, R35, R42, R185). -/
def Flags.overrun (f : Flags) : Flags := { f with ovr := true }

/-- CLEAR: OVR <- 0 (R157). -/
def Flags.clearOverrun (f : Flags) : Flags := { f with ovr := false }

end Sys2Proof.Machine
end

