-- ==== Sys2Proof/Machine/Ops.lean ====
section
/-! DEFINITION. The operations that the instructions share: memory, the acceptance and the end of a command (which is
how this core takes an error, R165, R167, R170), the BUSY window, the stream ports and the reset event. -/

namespace Sys2Proof.Machine

/-! ## Memory (R52, R53, R74) -/

/-- The entry at an index, if it was written since reset. -/
def Memory.read? {w : Nat} : Memory w → Nat → Option (BitVec w)
  | [], _ => none
  | (k, v) :: m, a => if k = a then some v else Memory.read? m a

/-- Write one entry. The indices stay rising. -/
def Memory.write {w : Nat} : Memory w → Nat → BitVec w → Memory w
  | [], a, v => [(a, v)]
  | (k, x) :: m, a, v =>
    if a < k then (a, v) :: (k, x) :: m
    else if a = k then (a, v) :: m
    else (k, x) :: Memory.write m a v

/-- Write consecutive entries from an index upward. -/
def Memory.writeAll {w : Nat} (m : Memory w) (a : Nat) : List (BitVec w) → Memory w
  | [] => m
  | v :: vs => Memory.writeAll (Memory.write m a v) (a + 1) vs

/-- The canonical form: the indices rise strictly. -/
def Memory.wf {w : Nat} : Memory w → Bool
  | [] => true
  | (k, _) :: m => m.all (fun e => decide (k < e.1)) && Memory.wf m

/-! ## The BUSY window (R87, R185, U4) -/

/-- The phase that `left` more transactions of the window leave: closed at 0. -/
def Phase.ofWindow (op : Op) (left : Nat) (port : PortUse) : Phase :=
  match left with
  | 0 => .idle
  | n + 1 => .busy op n port

/-- One host transaction of the window has passed. At the last one the command ends: BUSY <- 0 and DONE <- 1. -/
def State.tick (s : State) : State :=
  match s.phase with
  | .idle => s
  | .busy _ 0 _ => { s with phase := .idle, flags := { s.flags with done := true } }
  | .busy op (n + 1) port => { s with phase := .busy op n port }

/-- A host write in the window: dropped, OVR <- 1, no other effect (R185 (1)). -/
def State.dropWrite (s : State) : State := State.tick { s with flags := s.flags.overrun }

/-- The window length of the command that ends now (U4, A2): what the run fixes, else a free value. -/
def State.nextWindow (s : State) : Nat :=
  match s.windows with
  | [] => Config.windowLength s.free
  | k :: _ => k

/-! ## The end of a command (R87, R167, R170) -/

/-- How the rule of a command ends. -/
inductive Ending where
  /-- `finish(...)` or `raise E(...)`: the error code, the value of RESULT, what the command did at a port, and the
  state with the command's own effects. -/
  | ended (err : ErrCode) (result : Nat) (port : PortUse) (s : State)
  /-- The command reads an entry that was never written (U1). -/
  | stopped (f : Fault)
  deriving DecidableEq, Repr

/-- `finish(result)`: error code OK (R17). -/
def finish (result : Nat) (port : PortUse) (s : State) : Ending := .ended .ok result port s

/-- Taking an error, `raise E(info)`: the command ends at once with error E (R17, R165, R167). There is no trap and no
return: after the end the core takes the next command (R170, R171). `progress` is RESULT, and `port` what a DECODE has
already taken from the reader, which no error gives back (R151). -/
def raise (e : ErrCode) (progress : Nat) (port : PortUse) (s : State) : Ending := .ended e progress port s

/-- A failing BUILD or DESERIALIZE: the context is invalidated and RESULT is 0 (R167). -/
def raiseInvalidating (e : ErrCode) (s : State) : Ending :=
  raise e 0 .none { s with ctx := Context.invalid }

/-- The end of a command (R87): ERR <- code and RESULT <- result (R37, R168). The window stays open for the next
`nextWindow` transactions. -/
def State.endCommand (s : State) (op : Op) (e : ErrCode) (result : Nat) (port : PortUse) : State :=
  { s with
    phase := Phase.ofWindow op s.nextWindow port
    flags := s.flags.ended e (decide (s.nextWindow = 0))
    csr := { s.csr with result := BitVec.ofNat 32 result }
    windows := s.windows.tail
    free := s.free + 1 }

/-- Command acceptance for a legal command word (R87). While BUSY = 1 the word is dropped like any write. Else DONE <- 0,
LASTOP <- OP, the rule of the command runs to its end in this one step (R79, R185), and the command ends. -/
def acceptCommand (op : Op) (rule : State → Ending) (s : State) : Host.Outcome State Fault Refusal :=
  match s.phase with
  | .busy _ _ _ => .next s.dropWrite
  | .idle =>
    match rule { s with flags := s.flags.accept op.code } with
    | .ended e result port t => .next (t.endCommand op e result port)
    | .stopped f => .fault f

/-! ## The stream ports and the host's reads -/

/-- `BitWrite(value, nbits)`: the writer takes one whole transfer (R17, R23). -/
def State.bitWrite (s : State) (value : Word) (nbits : Nat) : State :=
  { s with writer := s.writer ++ [⟨value, nbits⟩] }

/-- A host read returns `v` (R22). -/
def State.answerHost (s : State) (v : Word) : State := { s with answers := s.answers ++ [v] }

/-! ## The reset event (R180, R181) -/

/-- The writer's record after a reset. The transfer of an ENCODE still in its window was taken whole or not at all, a
free choice (R181, U8). -/
def State.writerAfterReset (s : State) : List Transfer :=
  match s.phase with
  | .busy _ _ .wrote => if Config.transferTaken s.free then s.writer else s.writer.dropLast
  | _ => s.writer

/-- The reader's answers after a reset. Of the answers that a DECODE still in its window takes, a free number was taken
before the reset (R181, U8). -/
def State.readerAfterReset (s : State) : List Answer :=
  match s.phase with
  | .busy _ _ (.read taken) => taken.drop (Config.bitsTaken s.free % (taken.length + 1)) ++ s.reader
  | _ => s.reader

/-- The reset event, whatever phase the core is in (R180). The streams, the host's queue and what the host has read are
outside the core (R63, R181). -/
def State.resetEvent (s : State) : State :=
  { State.resetOf s.params with
    pending := s.pending
    writer := s.writerAfterReset
    reader := s.readerAfterReset
    answers := s.answers
    windows := s.windows
    free := s.free + 1
    epoch := s.epoch + 1 }

end Sys2Proof.Machine
end

