-- ==== Sys2Proof/Machine/Operands.lean ====
section
/-! DEFINITION. Operands: the register map of 10_state.md section 4, the RAM ports, the readback registers, the context
tables and the symbol translation. -/

namespace Sys2Proof.Machine

/-- The registers of the map (10_state.md section 4). -/
inductive Reg where
  | id | cmd | status | alpha | widx | wdata | sym | result | nsym | maxlen | ncoded | cbidx | cbdata | cblen | dlim
  | tidx | tlen | tcode | tsort | tnuml | pNmax | pCbbytes | pMaxlen
  /-- 0x5C to 0xFC (R51) -/
  | reserved
  deriving DecidableEq, Repr

/-- The map's offsets (10_state.md section 4). -/
def registerMap : List (Offset × Reg) :=
  [(0x00, .id), (0x04, .cmd), (0x08, .status), (0x0C, .alpha), (0x10, .widx), (0x14, .wdata), (0x18, .sym),
   (0x1C, .result), (0x20, .nsym), (0x24, .maxlen), (0x28, .ncoded), (0x2C, .cbidx), (0x30, .cbdata), (0x34, .cblen),
   (0x38, .dlim), (0x3C, .tidx), (0x40, .tlen), (0x44, .tcode), (0x48, .tsort), (0x4C, .tnuml), (0x50, .pNmax),
   (0x54, .pCbbytes), (0x58, .pMaxlen)]

/-- The register at an offset. -/
def regAt (a : Offset) : Reg := (registerMap.lookup a).getD .reserved

/-! ## The context tables. An unspecified entry reads as a free value (U7, U18, U19); no command reads one while the
context is as R59 says. -/

/-- LEN[s] (R55). -/
def Context.lenAt (c : Context) (s : Nat) : BitVec 6 := (c.len[s]?).getD (Config.staleLen s)

/-- CODE[s] (R56). -/
def Context.codeAt (c : Context) (s : Nat) : Word := (Memory.read? c.code s).getD (Config.staleCode s)

/-- SORTED[k] (R57). -/
def Context.sortedAt (c : Context) (k : Nat) : Word := (c.sorted[k]?).getD (Config.staleSorted k)

/-- NUML[L] (R58). -/
def Context.numlAt (c : Context) (l : Nat) : Word := (c.numl[l]?).getD (Config.staleNuml l)

/-! ## The RAM ports (R35, R42) -/

/-- A host read of WDATA. A never-written entry holds an unspecified value, the same until it is written (R75, U1). -/
def readWdata (s : State) : Word :=
  let i := s.csr.widx.toNat
  if i < s.params.nMax then (Memory.read? s.weights i).getD (Config.ramWeight s.epoch i) else 0

/-- A host read of CBDATA, zero-extended (R42, R161). -/
def readCbdata (s : State) : Word :=
  let i := s.csr.cbidx.toNat
  if i < s.params.cbBytes then ((Memory.read? s.cb i).getD (Config.ramByte s.epoch i)).zeroExtend 32 else 0

/-- A host write of WDATA (R35): store or drop, and WIDX + 1 modulo 2^32 either way (R34). -/
def writeWdata (d : Word) (s : State) : State :=
  let i := s.csr.widx.toNat
  let s' :=
    if i < s.params.nMax then { s with weights := Memory.write s.weights i d }
    else { s with flags := s.flags.overrun }
  { s' with csr := { s'.csr with widx := s'.csr.widx + 1 } }

/-- A host write of CBDATA (R42): store d[7:0] or drop, and CBIDX + 1 modulo 2^32 either way (R41). -/
def writeCbdata (d : Word) (s : State) : State :=
  let i := s.csr.cbidx.toNat
  let s' :=
    if i < s.params.cbBytes then { s with cb := Memory.write s.cb i (d.extractLsb' 0 8) }
    else { s with flags := s.flags.overrun }
  { s' with csr := { s'.csr with cbidx := s'.csr.cbidx + 1 } }

/-! ## The readback registers (R45 to R49) -/

/-- TLEN (R46). -/
def readTlen (s : State) : Word :=
  if s.ctx.valid ∧ s.csr.tidx.toNat < s.ctx.nsym.toNat then (s.ctx.lenAt s.csr.tidx.toNat).zeroExtend 32 else 0

/-- TCODE (R47). -/
def readTcode (s : State) : Word :=
  if s.ctx.valid ∧ s.csr.tidx.toNat < s.ctx.nsym.toNat ∧ 1 ≤ (s.ctx.lenAt s.csr.tidx.toNat).toNat then
    s.ctx.codeAt s.csr.tidx.toNat
  else 0

/-- TSORT (R48). -/
def readTsort (s : State) : Word :=
  if s.ctx.valid ∧ s.csr.tidx.toNat < s.ctx.ncoded.toNat then s.ctx.sortedAt s.csr.tidx.toNat else 0xFFFFFFFF

/-- TNUML (R49). -/
def readTnuml (s : State) : Word :=
  if s.ctx.valid ∧ s.csr.tidx.toNat ≤ 32 then s.ctx.numlAt s.csr.tidx.toNat else 0

/-! ## Reading and writing a register -/

/-- What a host read returns while BUSY = 0 (R30 to R51, R160). A parameter wider than the register is truncated to the
register's width (R16, A7). -/
def readReg (s : State) : Reg → Word
  | .id => idWord
  | .cmd => 0
  | .status => statusWord s
  | .alpha => s.csr.alpha
  | .widx => s.csr.widx
  | .wdata => readWdata s
  | .sym => s.csr.sym
  | .result => s.csr.result
  | .nsym => s.ctx.nsym
  | .maxlen => s.ctx.maxlen.zeroExtend 32
  | .ncoded => s.ctx.ncoded
  | .cbidx => s.csr.cbidx
  | .cbdata => readCbdata s
  | .cblen => s.csr.cblen
  | .dlim => s.csr.dlim
  | .tidx => s.csr.tidx
  | .tlen => readTlen s
  | .tcode => readTcode s
  | .tsort => readTsort s
  | .tnuml => readTnuml s
  | .pNmax => BitVec.ofNat 32 s.params.nMax
  | .pCbbytes => BitVec.ofNat 32 s.params.cbBytes
  | .pMaxlen => BitVec.ofNat 32 maxCodeLength
  | .reserved => 0

/-- What a host read returns while BUSY = 1 (R160, R185 (2) to (4)): the constants, STATUS with BUSY 1 and DONE 0, and a
free value elsewhere (U2, U3). -/
def readRegBusy (s : State) : Reg → Word
  | .id => readReg s .id
  | .pNmax => readReg s .pNmax
  | .pCbbytes => readReg s .pCbbytes
  | .pMaxlen => readReg s .pMaxlen
  | .status => busyStatusWord (Config.busyRead s.free)
  | _ => Config.busyRead s.free

/-- A host write to a register other than CMD while BUSY = 0 (R159): the RW registers are replaced whole, the data ports
store and increment, and the RO registers and reserved offsets ignore it (R51). CMD is command acceptance, which is not
done here. -/
def writeReg (d : Word) (s : State) : Reg → State
  | .alpha => { s with csr := { s.csr with alpha := d } }
  | .widx => { s with csr := { s.csr with widx := d } }
  | .wdata => writeWdata d s
  | .sym => { s with csr := { s.csr with sym := d } }
  | .cbidx => { s with csr := { s.csr with cbidx := d } }
  | .cbdata => writeCbdata d s
  | .cblen => { s with csr := { s.csr with cblen := d } }
  | .dlim => { s with csr := { s.csr with dlim := d } }
  | .tidx => { s with csr := { s.csr with tidx := d } }
  | .id => s
  | .cmd => s
  | .status => s
  | .result => s
  | .nsym => s
  | .maxlen => s
  | .ncoded => s
  | .tlen => s
  | .tcode => s
  | .tsort => s
  | .tnuml => s
  | .pNmax => s
  | .pCbbytes => s
  | .pMaxlen => s
  | .reserved => s

/-! ## Command operands -/

/-- `xlate(v)`: the sentinel is the internal EOF id NSYM - 1, any other value is itself (R135). -/
def xlate (s : State) (v : Word) : Nat := if v = eofSentinel then s.ctx.nsym.toNat - 1 else v.toNat

/-- W[i], W[i+1], ..., `n` entries in ascending order, or the first index that was never written (R65, R101, U1). -/
def readWeights (m : Memory 32) (i : Nat) : Nat → Except Nat (List Nat)
  | 0 => .ok []
  | n + 1 =>
    match Memory.read? m i with
    | none => .error i
    | some v =>
      match readWeights m (i + 1) n with
      | .error j => .error j
      | .ok vs => .ok (v.toNat :: vs)

end Sys2Proof.Machine
end

