-- ==== Sys2Proof/Machine/Tree.lean ====
section
/-! DEFINITION. TreeBuilder and the code-length tree walker (R101, R103 to R108). Weights and sums are exact naturals
(R10, R15, R164): no sum of at most N_MAX weights wraps in the 64 bits the core holds. -/

namespace Sys2Proof.Machine

/-- The priority order on (weight, node index) pairs: smaller weight first, then smaller index (R104). -/
def queueBefore (a b : Nat × Nat) : Bool := decide (a.1 < b.1) || (decide (a.1 = b.1) && decide (a.2 < b.2))

/-- `Q.insert`. The queue is held in priority order, so that `extractMin` takes its first pair (R104). -/
def queueInsert (e : Nat × Nat) : List (Nat × Nat) → List (Nat × Nat)
  | [] => [e]
  | x :: q => if queueBefore e x then e :: x :: q else x :: queueInsert e q

/-- The queue of leaves: one for each symbol of positive weight in ascending id, then the EOF leaf N of weight 0 (R103). -/
def leafQueue (ws : List Nat) : List (Nat × Nat) :=
  queueInsert (0, ws.length)
    ((ws.zipIdx).foldl (fun q e => if 0 < e.1 then queueInsert e q else q) [])

/-- An internal node: its own index and its children's (R105). -/
structure Internal where
  index : Nat
  child0 : Nat
  child1 : Nat
  deriving DecidableEq, Repr

/-- The merge loop (R105): while two or more pairs are left, merge the two least into internal node `next`. The internal
nodes come out newest first. A queue of k pairs takes k - 1 merges (R106), so `fuel` k is enough. -/
def mergeAll : Nat → List (Nat × Nat) → Nat → List Internal → List Internal
  | fuel + 1, (wa, a) :: (wb, b) :: q, next, nodes =>
    mergeAll fuel (queueInsert (wa + wb, next) q) (next + 1) (⟨next, a, b⟩ :: nodes)
  | _, _, _, nodes => nodes

/-- The tree over a weight table: its internal nodes, newest first. N is the table's length (R101). -/
def buildTree (ws : List Nat) : List Internal :=
  mergeAll (leafQueue ws).length (leafQueue ws) (ws.length + 1) []

/-- The walker (R107): visit internal nodes in descending creation index and set each child's depth. -/
def walkDepths : List Internal → List Nat → List Nat
  | [], depth => depth
  | n :: nodes, depth =>
    let d := depth.getD n.index 0 + 1
    walkDepths nodes ((depth.set n.child0 d).set n.child1 d)

/-- `Lt[0..N]` (R101, R107, R108): the depth of each symbol's leaf, 0 for a symbol without one, and 1 for the EOF leaf of a
single-leaf tree. -/
def codeLengths (ws : List Nat) : List Nat :=
  let n := ws.length
  let nodes := buildTree ws
  let depth := walkDepths nodes (List.replicate (n + 1 + nodes.length) 0)
  let lt := (List.range (n + 1)).map fun s => if s = n ∨ 0 < ws.getD s 0 then depth.getD s 0 else 0
  if nodes.isEmpty then lt.set n 1 else lt

end Sys2Proof.Machine
end

