-- ==== Sys2Proof/Machine/Build.lean ====
section
/-! DEFINITION. BUILD (R101, R102, R109, R110). -/

namespace Sys2Proof.Machine

/-- The rule of BUILD (R101). RANGE is checked before any weight is read (R102), and LENGTH_OVERFLOW before CANON (R109).
CANON cannot fail here (R119). RESULT is NCODED (R168). -/
def buildRule (s : State) : Ending :=
  let n := s.csr.alpha.toNat
  if s.params.nMax < n then raiseInvalidating .range s
  else
    match readWeights s.weights 0 n with
    | .error i => .stopped (.neverWrittenWeight i)
    | .ok ws =>
      let lt := codeLengths ws
      if maxCodeLength < lt.foldl max 0 then raiseInvalidating .lengthOverflow s
      else
        let c := canonContext lt
        finish c.ncoded.toNat .none { s with ctx := c }

/-- BUILD, command word 0x00000001. -/
def execBuild (s : State) : Host.Outcome State Fault Refusal := acceptCommand .build buildRule s

end Sys2Proof.Machine
end

