-- ==== Sys2Proof/Machine/Varint.lean ====
section
/-! DEFINITION. The variable-length integers of the codebook wire format (R92 to R95). -/

namespace Sys2Proof.Machine

/-- `uvarint_enc(v)` for v < 2^64 (R92): 7-bit groups, least significant first, bit 7 set on all but the last. -/
def uvarintEnc (v : Nat) : List Byte := go 9 v
where
  /-- At most `fuel` bytes with bit 7 set, then the last byte. -/
  go : Nat → Nat → List Byte
    | 0, v => [BitVec.ofNat 8 v]
    | fuel + 1, v =>
      if 0x80 ≤ v then BitVec.ofNat 8 ((v &&& 0x7F) ||| 0x80) :: go fuel (v >>> 7) else [BitVec.ofNat 8 v]

/-- `uvlen(v)`, the length of the minimal form for v < 2^64 (R93): `max(1, ceil(bitlength(v) / 7))`. -/
def uvlen (v : Nat) : Nat := go 9 v
where
  /-- One byte for each 7 bits. -/
  go : Nat → Nat → Nat
    | 0, _ => 1
    | fuel + 1, v => if v < 2 ^ 7 then 1 else go fuel (v / 2 ^ 7) + 1

/-- What decoding a varint gives (R92): a value and the bytes consumed, FAIL_TRUNCATED, FAIL_OVERFLOW, or a byte that was
never written, which has no value (U1). -/
inductive VarintResult (α : Type) where
  | value (v : α) (n : Nat)
  | truncated
  | overflow
  | unwritten (index : Nat)
  deriving DecidableEq, Repr

/-- `uvarint_dec(p, end)` (R92). -/
def uvarintDec (cb : Memory 8) (p e : Nat) : VarintResult Nat := go 11 0 0
where
  /-- The loop: `i` bytes were consumed and `x` accumulated. The shift s is 7 * i. -/
  go : Nat → Nat → Nat → VarintResult Nat
    | 0, _, _ => .overflow
    | fuel + 1, i, x =>
      if e ≤ p + i then .truncated
      else if i = 10 then .overflow
      else
        match Memory.read? cb (p + i) with
        | none => .unwritten (p + i)
        | some b =>
          if b.toNat < 0x80 then
            if i = 9 ∧ 1 < b.toNat then .overflow else .value (x ||| (b.toNat <<< (7 * i))) (i + 1)
          else go fuel (i + 1) (x ||| ((b.toNat &&& 0x7F) <<< (7 * i)))

/-- `zigzag_dec(u)` (R95). -/
def zigzagDec (u : Nat) : Int := if u % 2 = 0 then ((u / 2 : Nat) : Int) else -((u / 2 : Nat) : Int) - 1

/-- The unsigned value that `svarint_enc` writes for v (R94). -/
def zigzagEnc (v : Int) : Nat := if 0 ≤ v then (2 * v).toNat else (-2 * v - 1).toNat

/-- `svarint_enc(v)` (R94). -/
def svarintEnc (v : Int) : List Byte := uvarintEnc (zigzagEnc v)

/-- `svarint_dec(p, end)` (R94). -/
def svarintDec (cb : Memory 8) (p e : Nat) : VarintResult Int :=
  match uvarintDec cb p e with
  | .value u n => .value (zigzagDec u) n
  | .truncated => .truncated
  | .overflow => .overflow
  | .unwritten i => .unwritten i

end Sys2Proof.Machine
end

