-- ==== Sys2Proof/Machine/Codebook.lean ====
section
/-! DEFINITION. SERIALIZE and DESERIALIZE, the codebook codec (R91, R123 to R133). -/

namespace Sys2Proof.Machine

/-- The serialized form of a length array (R91, R123, R124): the count, then every symbol's length in id order. -/
def codebookBytes (nsym : Nat) (lens : List Nat) : List Byte :=
  uvarintEnc nsym ++ lens.flatMap fun l => svarintEnc (l : Int)

/-- The rule of SERIALIZE (R123). CBIDX is not changed. RESULT is the number of bytes written (R168). -/
def serializeRule (s : State) : Ending :=
  if s.ctx.valid then
    let nsym := s.ctx.nsym.toNat
    let out := codebookBytes nsym ((List.range nsym).map fun i => (s.ctx.lenAt i).toNat)
    finish out.length .none
      { s with cb := Memory.writeAll s.cb 0 out, csr := { s.csr with cblen := BitVec.ofNat 32 out.length } }
  else raise .noCodebook 0 .none s

/-- SERIALIZE, command word 0x00000002. -/
def execSerialize (s : State) : Host.Outcome State Fault Refusal := acceptCommand .serialize serializeRule s

/-- What parsing a codebook gives: the lengths and the bytes consumed, INVALID_CODEBOOK, or a byte that was never
written (R125, U1). -/
inductive Parsed where
  | lengths (lt : List Nat) (consumed : Nat)
  | invalid
  | unwritten (index : Nat)
  deriving DecidableEq, Repr

/-- `n` lengths from byte `p` on, each in 0..32, up to the first failing one (R125, R127, R129). -/
def parseLengths (cb : Memory 8) (e : Nat) : Nat → Nat → Parsed
  | 0, p => .lengths [] p
  | n + 1, p =>
    match svarintDec cb p e with
    | .truncated => .invalid
    | .overflow => .invalid
    | .unwritten i => .unwritten i
    | .value v k =>
      if v < 0 ∨ (maxCodeLength : Int) < v then .invalid
      else
        match parseLengths cb e n (p + k) with
        | .lengths lt q => .lengths (v.toNat :: lt) q
        | .invalid => .invalid
        | .unwritten i => .unwritten i

/-- The parse and the checks of DESERIALIZE in their order (R125, R169): the count varint (R127), the count bound (R128),
each length (R127, R129), the EOF length (R130), the Kraft check (R131). Bytes after the last length are not read (R132). -/
def parseCodebook (cb : Memory 8) (e bound : Nat) : Parsed :=
  match uvarintDec cb 0 e with
  | .truncated => .invalid
  | .overflow => .invalid
  | .unwritten i => .unwritten i
  | .value cnt k =>
    if cnt = 0 ∨ bound < cnt then .invalid
    else
      match parseLengths cb e cnt k with
      | .invalid => .invalid
      | .unwritten i => .unwritten i
      | .lengths lt p =>
        if lt.getD (cnt - 1) 0 = 0 then .invalid
        else if oversubscribed lt then .invalid
        else .lengths lt p

/-- The rule of DESERIALIZE (R125, R126, R133). RESULT is the number of bytes consumed (R168). -/
def deserializeRule (s : State) : Ending :=
  let e := s.csr.cblen.toNat
  if s.params.cbBytes < e then raiseInvalidating .range s
  else
    match parseCodebook s.cb e (min s.csr.dlim.toNat (s.params.nMax + 1)) with
    | .unwritten i => .stopped (.neverWrittenByte i)
    | .invalid => raiseInvalidating .invalidCodebook s
    | .lengths lt p => finish p .none { s with ctx := canonContext lt }

/-- DESERIALIZE, command word 0x00000003. -/
def execDeserialize (s : State) : Host.Outcome State Fault Refusal := acceptCommand .deserialize deserializeRule s

end Sys2Proof.Machine
end

