-- ==== Sys2Proof/Machine/Control.lean ====
section
/-! DEFINITION. NOP, CLEAR and the illegal command word (R156 to R158). -/

namespace Sys2Proof.Machine

/-- The rule of NOP (R156). -/
def nopRule (s : State) : Ending := finish 0 .none s

/-- NOP, command word 0x00000000. -/
def execNop (s : State) : Host.Outcome State Fault Refusal := acceptCommand .nop nopRule s

/-- The rule of CLEAR (R157): the context is discarded and OVR <- 0. -/
def clearRule (s : State) : Ending :=
  finish 0 .none { s with ctx := Context.invalid, flags := s.flags.clearOverrun }

/-- CLEAR, command word 0x00000007. -/
def execClear (s : State) : Host.Outcome State Fault Refusal := acceptCommand .clear clearRule s

/-- An illegal command word (R87, R88, R158), entered with phase IDLE: LASTOP <- d[7:0], RESULT <- 0, ERR <- 7, DONE <- 1,
and BUSY is never set. -/
def illegalCommand (d : Word) (s : State) : State :=
  { s with
    flags := (s.flags.accept (opField d)).ended .illegalCommand true
    csr := { s.csr with result := 0 } }

end Sys2Proof.Machine
end

