-- ==== Sys2Proof/Machine/Decoder.lean ====
section
/-! DEFINITION. DECODE, the length-table decoder (R144 to R152). -/

namespace Sys2Proof.Machine

/-- How one DECODE ends, with the reader's answers that are left (R152). -/
inductive DecodeEnd where
  /-- SymbolFound: the symbol's id. -/
  | found (sym : Word) (nbits : Nat) (rest : List Answer)
  /-- Exhausted: the reader answered EOS, or has no more bits. -/
  | exhausted (nbits : Nat) (rest : List Answer)
  /-- NoMatch: MAXLEN bits match no codeword. -/
  | noMatch (nbits : Nat) (rest : List Answer)
  deriving DecidableEq, Repr

/-- The loop of DECODE (R144): `fuel` lengths are left to try, the next being L = nbits + 1. An empty list of answers is a
reader without more bits, which answers EOS (R24, A8). -/
def decodeLoop (c : Context) : Nat → Nat → Nat → Nat → Nat → List Answer → DecodeEnd
  | 0, nbits, _, _, _, reader => .noMatch nbits reader
  | _ + 1, nbits, _, _, _, [] => .exhausted nbits []
  | _ + 1, nbits, _, _, _, .eos :: rest => .exhausted nbits rest
  | fuel + 1, nbits, code, first, offset, .bit b :: rest =>
    let code' := (code <<< 1) ||| b.toNat
    let cnt := (c.numlAt (nbits + 1)).toNat
    if code' - first < cnt then .found (c.sortedAt (offset + (code' - first))) (nbits + 1) rest
    else decodeLoop c fuel (nbits + 1) code' ((first + cnt) <<< 1) (offset + cnt) rest

/-- The answers that were taken from `reader` when `rest` is left. -/
def takenFrom (reader rest : List Answer) : List Answer := reader.take (reader.length - rest.length)

/-- The rule of DECODE (R144). SYM is written only on success, the EOF id as the sentinel (R148). The bits taken are gone
on every path (R151). -/
def decodeRule (s : State) : Ending :=
  if s.ctx.valid then
    match decodeLoop s.ctx s.ctx.maxlen.toNat 0 0 0 0 s.reader with
    | .found i nbits rest =>
      let sym := if i = s.ctx.nsym - 1 then eofSentinel else i
      finish nbits (.read (takenFrom s.reader rest)) { s with reader := rest, csr := { s.csr with sym := sym } }
    | .exhausted nbits rest =>
      raise .endOfStream nbits (.read (takenFrom s.reader rest)) { s with reader := rest }
    | .noMatch nbits rest =>
      raise .unknownSymbol nbits (.read (takenFrom s.reader rest)) { s with reader := rest }
  else raise .noCodebook 0 .none s

/-- DECODE, command word 0x00000006. -/
def execDecode (s : State) : Host.Outcome State Fault Refusal := acceptCommand .decode decodeRule s

end Sys2Proof.Machine
end

