-- ==== Sys2Proof/Machine/Encoder.lean ====
section
/-! DEFINITION. SYMLEN and ENCODE, the symbol encoder (R135 to R142). -/

namespace Sys2Proof.Machine

/-- The rule of SYMLEN (R136): a symbol outside the alphabet ends OK with RESULT 0. -/
def symlenRule (s : State) : Ending :=
  if s.ctx.valid then
    let i := xlate s s.csr.sym
    if s.ctx.nsym.toNat ≤ i then finish 0 .none s else finish (s.ctx.lenAt i).toNat .none s
  else raise .noCodebook 0 .none s

/-- SYMLEN, command word 0x00000004. -/
def execSymlen (s : State) : Host.Outcome State Fault Refusal := acceptCommand .symlen symlenRule s

/-- The rule of ENCODE (R138): one transfer of the whole codeword (R139, R142), or UNKNOWN_SYMBOL and none (R140, R141). -/
def encodeRule (s : State) : Ending :=
  if s.ctx.valid then
    let i := xlate s s.csr.sym
    if s.ctx.nsym.toNat ≤ i then raise .unknownSymbol 0 .none s
    else if s.ctx.lenAt i = 0 then raise .unknownSymbol 0 .none s
    else finish (s.ctx.lenAt i).toNat .wrote (s.bitWrite (s.ctx.codeAt i) (s.ctx.lenAt i).toNat)
  else raise .noCodebook 0 .none s

/-- ENCODE, command word 0x00000005. -/
def execEncode (s : State) : Host.Outcome State Fault Refusal := acceptCommand .encode encodeRule s

end Sys2Proof.Machine
end

