-- ==== Sys2Proof/Machine/HostPort.lean ====
section
/-! DEFINITION. HWR and HRD, the host transactions (R159, R160), and command acceptance by a write to CMD (R87). -/

namespace Sys2Proof.Machine

/-- The rule of an accepted command word's operation (R86, R87). -/
def execOp : Op → State → Host.Outcome State Fault Refusal
  | .nop, s => execNop s
  | .build, s => execBuild s
  | .serialize, s => execSerialize s
  | .deserialize, s => execDeserialize s
  | .symlen, s => execSymlen s
  | .encode, s => execEncode s
  | .decode, s => execDecode s
  | .clear, s => execClear s

/-- A write to CMD while BUSY = 0 (R87). -/
def writeCmd (d : Word) (s : State) : Host.Outcome State Fault Refusal :=
  match decodeOp d with
  | some op => execOp op s
  | none => .next (illegalCommand d s)

/-- HWR (R159). In the BUSY window every write is dropped (R185 (1)). -/
def execHwr (addr : Offset) (data : Word) (s : State) : Host.Outcome State Fault Refusal :=
  if Offset.aligned addr then
    match s.phase with
    | .busy _ _ _ => .next s.dropWrite
    | .idle => if addr = cmdOffset then writeCmd data s else .next (writeReg data s (regAt addr))
  else .fault (.noSuchOffset addr)

/-- HRD (R160). In the BUSY window R185 (2) to (4) apply, and each read draws its own free value. -/
def execHrd (addr : Offset) (s : State) : Host.Outcome State Fault Refusal :=
  if Offset.aligned addr then
    match s.phase with
    | .busy _ _ _ =>
      .next (State.tick { s.answerHost (readRegBusy s (regAt addr)) with free := s.free + 1 })
    | .idle => .next (s.answerHost (readReg s (regAt addr)))
  else .fault (.noSuchOffset addr)

end Sys2Proof.Machine
end

