-- ==== Sys2Proof/Machine/Fetch.lean ====
section
/-! DEFINITION. Taking the host's next event and decoding it. -/

namespace Sys2Proof.Machine

/-- What the host's next event asks for, with the state it was taken from the queue of. -/
inductive Fetched where
  /-- No event is pending: the core does nothing until a host write (R179). -/
  | idle
  /-- The reset event (R180). -/
  | reset (s : State)
  /-- A sub-word write, which the core ignores entirely (R73). -/
  | ignored (s : State)
  /-- A transaction. -/
  | instr (i : Instr) (s : State)
  /-- A word that is no transaction. -/
  | rejected (r : Reject)
  deriving DecidableEq, Repr

/-- A write with byte enables other than all four (R73). A sub-word read returns the whole register, as any read does. -/
def isSubWordWrite (enables : BitVec 4) (w : TransactionWord) : Bool := decide (dirField w = 1) && decide (enables ≠ 0xF)

/-- The next event of the host (R22, R78). A transaction that a reset makes lost has no effect (R180). -/
def fetch (s : State) : Fetched :=
  match s.pending with
  | [] => .idle
  | .reset _ :: rest => .reset { s with pending := rest }
  | .transaction enables w :: rest =>
    if isSubWordWrite enables w then .ignored { s with pending := rest }
    else
      match decode (.transaction w) with
      | .ok i => .instr i { s with pending := rest }
      | .error r => .rejected r

/-- A word that the port does not have: an offset that does not exist faults (R22, R64), and a read word with data is
no transaction (R90). An illegal command word is none of these: it is data of a write to CMD (R158). -/
def rejectTransaction : Reject → Host.Outcome State Fault Refusal
  | .misalignedOffset a => .fault (.noSuchOffset a)
  | .readCarriesData d => .refused (.readCarriesData d)
  | .illegalCommand d => .refused (.readCarriesData d)

/-- Put a word where the next step takes it: a whole-word host transaction at the head of the queue (R85, R90). -/
def State.withTransaction (s : State) (p : PortWord) : State :=
  { s with pending := .transaction 0xF p.carrier :: s.pending }

end Sys2Proof.Machine
end

