-- ==== Sys2Proof/Machine/Step.lean ====
section
/-! DEFINITION. One step: take the host's next event. The core fetches no program of its own (R4, R28); what runs is the
host's sequence of transactions. -/

namespace Sys2Proof.Machine

def step (s : State) : Host.Outcome State Fault Refusal :=
  match fetch s with
  | .idle => .next s
  | .reset t => .next t.resetEvent
  | .ignored t => .next t
  | .instr i t => exec i t
  | .rejected r => rejectTransaction r

/-- The state whose next step runs the instruction of a word of opcode_table.json: the host issues it next. -/
def State.withFetchWord (s : State) (nbits w : Nat) : State :=
  match portWordOf nbits w with
  | some p => s.withTransaction p
  | none => s

end Sys2Proof.Machine
end

