-- ==== Sys2Proof/Safety.lean ====
section
/-! DEFINITION. The terms in which claims about the core are made: legal parameters, the context and the invariant that
R59 and its neighbours give, codewords, the source's sort form of the canonical assignment, and the frames. -/

namespace Sys2Proof.Machine

/-! ## Parameters and the context -/

/-- The parameters the spec allows (R8, R11). -/
abbrev Legal (p : Params) : Prop :=
  1 ≤ p.nMax ∧ p.nMax ≤ 2 ^ 32 - 2 ∧ uvlen (p.nMax + 1) + (p.nMax + 1) ≤ p.cbBytes

/-- LEN[0..NSYM-1] as numbers. -/
def Context.lengths (c : Context) : List Nat := c.len.map BitVec.toNat

/-- The Kraft sum of the coded symbols in units of 2^-32, for lengths up to 32 (R19, R119): 2^32 stands for 1. -/
def kraft (lt : List Nat) : Nat := (lt.map fun l => if l = 0 then 0 else 2 ^ (maxCodeLength - l)).sum

/-- The canonical order: length first, then symbol id (R115). -/
def CanonBefore (lt : List Nat) (s t : Nat) : Prop :=
  lt.getD s 0 < lt.getD t 0 ∨ lt.getD s 0 = lt.getD t 0 ∧ s < t

/-- The source's assignment of codes to symbols in canonical order, with the running `code` and `prev` (R116). -/
def sortFormFrom (lt : List Nat) : Nat → Nat → List Nat → List (Nat × Nat)
  | _, _, [] => []
  | code, prev, s :: rest =>
    let l := lt.getD s 0
    let code' := if prev < l then code <<< (l - prev) else code
    (s, code') :: sortFormFrom lt (code' + 1) l rest

/-- The source's assignment (R116): `code` and `prev` start at 0. -/
def sortForm (lt : List Nat) (order : List Nat) : List (Nat × Nat) := sortFormFrom lt 0 0 order

/-- Node m's pair is in the queue when the merge that creates node `born` starts: m is a leaf (R103) or an internal node
created before it, and no merge before it has taken m (R105). -/
def LiveBefore (ws : List Nat) (born m : Nat) : Prop :=
  (m < ws.length ∧ 0 < ws.getD m 0 ∨ ws.length ≤ m ∧ m < born) ∧
    ∀ n ∈ buildTree ws, n.index < born → m ≠ n.child0 ∧ m ≠ n.child1

/-- What a valid context satisfies (R59, with R55 to R58). -/
structure Context.Wf (p : Params) (c : Context) : Prop where
  /-- LEN[0..NSYM-1] are the defined entries (R55). -/
  nsym_eq : c.nsym.toNat = c.lengths.length
  /-- (i) -/
  nsym_pos : 1 ≤ c.nsym.toNat
  nsym_le : c.nsym.toNat ≤ p.nMax + 1
  /-- (ii) -/
  eof_coded : 1 ≤ c.lengths.getD (c.nsym.toNat - 1) 0
  /-- (iii) -/
  len_le : ∀ l ∈ c.lengths, l ≤ maxCodeLength
  /-- (iv), R58 -/
  numl_eq : c.numl.map BitVec.toNat = 0 :: (List.range' 1 maxCodeLength).map fun l => c.lengths.count l
  ncoded_eq : c.ncoded.toNat = (c.numl.map BitVec.toNat).sum
  /-- (v) -/
  maxlen_mem : c.maxlen.toNat ∈ c.lengths
  maxlen_ge : ∀ l ∈ c.lengths, l ≤ c.maxlen.toNat
  /-- (vi), R57 -/
  sorted_coded : ∀ s, s ∈ c.sorted.map BitVec.toNat ↔ s < c.nsym.toNat ∧ 1 ≤ c.lengths.getD s 0
  sorted_order : (c.sorted.map BitVec.toNat).Pairwise (CanonBefore c.lengths)
  /-- (vii), R56, R116 -/
  code_canon : ∀ e ∈ sortForm c.lengths (c.sorted.map BitVec.toNat),
    (Memory.read? c.code e.1).map BitVec.toNat = some e.2
  /-- (viii) -/
  kraft_le : kraft c.lengths ≤ 2 ^ maxCodeLength

/-- Two contexts with the same specified contents: what R134 lists. -/
structure Context.Same (c d : Context) : Prop where
  valid : d.valid = c.valid
  nsym : d.nsym = c.nsym
  maxlen : d.maxlen = c.maxlen
  ncoded : d.ncoded = c.ncoded
  len : ∀ s, s < c.nsym.toNat → d.lenAt s = c.lenAt s
  code : ∀ s, s < c.nsym.toNat → c.lenAt s ≠ 0 → d.codeAt s = c.codeAt s
  sorted : ∀ k, k < c.ncoded.toNat → d.sortedAt k = c.sortedAt k
  numl : ∀ l, l ≤ maxCodeLength → d.numlAt l = c.numlAt l

/-- VALID = 0 goes with NSYM = MAXLEN = NCODED = 0 (R38 to R40, R54). -/
def State.InvalidIsZero (s : State) : Prop :=
  s.ctx.valid = false → s.ctx.nsym = 0 ∧ s.ctx.maxlen = 0 ∧ s.ctx.ncoded = 0

/-- Both RAMs are in canonical form. -/
def State.RamsCanonical (s : State) : Prop := Memory.wf s.weights = true ∧ Memory.wf s.cb = true

/-- The invariant of the core: what holds of every state a run from reset with legal parameters reaches. -/
structure State.Inv (s : State) : Prop where
  /-- R8, R11 -/
  legal : Legal s.params
  rams : s.RamsCanonical
  /-- R52 -/
  weights_lt : ∀ e ∈ s.weights, e.1 < s.params.nMax
  /-- R53 -/
  cb_lt : ∀ e ∈ s.cb, e.1 < s.params.cbBytes
  /-- R59 -/
  valid_wf : s.ctx.valid = true → s.ctx.Wf s.params
  /-- R54 -/
  invalid_zero : s.InvalidIsZero
  /-- R32: DONE is 0 while BUSY is 1. -/
  busy_not_done : s.phase.isBusy = true → s.flags.done = false

/-! ## Codewords and streams -/

/-- The bits of a transfer, most significant first (R23). -/
def Transfer.bits (x : Transfer) : List Bool := (List.range x.nbits).map fun j => x.value.getLsbD (x.nbits - 1 - j)

/-- The codeword of a coded symbol, first-written bit first (R97). -/
def Context.codeword (c : Context) (s : Nat) : List Bool := Transfer.bits ⟨c.codeAt s, (c.lenAt s).toNat⟩

/-- A symbol id that has a codeword (R19, R97). -/
def Context.Coded (c : Context) (s : Nat) : Prop := s < c.nsym.toNat ∧ c.lenAt s ≠ 0

/-- The symbol id that a host's value of SYM names: the sentinel is the EOF id (R98, R135). -/
def Context.idOf (c : Context) (v : Word) : Nat := if v = eofSentinel then c.nsym.toNat - 1 else v.toNat

/-- What DECODE writes to SYM for a symbol id: the EOF id as the sentinel (R98, R148). -/
def Context.symOut (c : Context) (s : Nat) : Word :=
  if s = c.nsym.toNat - 1 then eofSentinel else BitVec.ofNat 32 s

/-- Answers that are bits. -/
def bitAnswers (bits : List Bool) : List Answer := bits.map Answer.bit

/-- Some RAM entries hold some bytes from an index on. -/
def HoldsAt {w : Nat} (m : Memory w) (a : Nat) (vs : List (BitVec w)) : Prop :=
  ∀ i, (h : i < vs.length) → Memory.read? m (a + i) = some vs[i]

/-! ## Varints as bytes -/

/-- The value of the 7-bit groups of some bytes, least significant first (R92). -/
def uvarintValue : List Byte → Nat
  | [] => 0
  | b :: bs => b.toNat % 2 ^ 7 + 2 ^ 7 * uvarintValue bs

/-- Some bytes are an encoding of v, minimal or not (R92): bit 7 is set on all but the last, there are at most ten of them,
and v is a 64-bit value. -/
def IsUvarint (bytes : List Byte) (v : Nat) : Prop :=
  bytes ≠ [] ∧ bytes.length ≤ 10 ∧ (∀ b ∈ bytes.dropLast, 0x80 ≤ b.toNat) ∧ (∀ b ∈ bytes.getLast?, b.toNat < 0x80) ∧
    uvarintValue bytes = v ∧ v < 2 ^ 64

/-- Some byte strings are encodings of signed values, one each (R94, R95). -/
def AreSvarints : List (List Byte) → List Int → Prop
  | [], [] => True
  | bytes :: encs, v :: vs => IsUvarint bytes (zigzagEnc v) ∧ AreSvarints encs vs
  | _, _ => False

/-! ## Runs of instructions -/

/-- Instructions one after the other, up to the first stop. -/
def execAll : List Instr → State → Host.Outcome State Fault Refusal
  | [], s => .next s
  | i :: is, s =>
    match exec i s with
    | .next t => execAll is t
    | .fault f => .fault f
    | .refused r => .refused r

/-! ## A host that waits -/

/-- How many reads of STATUS find BUSY = 1 if the host only polls from here on. -/
def State.busyReads (s : State) : Nat :=
  match s.phase with
  | .idle => 0
  | .busy _ left _ => left + 1

/-- `WAIT` (R100): reads of STATUS until one finds BUSY = 0, however long the window is. -/
def waitForEnd (s : State) : Host.Outcome State Fault Refusal :=
  execAll (List.replicate (s.busyReads + 1) (.hrd 0x08)) s

/-- The host writes each value to SYM, runs ENCODE, waits for its end and finds ERR = OK (R100's `ENC`). -/
def Encodes : List Word → State → State → Prop
  | [], s, t => t = s
  | v :: vs, s, t => ∃ s₁ s₂ s₃, exec (.hwr 0x18 v) s = .next s₁ ∧ exec .encode s₁ = .next s₂ ∧
      waitForEnd s₂ = .next s₃ ∧ s₃.phase = .idle ∧ s₃.flags.err = .ok ∧ Encodes vs s₃ t

/-- The host runs DECODE, waits for its end and finds ERR = OK, and in SYM and RESULT these values, one pair for each
(R100's `DEC`). -/
def Decodes : List (Word × Word) → State → State → Prop
  | [], s, t => t = s
  | e :: es, s, t => ∃ s₁ s₂, exec .decode s = .next s₁ ∧ waitForEnd s₁ = .next s₂ ∧ s₂.phase = .idle ∧
      s₂.flags.err = .ok ∧ s₂.csr.sym = e.1 ∧ s₂.csr.result = e.2 ∧ Decodes es s₂ t

/-- The operation that an instruction runs when it is accepted: a command is its own, and a write to CMD that of its
command word (R87). -/
def opOf : Instr → Option Op
  | .nop => some .nop
  | .build => some .build
  | .serialize => some .serialize
  | .deserialize => some .deserialize
  | .symlen => some .symlen
  | .encode => some .encode
  | .decode => some .decode
  | .clear => some .clear
  | .hwr addr data => if addr = cmdOffset then decodeOp data else none
  | .hrd _ => none

/-! ## Frames: what an instruction leaves as it was -/

/-- An accepted command has come to its end, or its BUSY window is still open (R87, R185). -/
def Accepted (op : Op) (t : State) : Prop :=
  t.flags.lastop = op.code ∧
    (t.phase = .idle ∧ t.flags.done = true ∨ ∃ n port, t.phase = .busy op n port ∧ t.flags.done = false)

/-- Every operand register but RESULT is unchanged: ALPHA, WIDX, SYM, CBIDX, CBLEN, DLIM, TIDX. -/
def SameOperands (s t : State) : Prop := t.csr = { s.csr with result := t.csr.result }

/-- Every entry of both RAMs reads as before. -/
def SameRams (s t : State) : Prop :=
  (∀ a, Memory.read? t.weights a = Memory.read? s.weights a) ∧ ∀ a, Memory.read? t.cb a = Memory.read? s.cb a

/-- Both streams are where they were. -/
def SameStreams (s t : State) : Prop := t.writer = s.writer ∧ t.reader = s.reader

/-- The parameters, the host's queue, what the host has read and the epoch are unchanged. -/
def SameOutside (s t : State) : Prop :=
  t.params = s.params ∧ t.pending = s.pending ∧ t.answers = s.answers ∧ t.epoch = s.epoch

/-- VALID, NSYM, MAXLEN and NCODED are 0 (R54, R167). -/
def Invalidated (t : State) : Prop :=
  t.ctx.valid = false ∧ t.ctx.nsym = 0 ∧ t.ctx.maxlen = 0 ∧ t.ctx.ncoded = 0

end Sys2Proof.Machine
end

