-- ==== Sys2Proof/Certificates/Slice0/Obligations.lean ====
section
/-! DEFINITION. The statements about the core, for the provers. -/

open Sys2Proof Sys2Proof.Machine

/-! ## Words -/

/-- The command words of R86 and three transaction words of 95_test_vectors.md decode to what they stand for. -/
def Obligations.SpecWordsDecode : Prop :=
  decode (.command 0x00000000) = .ok .nop ∧
  decode (.command 0x00000001) = .ok .build ∧
  decode (.command 0x00000002) = .ok .serialize ∧
  decode (.command 0x00000003) = .ok .deserialize ∧
  decode (.command 0x00000004) = .ok .symlen ∧
  decode (.command 0x00000005) = .ok .encode ∧
  decode (.command 0x00000006) = .ok .decode ∧
  decode (.command 0x00000007) = .ok .clear ∧
  decode (.transaction 0x10C00000006) = .ok (.hwr 0x0C 6) ∧
  decode (.transaction 0x118FFFFFFFF) = .ok (.hwr 0x18 0xFFFFFFFF) ∧
  decode (.transaction 0x00800000000) = .ok (.hrd 0x08)

/-- R86: a command word selects an operation exactly when it equals its pattern. -/
def Obligations.CommandWordSelectsOperation : Prop :=
  ∀ (d : Word) (i : Instr), decode (.command d) = .ok i ↔
    d = 0x00000000 ∧ i = .nop ∨ d = 0x00000001 ∧ i = .build ∨ d = 0x00000002 ∧ i = .serialize ∨
    d = 0x00000003 ∧ i = .deserialize ∨ d = 0x00000004 ∧ i = .symlen ∨ d = 0x00000005 ∧ i = .encode ∨
    d = 0x00000006 ∧ i = .decode ∨ d = 0x00000007 ∧ i = .clear

/-- R90: the fields of a transaction word, each at its place, and no other transaction. -/
def Obligations.TransactionWordFields : Prop :=
  (∀ (w : TransactionWord) (a : Offset) (d : Word), decode (.transaction w) = .ok (.hwr a d) ↔
    w.toNat / 2 ^ 40 = 1 ∧ a.toNat = w.toNat / 2 ^ 32 % 2 ^ 8 ∧ d.toNat = w.toNat % 2 ^ 32 ∧ a.toNat % 4 = 0) ∧
  ∀ (w : TransactionWord) (a : Offset), decode (.transaction w) = .ok (.hrd a) ↔
    w.toNat / 2 ^ 40 = 0 ∧ a.toNat = w.toNat / 2 ^ 32 % 2 ^ 8 ∧ w.toNat % 2 ^ 32 = 0 ∧ a.toNat % 4 = 0

/-- Every well-formed instruction is what its encoding decodes to, with every operand at every value. -/
def Obligations.EncodedInstructionDecodesBack : Prop :=
  ∀ i : Instr, i.WellFormed → decode (encode i) = .ok i

/-- Each word has one meaning: what decodes is well formed and encodes to the word it came from. -/
def Obligations.DecodedWordEncodesBack : Prop :=
  ∀ (w : PortWord) (i : Instr), decode w = .ok i → i.WellFormed ∧ encode i = w

/-- R93, R95, and the varints of R92 and R94: what is written for v is an encoding of v, of the minimal length; every
encoding of v, minimal or not, decodes to v; zig-zag decoding takes 2k to k and 2k+1 to -(k+1), and every 64-bit value into
[-2^63, 2^63 - 1]. -/
def Obligations.VarintRoundTrips : Prop :=
  (∀ v : Nat, v < 2 ^ 64 → IsUvarint (uvarintEnc v) v ∧
    (uvarintEnc v).length = max 1 ((Nat.size v + 6) / 7) ∧ uvlen v = max 1 ((Nat.size v + 6) / 7)) ∧
  (∀ (bytes : List Byte) (v : Nat) (cb : Memory 8) (p e : Nat), IsUvarint bytes v → HoldsAt cb p bytes →
    p + bytes.length ≤ e → uvarintDec cb p e = .value v bytes.length) ∧
  (∀ v : Int, -2 ^ 63 ≤ v → v < 2 ^ 63 → zigzagEnc v < 2 ^ 64 ∧ zigzagDec (zigzagEnc v) = v) ∧
  (∀ k : Nat, zigzagDec (2 * k) = k ∧ zigzagDec (2 * k + 1) = -((k : Int) + 1)) ∧
  ∀ u : Nat, u < 2 ^ 64 → -2 ^ 63 ≤ zigzagDec u ∧ zigzagDec u ≤ 2 ^ 63 - 1

/-! ## Steps -/

/-- A step takes the host's next transaction and runs the instruction its word decodes to; a write to CMD runs the
instruction its command word decodes to (R22, R78, R87, R90). -/
def Obligations.StepRunsPendingTransaction : Prop :=
  ∀ (s : State) (w : TransactionWord) (rest : List HostEvent), s.pending = .transaction 0xF w :: rest →
    (∀ i, decode (.transaction w) = .ok i → step s = exec i { s with pending := rest }) ∧
    ∀ (d : Word) i, w.toNat = 0x104 * 2 ^ 32 + d.toNat → decode (.command d) = .ok i →
      step s = exec i { s with pending := rest }

/-- R73: a sub-word write is ignored entirely, without setting OVR; a sub-word read returns the whole register. (That this
holds in the BUSY window too is the model's reading, A13.) -/
def Obligations.SubWordTransactions : Prop :=
  ∀ (s : State) (enables : BitVec 4) (w : TransactionWord) (rest : List HostEvent), enables ≠ 0xF →
    s.pending = .transaction enables w :: rest →
    (w.toNat / 2 ^ 40 = 1 → step s = .next { s with pending := rest }) ∧
    ∀ a, decode (.transaction w) = .ok (.hrd a) → step s = exec (.hrd a) { s with pending := rest }

/-- The core does nothing until the host asks for something (R179). An offset that does not exist faults (A14: the
model's choice of stop). -/
def Obligations.StepsThatRunNothing : Prop :=
  (∀ s : State, s.pending = [] → step s = .next s) ∧
  (∀ (s : State) (w : TransactionWord) (rest : List HostEvent), s.pending = .transaction 0xF w :: rest →
    w.toNat / 2 ^ 32 % 4 ≠ 0 → step s = .fault (.noSuchOffset (BitVec.ofNat 8 (w.toNat / 2 ^ 32)))) ∧
  ∀ (s : State) (a : Offset) (d : Word), a.toNat % 4 ≠ 0 →
    exec (.hwr a d) s = .fault (.noSuchOffset a) ∧ exec (.hrd a) s = .fault (.noSuchOffset a)

/-! ## Reset -/

/-- The values of R63, each register as the host reads it. -/
def ResetValues (p : Params) (t : State) : Prop :=
  t.phase = .idle ∧ t.flags = ⟨false, false, .ok, 0⟩ ∧ t.ctx.valid = false ∧
  exec (.hrd 0x00) t = .next { t with answers := t.answers ++ [0x48554646] } ∧
  exec (.hrd 0x08) t = .next { t with answers := t.answers ++ [0] } ∧
  (∀ a ∈ ([0x04, 0x0C, 0x10, 0x18, 0x1C, 0x20, 0x24, 0x28, 0x2C, 0x34, 0x3C, 0x40, 0x44, 0x4C] : List Offset),
    exec (.hrd a) t = .next { t with answers := t.answers ++ [0] }) ∧
  exec (.hrd 0x38) t = .next { t with answers := t.answers ++ [BitVec.ofNat 32 (p.nMax + 1)] } ∧
  exec (.hrd 0x48) t = .next { t with answers := t.answers ++ [0xFFFFFFFF] } ∧
  exec (.hrd 0x50) t = .next { t with answers := t.answers ++ [BitVec.ofNat 32 p.nMax] } ∧
  exec (.hrd 0x54) t = .next { t with answers := t.answers ++ [BitVec.ofNat 32 p.cbBytes] } ∧
  exec (.hrd 0x58) t = .next { t with answers := t.answers ++ [32] } ∧
  ∀ i, Memory.read? t.weights i = none ∧ Memory.read? t.cb i = none

/-- R63 (with R180): after reset every register holds its value of the table and no RAM entry is written, whatever phase the
core was in. Reset does not move the streams, and a transaction issued with it is lost. -/
def Obligations.ResetSetsEveryRegister : Prop :=
  (∀ p : Params, ResetValues p (State.resetOf p)) ∧
  ∀ (s : State) (lost : Option TransactionWord) (rest : List HostEvent), s.pending = .reset lost :: rest →
    ∃ t, step s = .next t ∧ ResetValues s.params t ∧ t.params = s.params ∧ t.pending = rest ∧ t.answers = s.answers ∧
      (s.phase = .idle → t.writer = s.writer ∧ t.reader = s.reader)

/-- R181: a reset after an ENCODE whose window is open leaves the writer with all of the codeword or none of it, one
after a DECODE whose window is open leaves some of the answers it asked for consumed, at most MAXLEN. -/
def Obligations.ResetDuringPortWait : Prop :=
  ∀ (s u : State) (lost : Option TransactionWord) (rest : List HostEvent), s.phase = .idle →
    u.pending = .reset lost :: rest → u.phase.isBusy = true →
    (exec .encode s = .next u →
      ∃ t, step u = .next t ∧ (t.writer = s.writer ∨ t.writer = u.writer) ∧ t.reader = s.reader) ∧
    (exec .decode s = .next u →
      ∃ t k, step u = .next t ∧ t.writer = s.writer ∧ t.reader = s.reader.drop k ∧ k ≤ s.ctx.maxlen.toNat) ∧
    ∀ i ∈ [Instr.nop, .build, .serialize, .deserialize, .symlen, .clear], exec i s = .next u →
      ∃ t, step u = .next t ∧ t.writer = s.writer ∧ t.reader = s.reader

/-! ## Host reads and writes -/

/-- Host reads and writes of the stored registers while BUSY = 0 (10_state.md section 4, R159, R160). A write to an RW
register replaces it whole, a write of a command word to CMD is the command (R87), and nothing else changes. -/
def Obligations.StoredRegistersReadAndWrite : Prop :=
  ∀ s : State, s.phase = .idle →
    exec (.hrd 0x04) s = .next { s with answers := s.answers ++ [0] } ∧
    exec (.hrd 0x0C) s = .next { s with answers := s.answers ++ [s.csr.alpha] } ∧
    exec (.hrd 0x10) s = .next { s with answers := s.answers ++ [s.csr.widx] } ∧
    exec (.hrd 0x18) s = .next { s with answers := s.answers ++ [s.csr.sym] } ∧
    exec (.hrd 0x1C) s = .next { s with answers := s.answers ++ [s.csr.result] } ∧
    exec (.hrd 0x20) s = .next { s with answers := s.answers ++ [s.ctx.nsym] } ∧
    exec (.hrd 0x24) s = .next { s with answers := s.answers ++ [s.ctx.maxlen.zeroExtend 32] } ∧
    exec (.hrd 0x28) s = .next { s with answers := s.answers ++ [s.ctx.ncoded] } ∧
    exec (.hrd 0x2C) s = .next { s with answers := s.answers ++ [s.csr.cbidx] } ∧
    exec (.hrd 0x34) s = .next { s with answers := s.answers ++ [s.csr.cblen] } ∧
    exec (.hrd 0x38) s = .next { s with answers := s.answers ++ [s.csr.dlim] } ∧
    exec (.hrd 0x3C) s = .next { s with answers := s.answers ++ [s.csr.tidx] } ∧
    (∀ d : Word,
      exec (.hwr 0x0C d) s = .next { s with csr := { s.csr with alpha := d } } ∧
      exec (.hwr 0x10 d) s = .next { s with csr := { s.csr with widx := d } } ∧
      exec (.hwr 0x18 d) s = .next { s with csr := { s.csr with sym := d } } ∧
      exec (.hwr 0x2C d) s = .next { s with csr := { s.csr with cbidx := d } } ∧
      exec (.hwr 0x34 d) s = .next { s with csr := { s.csr with cblen := d } } ∧
      exec (.hwr 0x38 d) s = .next { s with csr := { s.csr with dlim := d } } ∧
      exec (.hwr 0x3C d) s = .next { s with csr := { s.csr with tidx := d } }) ∧
    ∀ (d : Word) (i : Instr), decode (.command d) = .ok i → exec (.hwr 0x04 d) s = exec i s

/-- R30, R50: ID and the parameter registers read their constants at all times, in the BUSY window too, and ignore
writes. -/
def Obligations.ConstantRegistersAtAllTimes : Prop :=
  ∀ (s : State) (a : Offset) (v : Word),
    (a, v) ∈ [((0x00 : Offset), (0x48554646 : Word)), (0x50, BitVec.ofNat 32 s.params.nMax),
      (0x54, BitVec.ofNat 32 s.params.cbBytes), (0x58, 32)] →
    (∃ t, exec (.hrd a) s = .next t ∧ t.answers = s.answers ++ [v]) ∧
    ∀ d, ∃ t, exec (.hwr a d) s = .next t ∧ t.params = s.params ∧ (s.phase = .idle → t = s)

/-- R32, R165: STATUS as the host reads it while BUSY = 0, every field at its place, the reserved bits 0, and the error
codes. -/
def Obligations.StatusWordFields : Prop :=
  (∀ s : State, s.phase = .idle → ∃ v : Word,
    exec (.hrd 0x08) s = .next { s with answers := s.answers ++ [v] } ∧
    v.getLsbD 0 = false ∧ v.getLsbD 1 = s.flags.done ∧ v.getLsbD 2 = s.ctx.valid ∧ v.getLsbD 3 = s.flags.ovr ∧
    v.extractLsb' 4 4 = 0 ∧ v.extractLsb' 8 4 = s.flags.err.code ∧ v.extractLsb' 12 4 = 0 ∧
    v.extractLsb' 16 8 = s.flags.lastop ∧ v.extractLsb' 24 8 = 0) ∧
  ErrCode.code .ok = 0 ∧ ErrCode.code .invalidCodebook = 1 ∧ ErrCode.code .unknownSymbol = 2 ∧
  ErrCode.code .endOfStream = 3 ∧ ErrCode.code .noCodebook = 4 ∧ ErrCode.code .lengthOverflow = 5 ∧
  ErrCode.code .range = 6 ∧ ErrCode.code .illegalCommand = 7

/-- R35 (with R34): the WDATA port. A read of an entry never written returns some value, without effect (A5: the model's
choice of a free value, and this holds for every value of it). -/
def Obligations.WeightPort : Prop :=
  ∀ s : State, s.phase = .idle →
    (s.csr.widx.toNat < s.params.nMax →
      (∀ d, ∃ t, exec (.hwr 0x14 d) s = .next t ∧
        t = { s with weights := t.weights, csr := { s.csr with widx := s.csr.widx + 1 } } ∧
        Memory.read? t.weights s.csr.widx.toNat = some d ∧
        ∀ a, a ≠ s.csr.widx.toNat → Memory.read? t.weights a = Memory.read? s.weights a) ∧
      (∀ v, Memory.read? s.weights s.csr.widx.toNat = some v →
        exec (.hrd 0x14) s = .next { s with answers := s.answers ++ [v] }) ∧
      (Memory.read? s.weights s.csr.widx.toNat = none →
        ∃ v, exec (.hrd 0x14) s = .next { s with answers := s.answers ++ [v] })) ∧
    (s.params.nMax ≤ s.csr.widx.toNat →
      (∀ d, exec (.hwr 0x14 d) s = .next { s with
        flags := { s.flags with ovr := true }, csr := { s.csr with widx := s.csr.widx + 1 } }) ∧
      exec (.hrd 0x14) s = .next { s with answers := s.answers ++ [0] })

/-- R42 (with R41): the CBDATA port. Only data bits [7:0] are stored, and a read is zero-extended. A read of an entry never
written returns some byte, without effect (A5: the model's choice of a free value, and this holds for every value of it). -/
def Obligations.CodebookPort : Prop :=
  ∀ s : State, s.phase = .idle →
    (s.csr.cbidx.toNat < s.params.cbBytes →
      (∀ d : Word, ∃ t, exec (.hwr 0x30 d) s = .next t ∧
        t = { s with cb := t.cb, csr := { s.csr with cbidx := s.csr.cbidx + 1 } } ∧
        Memory.read? t.cb s.csr.cbidx.toNat = some (BitVec.ofNat 8 d.toNat) ∧
        ∀ a, a ≠ s.csr.cbidx.toNat → Memory.read? t.cb a = Memory.read? s.cb a) ∧
      (∀ v, Memory.read? s.cb s.csr.cbidx.toNat = some v →
        exec (.hrd 0x30) s = .next { s with answers := s.answers ++ [BitVec.ofNat 32 v.toNat] }) ∧
      (Memory.read? s.cb s.csr.cbidx.toNat = none →
        ∃ v : Byte, exec (.hrd 0x30) s = .next { s with answers := s.answers ++ [BitVec.ofNat 32 v.toNat] })) ∧
    (s.params.cbBytes ≤ s.csr.cbidx.toNat →
      (∀ d, exec (.hwr 0x30 d) s = .next { s with
        flags := { s.flags with ovr := true }, csr := { s.csr with cbidx := s.csr.cbidx + 1 } }) ∧
      exec (.hrd 0x30) s = .next { s with answers := s.answers ++ [0] })

/-- R46 to R49: the readback registers. -/
def Obligations.ReadbackRegisters : Prop :=
  ∀ (s : State) (k : Nat), s.phase = .idle → s.csr.tidx.toNat = k → ∃ tlen tcode tsort tnuml : Word,
    exec (.hrd 0x40) s = .next { s with answers := s.answers ++ [tlen] } ∧
    exec (.hrd 0x44) s = .next { s with answers := s.answers ++ [tcode] } ∧
    exec (.hrd 0x48) s = .next { s with answers := s.answers ++ [tsort] } ∧
    exec (.hrd 0x4C) s = .next { s with answers := s.answers ++ [tnuml] } ∧
    (s.ctx.valid = true ∧ k < s.ctx.nsym.toNat → tlen = (s.ctx.lenAt k).zeroExtend 32) ∧
    (¬(s.ctx.valid = true ∧ k < s.ctx.nsym.toNat) → tlen = 0) ∧
    (s.ctx.valid = true ∧ k < s.ctx.nsym.toNat ∧ 1 ≤ (s.ctx.lenAt k).toNat → tcode = s.ctx.codeAt k) ∧
    (¬(s.ctx.valid = true ∧ k < s.ctx.nsym.toNat ∧ 1 ≤ (s.ctx.lenAt k).toNat) → tcode = 0) ∧
    (s.ctx.valid = true ∧ k < s.ctx.ncoded.toNat → tsort = s.ctx.sortedAt k) ∧
    (¬(s.ctx.valid = true ∧ k < s.ctx.ncoded.toNat) → tsort = 0xFFFFFFFF) ∧
    (s.ctx.valid = true ∧ k ≤ 32 → tnuml = s.ctx.numlAt k) ∧
    (¬(s.ctx.valid = true ∧ k ≤ 32) → tnuml = 0)

/-- R75: no read has a side effect, and reads are idempotent while BUSY = 0. The host's record of answers is the model's
own field (A12). That the read of a data port over an entry never written answers a value, and the same one twice, is the
model's choice too (A5). -/
def Obligations.HostReadHasNoSideEffect : Prop :=
  ∀ (s : State) (a : Offset), s.phase = .idle → a.toNat % 4 = 0 → ∃ v : Word,
    exec (.hrd a) s = .next { s with answers := s.answers ++ [v] } ∧
    exec (.hrd a) { s with answers := s.answers ++ [v] } = .next { s with answers := s.answers ++ [v, v] }

/-- R51: while BUSY = 0 a reserved offset reads 0, and writes to it and to the RO registers are ignored without OVR. -/
def Obligations.ReservedAndReadOnlyOffsets : Prop :=
  ∀ (s : State) (a : Offset) (d : Word), s.phase = .idle →
    (a.toNat % 4 = 0 → 0x5C ≤ a.toNat →
      exec (.hrd a) s = .next { s with answers := s.answers ++ [0] } ∧ exec (.hwr a d) s = .next s) ∧
    (a ∈ ([0x00, 0x08, 0x1C, 0x20, 0x24, 0x28, 0x40, 0x44, 0x48, 0x4C, 0x50, 0x54, 0x58] : List Offset) →
      exec (.hwr a d) s = .next s)

/-! ## The BUSY window -/

/-- One transaction of the window has passed: it closes at the last one, and the command is then done. -/
def WindowStep (op : Op) (n : Nat) (port : PortUse) (s t : State) : Prop :=
  (n = 0 → t.phase = .idle ∧ t.flags.done = true) ∧
  ∀ m, n = m + 1 → t.phase = .busy op m port ∧ t.flags.done = s.flags.done

/-- R185 (1): in the window every host write, to any offset and so every command word too, is dropped and sets OVR, with
no other effect: the data ports' indices do not move either (A23). -/
def Obligations.BusyWindowDropsWrites : Prop :=
  ∀ (s : State) (op : Op) (n : Nat) (port : PortUse), s.phase = .busy op n port →
    ∀ i, (∃ a d, a.toNat % 4 = 0 ∧ i = Instr.hwr a d) ∨ (∃ c : Op, i = c.instr) →
      ∃ t, exec i s = .next t ∧ WindowStep op n port s t ∧
        t = { s with phase := t.phase, flags := { s.flags with ovr := true, done := t.flags.done } }

/-- R185 (2) to (4): in the window ID and the parameters read their constants and STATUS reads BUSY = 1 and DONE = 0 in
bits [1:0]. Every other read returns some value (A3: free values, and this holds for every value of them). -/
def Obligations.BusyWindowReads : Prop :=
  ∀ (s : State) (op : Op) (n : Nat) (port : PortUse) (a : Offset), s.phase = .busy op n port → a.toNat % 4 = 0 →
    ∃ (t : State) (v : Word), exec (.hrd a) s = .next t ∧ WindowStep op n port s t ∧
      t = { s with phase := t.phase, flags := { s.flags with done := t.flags.done }, free := t.free,
                   answers := s.answers ++ [v] } ∧
      (a = 0x00 → v = 0x48554646) ∧ (a = 0x50 → v = BitVec.ofNat 32 s.params.nMax) ∧
      (a = 0x54 → v = BitVec.ofNat 32 s.params.cbBytes) ∧ (a = 0x58 → v = 32) ∧
      (a = 0x08 → v.getLsbD 0 = true ∧ v.getLsbD 1 = false)

/-- R185, R190: the window closes after finitely many transactions, whatever the host issues, and the command is then
done. -/
def Obligations.BusyWindowCloses : Prop :=
  ∀ (n : Nat) (s : State) (op : Op) (port : PortUse) (is : List Instr), s.phase = .busy op n port →
    is.length = n + 1 → (∀ i ∈ is, i.WellFormed) →
    ∃ t, execAll is s = .next t ∧ t.phase = .idle ∧ t.flags.done = true

/-! ## Housekeeping and illegal words -/

/-- R158 (with R88): an illegal command word ends at once with ERR 7 and DONE 1, and changes nothing but STATUS and
RESULT. -/
def Obligations.IllegalCommandWord : Prop :=
  ∀ (s : State) (d : Word), s.phase = .idle → d.toNat / 2 ^ 8 ≠ 0 ∨ 8 ≤ d.toNat % 2 ^ 8 →
    exec (.hwr 0x04 d) s = .next { s with
      flags := { s.flags with done := true, err := .illegalCommand, lastop := BitVec.ofNat 8 d.toNat },
      csr := { s.csr with result := 0 } }

/-- R156: NOP ends OK with RESULT 0 and changes nothing else. -/
def Obligations.NopEndsOk : Prop :=
  ∀ s : State, s.phase = .idle → ∃ t, exec .nop s = .next t ∧ Accepted .nop t ∧
    t.flags.err = .ok ∧ t.flags.ovr = s.flags.ovr ∧ t.csr.result = 0 ∧ t.ctx = s.ctx ∧
    SameOperands s t ∧ SameRams s t ∧ SameStreams s t ∧ SameOutside s t

/-- R157: CLEAR discards the context and clears OVR, with or without a valid context. -/
def Obligations.ClearDiscardsContext : Prop :=
  ∀ s : State, s.phase = .idle → ∃ t, exec .clear s = .next t ∧ Accepted .clear t ∧
    t.flags.err = .ok ∧ t.flags.ovr = false ∧ t.csr.result = 0 ∧ Invalidated t ∧
    SameOperands s t ∧ SameRams s t ∧ SameStreams s t ∧ SameOutside s t

/-- R165, R167: without a valid context SERIALIZE, SYMLEN, ENCODE and DECODE end with NO_CODEBOOK and touch nothing. -/
def Obligations.NoCodebookError : Prop :=
  ∀ (s : State) (op : Op), op ∈ [Op.serialize, .symlen, .encode, .decode] → s.phase = .idle → s.ctx.valid = false →
    ∃ t, exec op.instr s = .next t ∧ Accepted op t ∧
      t.flags.err = .noCodebook ∧ t.flags.ovr = s.flags.ovr ∧ t.csr.result = 0 ∧ t.ctx = s.ctx ∧
      SameOperands s t ∧ SameRams s t ∧ SameStreams s t ∧ SameOutside s t

/-! ## CANON -/

/-- R118: first[L] in closed form, and the codes of length L are exactly first[L], ..., first[L] + cnt[L] - 1. -/
def Obligations.CodesOfALengthAreContiguous : Prop :=
  ∀ (lt : List Nat) (l : Nat), 1 ≤ l → l ≤ maxCodeLength →
    firstCode lt l = ((List.range' 1 (l - 1)).map fun m => lt.count m * 2 ^ (l - m)).sum ∧
    ∀ c, (∃ s, s < lt.length ∧ lt.getD s 0 = l ∧ canonCode lt s = c) ↔
      firstCode lt l ≤ c ∧ c < firstCode lt l + lt.count l

/-- R119: the check of CANON passes exactly when the Kraft sum is at most 1. -/
def Obligations.OversubscriptionIsKraft : Prop :=
  ∀ lt : List Nat, (∀ l ∈ lt, l ≤ maxCodeLength) → (oversubscribed lt = false ↔ kraft lt ≤ 2 ^ maxCodeLength)

/-- R115, R117: the radix form gives the same SORTED, CODE and NUML as the source's sort form, with the symbol of rank r
among those of length L at base[L] + r. -/
def Obligations.RadixFormIsSortForm : Prop :=
  ∀ lt : List Nat, (∀ l ∈ lt, l ≤ maxCodeLength) →
    (sortedSymbols lt).Pairwise (CanonBefore lt) ∧
    (∀ s, s ∈ sortedSymbols lt ↔ s < lt.length ∧ 1 ≤ lt.getD s 0) ∧
    (∀ s, s < lt.length → 1 ≤ lt.getD s 0 →
      (sortedSymbols lt)[rankBase lt (lt.getD s 0) + rankOf lt s]? = some s) ∧
    sortForm lt (sortedSymbols lt) = (sortedSymbols lt).map (fun s => (s, canonCode lt s)) ∧
    numlTable lt = 0 :: (List.range' 1 maxCodeLength).map fun l => lt.count l

/-- R120: no codeword of a valid context is a prefix of another symbol's. -/
def Obligations.CodewordsArePrefixFree : Prop :=
  ∀ (p : Params) (c : Context) (s t : Nat), c.Wf p → c.Coded s → c.Coded t → s ≠ t →
    ¬ List.IsPrefix (c.codeword s) (c.codeword t)

/-! ## BUILD -/

/-- R103, R104: the queue of leaves holds exactly the leaves, in priority order, and insertion keeps that order, so that
the pair extracted is always the least. -/
def Obligations.QueueIsInPriorityOrder : Prop :=
  (∀ ws : List Nat,
    (leafQueue ws).Pairwise (fun a b => a.1 < b.1 ∨ a.1 = b.1 ∧ a.2 < b.2) ∧
    ∀ w s, (w, s) ∈ leafQueue ws ↔ s < ws.length ∧ 0 < w ∧ ws.getD s 0 = w ∨ w = 0 ∧ s = ws.length) ∧
  ∀ (e : Nat × Nat) (q : List (Nat × Nat)), e ∉ q → q.Pairwise (fun a b => a.1 < b.1 ∨ a.1 = b.1 ∧ a.2 < b.2) →
    (queueInsert e q).Pairwise (fun a b => a.1 < b.1 ∨ a.1 = b.1 ∧ a.2 < b.2) ∧ (queueInsert e q).Perm (e :: q)

/-- R103 to R106: with k leaves there are exactly k - 1 merges, which create internal nodes N+1, ..., N+k-1. Each merge takes
the two least pairs of the queue, in the order of R104, as child0 and child1, and the pair it inserts has the sum of their
weights. -/
def Obligations.TreeHasOneMergePerLeafButOne : Prop :=
  ∀ (ws : List Nat) (k : Nat), k = 1 + ws.countP (fun w => decide (0 < w)) →
    (buildTree ws).reverse.map Internal.index = List.range' (ws.length + 1) (k - 1) ∧
    ∃ weight : Nat → Nat, (∀ s, s < ws.length → weight s = ws.getD s 0) ∧ weight ws.length = 0 ∧
      ∀ n ∈ buildTree ws,
        weight n.index = weight n.child0 + weight n.child1 ∧
        n.child0 ≠ n.child1 ∧ LiveBefore ws n.index n.child0 ∧ LiveBefore ws n.index n.child1 ∧
        (weight n.child0 < weight n.child1 ∨ weight n.child0 = weight n.child1 ∧ n.child0 < n.child1) ∧
        ∀ m, LiveBefore ws n.index m → m ≠ n.child0 → m ≠ n.child1 →
          weight n.child1 < weight m ∨ weight n.child1 = weight m ∧ n.child1 < m

/-- R107: the walker gives the root depth 0 and both children of every internal node its depth plus one. -/
def Obligations.DepthsFollowTheTree : Prop :=
  ∀ (ws : List Nat) (depth : List Nat),
    depth = walkDepths (buildTree ws) (List.replicate (ws.length + 1 + (buildTree ws).length) 0) →
    (∀ n ∈ buildTree ws, depth.getD n.child0 0 = depth.getD n.index 0 + 1 ∧
      depth.getD n.child1 0 = depth.getD n.index 0 + 1) ∧
    ∀ n, (buildTree ws).head? = some n → depth.getD n.index 0 = 0

/-- R111 (a), (b): there is a length for each symbol and for EOF, EOF is coded, and the length of another symbol is 0
exactly when its weight is 0. -/
def Obligations.BuildCodesExactlyTheWeighted : Prop :=
  ∀ ws : List Nat, (codeLengths ws).length = ws.length + 1 ∧
    ∀ s, s ≤ ws.length → ((codeLengths ws).getD s 0 = 0 ↔ s < ws.length ∧ ws.getD s 0 = 0)

/-- R111 (c): with two leaves or more the Kraft sum is exactly 1, here in units of 2^-m for any m that bounds the
lengths. -/
def Obligations.BuildTreeIsComplete : Prop :=
  ∀ (ws : List Nat) (m : Nat), (∃ w ∈ ws, 0 < w) → (∀ l ∈ codeLengths ws, l ≤ m) →
    ((codeLengths ws).map fun l => if l = 0 then 0 else 2 ^ (m - l)).sum = 2 ^ m

/-- R108 and R101's corner case: without a positive weight EOF alone is coded, with length 1; with exactly one, that
symbol and EOF have length 1. -/
def Obligations.DegenerateTrees : Prop :=
  (∀ ws : List Nat, (∀ w ∈ ws, w = 0) → codeLengths ws = List.replicate ws.length 0 ++ [1]) ∧
  ∀ (m n w : Nat), 0 < w →
    codeLengths (List.replicate m 0 ++ w :: List.replicate n 0) =
      List.replicate m 0 ++ 1 :: (List.replicate n 0 ++ [1])

/-- R102, R109: BUILD's two errors. Each invalidates the context, with RESULT 0, and touches nothing else; RANGE does not
depend on W. -/
def Obligations.BuildErrors : Prop :=
  ∀ (s : State) (ws : List Word) (e : ErrCode), s.phase = .idle →
    s.params.nMax < s.csr.alpha.toNat ∧ e = .range ∨
      s.csr.alpha.toNat ≤ s.params.nMax ∧ ws.length = s.csr.alpha.toNat ∧ HoldsAt s.weights 0 ws ∧
        (∃ l ∈ codeLengths (ws.map BitVec.toNat), maxCodeLength < l) ∧ e = .lengthOverflow →
    ∃ t, exec .build s = .next t ∧ Accepted .build t ∧ t.flags.err = e ∧ t.flags.ovr = s.flags.ovr ∧
      Invalidated t ∧ t.csr.result = 0 ∧ SameOperands s t ∧ SameRams s t ∧ SameStreams s t ∧ SameOutside s t

/-- R101, U1: BUILD over an entry never written since reset is a fault, which names such an entry. -/
def Obligations.BuildOverNeverWrittenFaults : Prop :=
  ∀ (s : State) (i : Nat), s.phase = .idle → s.csr.alpha.toNat ≤ s.params.nMax → i < s.csr.alpha.toNat →
    Memory.read? s.weights i = none →
    ∃ j, j ≤ i ∧ exec .build s = .fault (.neverWrittenWeight j) ∧ Memory.read? s.weights j = none

/-- R110 (with R59): BUILD commits the code lengths of its weights and a context that is right for them. -/
def Obligations.BuildCommitsContext : Prop :=
  ∀ (s : State) (ws : List Word), s.phase = .idle → Legal s.params → s.csr.alpha.toNat ≤ s.params.nMax →
    ws.length = s.csr.alpha.toNat → HoldsAt s.weights 0 ws →
    (∀ l ∈ codeLengths (ws.map BitVec.toNat), l ≤ maxCodeLength) →
    ∃ t, exec .build s = .next t ∧ Accepted .build t ∧ t.flags.err = .ok ∧ t.flags.ovr = s.flags.ovr ∧
      t.ctx.valid = true ∧ t.ctx.Wf t.params ∧ t.ctx.nsym.toNat = s.csr.alpha.toNat + 1 ∧
      t.ctx.lengths = codeLengths (ws.map BitVec.toNat) ∧
      t.ctx.ncoded.toNat = 1 + ws.countP (fun w => decide (w ≠ 0)) ∧ t.csr.result = t.ctx.ncoded ∧
      SameOperands s t ∧ SameRams s t ∧ SameStreams s t ∧ SameOutside s t

/-! ## The codebook codec -/

/-- R123 (with R96): SERIALIZE writes the count and every length into CB from index 0 and nothing else there, and reports
the byte count. -/
def Obligations.SerializeWritesCodebook : Prop :=
  ∀ (s : State) (out : List Byte), s.phase = .idle → s.ctx.valid = true →
    out = uvarintEnc s.ctx.nsym.toNat ++
      (List.range s.ctx.nsym.toNat).flatMap (fun i => svarintEnc ((s.ctx.lenAt i).toNat : Int)) →
    (∀ i, i < s.ctx.nsym.toNat → (s.ctx.lenAt i).toNat ≤ maxCodeLength) →
    out.length = uvlen s.ctx.nsym.toNat + s.ctx.nsym.toNat ∧
    ∃ t, exec .serialize s = .next t ∧ Accepted .serialize t ∧ t.flags.err = .ok ∧ t.flags.ovr = s.flags.ovr ∧
      HoldsAt t.cb 0 out ∧ (∀ a, out.length ≤ a → Memory.read? t.cb a = Memory.read? s.cb a) ∧
      (∀ a, Memory.read? t.weights a = Memory.read? s.weights a) ∧
      t.csr = { s.csr with cblen := BitVec.ofNat 32 out.length, result := BitVec.ofNat 32 out.length } ∧
      t.ctx = s.ctx ∧ SameStreams s t ∧ SameOutside s t

/-- R126, R128: the two checks that come before any length. CBLEN above the buffer capacity is RANGE, before any byte is
read; a count of 0 or above min(DLIM, N_MAX + 1) is INVALID_CODEBOOK, whatever the bytes after it are. -/
def Obligations.DeserializeBoundsComeFirst : Prop :=
  ∀ (s : State) (e : ErrCode), s.phase = .idle →
    (s.params.cbBytes < s.csr.cblen.toNat ∧ e = .range ∨
      s.csr.cblen.toNat ≤ s.params.cbBytes ∧ e = .invalidCodebook ∧
        ∃ (count : List Byte) (n : Nat), IsUvarint count n ∧ HoldsAt s.cb 0 count ∧ count.length ≤ s.csr.cblen.toNat ∧
          (n = 0 ∨ min s.csr.dlim.toNat (s.params.nMax + 1) < n)) →
    ∃ t, exec .deserialize s = .next t ∧ Accepted .deserialize t ∧ t.flags.err = e ∧
      t.flags.ovr = s.flags.ovr ∧ Invalidated t ∧ t.csr.result = 0 ∧
      SameOperands s t ∧ SameRams s t ∧ SameStreams s t ∧ SameOutside s t

/-- What a valid codebook's lengths are (R128 to R131), under a bound on the count. -/
def ValidLengths (bound : Nat) (vs : List Int) : Prop :=
  1 ≤ vs.length ∧ vs.length ≤ bound ∧ (∀ v ∈ vs, 0 ≤ v ∧ v ≤ 32) ∧ vs.getLast? ≠ some 0 ∧
    kraft (vs.map Int.toNat) ≤ 2 ^ maxCodeLength

/-- R129 to R133: of the codebooks that parse, each varint minimal or not, DESERIALIZE accepts exactly those whose count is
in bounds, whose lengths are in 0..32, whose EOF is coded and whose Kraft sum is at most 1. It reads no byte after the last
length. -/
def Obligations.DeserializeAcceptsExactlyValidCodebooks : Prop :=
  ∀ (s : State) (count : List Byte) (encs : List (List Byte)) (vs : List Int), s.phase = .idle → Legal s.params →
    s.csr.cblen.toNat ≤ s.params.cbBytes → IsUvarint count vs.length → AreSvarints encs vs →
    HoldsAt s.cb 0 (count ++ encs.flatten) → (count ++ encs.flatten).length ≤ s.csr.cblen.toNat →
    ∃ t, exec .deserialize s = .next t ∧ Accepted .deserialize t ∧ t.flags.ovr = s.flags.ovr ∧
      SameOperands s t ∧ SameRams s t ∧ SameStreams s t ∧ SameOutside s t ∧
      (ValidLengths (min s.csr.dlim.toNat (s.params.nMax + 1)) vs →
        t.flags.err = .ok ∧ t.csr.result.toNat = (count ++ encs.flatten).length ∧ t.ctx.valid = true ∧
        t.ctx.lengths = vs.map Int.toNat ∧ t.ctx.Wf t.params) ∧
      (¬ ValidLengths (min s.csr.dlim.toNat (s.params.nMax + 1)) vs →
        t.flags.err = .invalidCodebook ∧ t.csr.result = 0 ∧ Invalidated t)

/-- R127: a varint that ends past CBLEN, or that is too long or too large for 64 bits, is INVALID_CODEBOOK, be it the count
or a length after some that parse. -/
def Obligations.DeserializeRejectsUnparsable : Prop :=
  ∀ (s : State) (count tail : List Byte) (encs : List (List Byte)) (vs : List Int) (n : Nat), s.phase = .idle →
    s.csr.cblen.toNat ≤ s.params.cbBytes →
    count = [] ∧ encs = [] ∨ IsUvarint count n ∧ encs.length < n ∧ AreSvarints encs vs →
    HoldsAt s.cb 0 (count ++ encs.flatten ++ tail) →
    (count ++ encs.flatten ++ tail).length = s.csr.cblen.toNat ∧ (∀ b ∈ tail, 0x80 ≤ b.toNat) ∨
      (count ++ encs.flatten ++ tail).length ≤ s.csr.cblen.toNat ∧ tail.length = 10 ∧
        (∀ b ∈ tail.dropLast, 0x80 ≤ b.toNat) ∧ (∀ b ∈ tail.getLast?, 2 ≤ b.toNat) →
    ∃ t, exec .deserialize s = .next t ∧ Accepted .deserialize t ∧ t.flags.err = .invalidCodebook ∧
      t.csr.result = 0 ∧ Invalidated t ∧ SameOperands s t ∧ SameRams s t ∧ SameStreams s t ∧ SameOutside s t

/-- R125, R183: when every byte below CBLEN was written DESERIALIZE ends, with a valid context or with INVALID_CODEBOOK. When
the parse reaches a byte below CBLEN that was never written, in the count or in a length after some that are accepted, it
faults at that byte, and it faults at no other. -/
def Obligations.DeserializeEndsOrFaults : Prop :=
  ∀ s : State, s.phase = .idle → s.csr.cblen.toNat ≤ s.params.cbBytes →
    ((∀ i, i < s.csr.cblen.toNat → Memory.read? s.cb i ≠ none) →
      ∃ t, exec .deserialize s = .next t ∧ Accepted .deserialize t ∧
        (t.flags.err = .ok ∧ t.ctx.valid = true ∨ t.flags.err = .invalidCodebook ∧ Invalidated t)) ∧
    (∀ (count tail : List Byte) (encs : List (List Byte)) (vs : List Int) (n i : Nat),
      count = [] ∧ encs = [] ∨
        IsUvarint count n ∧ n ≤ min s.csr.dlim.toNat (s.params.nMax + 1) ∧ encs.length < n ∧ AreSvarints encs vs ∧
          (∀ v ∈ vs, 0 ≤ v ∧ v ≤ 32) →
      tail.length < 10 → (∀ b ∈ tail, 0x80 ≤ b.toNat) → HoldsAt s.cb 0 (count ++ encs.flatten ++ tail) →
      i = (count ++ encs.flatten ++ tail).length → i < s.csr.cblen.toNat → Memory.read? s.cb i = none →
      exec .deserialize s = .fault (.neverWrittenByte i)) ∧
    ∀ i, exec .deserialize s = .fault (.neverWrittenByte i) →
      i < s.csr.cblen.toNat ∧ Memory.read? s.cb i = none

/-- R167, R170: a BUILD or DESERIALIZE that ends with an error leaves no valid context, whatever there was before it. -/
def Obligations.FailingRebuildInvalidates : Prop :=
  ∀ (s t : State) (i : Instr), i ∈ [Instr.build, .deserialize] → s.phase = .idle → exec i s = .next t →
    t.flags.err ≠ .ok →
    Invalidated t ∧ t.csr.result = 0 ∧ SameOperands s t ∧ SameRams s t ∧ SameStreams s t ∧ SameOutside s t

/-- R134: SERIALIZE, then DESERIALIZE of those bytes on any instance with the same parameters and DLIM >= NSYM, gives
back the context, and both report the same byte count. (CBLEN can hold that count: with N_MAX within 6 of 2^32 it might
not, A7.) -/
def Obligations.SerializeDeserializeRoundTrip : Prop :=
  ∀ s : State, s.Inv → s.phase = .idle → s.ctx.valid = true → s.ctx.nsym.toNat + 5 < 2 ^ 32 →
    ∃ t, exec .serialize s = .next t ∧
      ∀ u : State, u.phase = .idle → u.params = s.params → s.ctx.nsym.toNat ≤ u.csr.dlim.toNat →
        u.csr.cblen = t.csr.cblen →
        (∀ i, i < t.csr.cblen.toNat → Memory.read? u.cb i = Memory.read? t.cb i) →
        ∃ v, exec .deserialize u = .next v ∧ v.flags.err = .ok ∧ v.csr.result = t.csr.result ∧ s.ctx.Same v.ctx

/-! ## The encoder -/

/-- R136 (with R135): SYMLEN's results. -/
def Obligations.SymlenReportsLength : Prop :=
  ∀ (s : State) (id : Nat), s.phase = .idle →
    id = (if s.csr.sym = 0xFFFFFFFF then s.ctx.nsym.toNat - 1 else s.csr.sym.toNat) →
    ∃ t, exec .symlen s = .next t ∧ Accepted .symlen t ∧ t.flags.ovr = s.flags.ovr ∧
      (s.ctx.valid = false → t.flags.err = .noCodebook ∧ t.csr.result = 0) ∧
      (s.ctx.valid = true → t.flags.err = .ok ∧
        (id < s.ctx.nsym.toNat → t.csr.result = (s.ctx.lenAt id).zeroExtend 32) ∧
        (s.ctx.nsym.toNat ≤ id → t.csr.result = 0)) ∧
      t.ctx = s.ctx ∧ SameOperands s t ∧ SameRams s t ∧ SameStreams s t ∧ SameOutside s t

/-- R138, R140, R141 (with R135): ENCODE of a coded symbol makes one transfer of its code and length; of any other symbol it
ends with UNKNOWN_SYMBOL, and without a codebook with NO_CODEBOOK, and makes none. -/
def Obligations.EncodeWritesCodeword : Prop :=
  ∀ (s : State) (id : Nat), s.phase = .idle →
    id = (if s.csr.sym = 0xFFFFFFFF then s.ctx.nsym.toNat - 1 else s.csr.sym.toNat) →
    ∃ t, exec .encode s = .next t ∧ Accepted .encode t ∧ t.flags.ovr = s.flags.ovr ∧
      (s.ctx.valid = true ∧ s.ctx.Coded id → t.flags.err = .ok ∧ t.csr.result = (s.ctx.lenAt id).zeroExtend 32 ∧
        t.writer = s.writer ++ [⟨s.ctx.codeAt id, (s.ctx.lenAt id).toNat⟩]) ∧
      (s.ctx.valid = true ∧ ¬ s.ctx.Coded id →
        t.flags.err = .unknownSymbol ∧ t.csr.result = 0 ∧ t.writer = s.writer) ∧
      (s.ctx.valid = false → t.flags.err = .noCodebook ∧ t.csr.result = 0 ∧ t.writer = s.writer) ∧
      t.ctx = s.ctx ∧ t.reader = s.reader ∧ SameOperands s t ∧ SameRams s t ∧ SameOutside s t

/-- R139 (with R23, R56, R135): every transfer the core makes has 1 to 32 bits and no bit of the value above them, and is the
codeword of the symbol that SYM names, EOF by its id or by the sentinel. -/
def Obligations.TransferFitsItsLength : Prop :=
  ∀ s : State, s.Inv → s.phase = .idle → s.ctx.valid = true → s.ctx.Coded (s.ctx.idOf s.csr.sym) →
    ∃ t x, exec .encode s = .next t ∧ t.writer = s.writer ++ [x] ∧ x.bits = s.ctx.codeword (s.ctx.idOf s.csr.sym) ∧
      1 ≤ x.nbits ∧ x.nbits ≤ 32 ∧ x.value.toNat < 2 ^ x.nbits

/-! ## The decoder -/

/-- R147, R149, R150, R151, R167: one DECODE asks for at most MAXLEN answers and ends in one of three ways; SYM changes
only on success, and the answers taken are gone. -/
def Obligations.DecodeEndsInThreeWays : Prop :=
  ∀ s : State, s.phase = .idle → s.ctx.valid = true →
    ∃ t taken, exec .decode s = .next t ∧ Accepted .decode t ∧ t.flags.ovr = s.flags.ovr ∧
      s.reader = taken ++ t.reader ∧ taken.length ≤ s.ctx.maxlen.toNat ∧
      (t.flags.err = .ok ∧ 1 ≤ t.csr.result.toNat ∧ t.csr.result.toNat = taken.length ∧ .eos ∉ taken ∨
        t.flags.err = .endOfStream ∧ t.csr.sym = s.csr.sym ∧ t.csr.result.toNat < s.ctx.maxlen.toNat ∧
          (∃ bits, bits.length = t.csr.result.toNat ∧
            (taken = bitAnswers bits ++ [.eos] ∨ taken = bitAnswers bits ∧ t.reader = [])) ∨
        t.flags.err = .unknownSymbol ∧ t.csr.sym = s.csr.sym ∧ t.csr.result.toNat = s.ctx.maxlen.toNat ∧
          taken.length = s.ctx.maxlen.toNat ∧ .eos ∉ taken) ∧
      t.csr = { s.csr with sym := t.csr.sym, result := t.csr.result } ∧
      t.ctx = s.ctx ∧ t.writer = s.writer ∧ SameRams s t ∧ SameOutside s t

/-- R154 (with R144, R148): when the reader hands out the codeword of a coded symbol, DECODE returns that symbol after
exactly its bits. -/
def Obligations.DecodeReturnsTheCodewordsSymbol : Prop :=
  ∀ (s : State) (id : Nat) (rest : List Answer), s.phase = .idle → s.ctx.valid = true → s.ctx.Wf s.params →
    s.ctx.Coded id → s.reader = bitAnswers (s.ctx.codeword id) ++ rest →
    ∃ t, exec .decode s = .next t ∧ Accepted .decode t ∧ t.flags.err = .ok ∧ t.flags.ovr = s.flags.ovr ∧
      t.csr = { s.csr with sym := s.ctx.symOut id, result := (s.ctx.lenAt id).zeroExtend 32 } ∧
      t.reader = rest ∧ t.ctx = s.ctx ∧ t.writer = s.writer ∧ SameRams s t ∧ SameOutside s t

/-- R149: when the reader has no more bits before a codeword is read whole, DECODE ends with END_OF_STREAM and reports the
bits consumed; SYM keeps its value, and no request is made after the EOS. -/
def Obligations.DecodeReportsEndOfStream : Prop :=
  ∀ (s : State) (bits : List Bool) (rest : List Answer), s.phase = .idle → s.ctx.valid = true → s.ctx.Wf s.params →
    bits.length < s.ctx.maxlen.toNat → (∀ id, s.ctx.Coded id → ¬ List.IsPrefix (s.ctx.codeword id) bits) →
    s.reader = bitAnswers bits ++ .eos :: rest ∨ s.reader = bitAnswers bits ∧ rest = [] →
    ∃ t, exec .decode s = .next t ∧ Accepted .decode t ∧ t.flags.err = .endOfStream ∧ t.flags.ovr = s.flags.ovr ∧
      t.csr = { s.csr with result := BitVec.ofNat 32 bits.length } ∧ t.reader = rest ∧ t.ctx = s.ctx ∧
      t.writer = s.writer ∧ SameRams s t ∧ SameOutside s t

/-- R150: MAXLEN bits that have no codeword as a prefix end DECODE with UNKNOWN_SYMBOL and RESULT = MAXLEN, which happens
only when the context's code is incomplete. -/
def Obligations.NoMatchOnlyInIncompleteCodes : Prop :=
  ∀ s : State, s.phase = .idle → s.ctx.valid = true → s.ctx.Wf s.params →
    (∀ (bits : List Bool) (rest : List Answer), bits.length = s.ctx.maxlen.toNat →
      s.reader = bitAnswers bits ++ rest → (∀ id, s.ctx.Coded id → ¬ List.IsPrefix (s.ctx.codeword id) bits) →
      ∃ t, exec .decode s = .next t ∧ Accepted .decode t ∧ t.flags.err = .unknownSymbol ∧ t.flags.ovr = s.flags.ovr ∧
        t.csr = { s.csr with result := s.ctx.maxlen.zeroExtend 32 } ∧ t.reader = rest ∧ t.ctx = s.ctx ∧
        t.writer = s.writer ∧ SameRams s t ∧ SameOutside s t) ∧
    ∃ t, exec .decode s = .next t ∧
      (t.flags.err = .unknownSymbol → t.csr.result = s.ctx.maxlen.zeroExtend 32 ∧
        kraft s.ctx.lengths < 2 ^ maxCodeLength)

/-- R143, R153: a sequence of coded symbols, EOF by its id or by the sentinel, is written as the concatenation of their
codewords and nothing else, and another instance with an equal context decodes it, symbol by symbol and to the last one, each
DECODE ending OK, without reading a bit after it. Both hosts wait for each command's end by polling STATUS (R100), however
long its window is (R185, A2). -/
def Obligations.EncodeDecodeRoundTrip : Prop :=
  ∀ (s : State) (vs : List Word), s.Inv → s.phase = .idle → s.ctx.valid = true →
    (∀ v ∈ vs, s.ctx.Coded (s.ctx.idOf v)) →
    ∃ t, Encodes vs s t ∧
      t.writer.flatMap Transfer.bits =
        s.writer.flatMap Transfer.bits ++ vs.flatMap (fun v => s.ctx.codeword (s.ctx.idOf v)) ∧
      t.ctx = s.ctx ∧ t.reader = s.reader ∧ SameRams s t ∧ t.params = s.params ∧ t.pending = s.pending ∧
      ∀ (u : State) (pad : List Answer), u.Inv → u.phase = .idle → s.ctx.Same u.ctx → s.writer = [] →
        u.reader = bitAnswers (t.writer.flatMap Transfer.bits) ++ pad →
        ∃ w, Decodes (vs.map fun v => (s.ctx.symOut (s.ctx.idOf v), (s.ctx.lenAt (s.ctx.idOf v)).zeroExtend 32)) u w ∧
          w.ctx = u.ctx ∧ w.reader = pad ∧ w.writer = u.writer ∧ SameRams u w

/-! ## Rules of the whole machine -/

/-- The step takes a whole-word write to CMD of one of these operations' command words. -/
def TakesCommand (s : State) (ops : List Op) : Prop :=
  ∃ (w : TransactionWord) (rest : List HostEvent) (op : Op), s.pending = .transaction 0xF w :: rest ∧ op ∈ ops ∧
    w.toNat = 0x104 * 2 ^ 32 + op.code.toNat

/-- The step takes a whole-word write to this offset. -/
def TakesWrite (s : State) (a : Offset) : Prop :=
  ∃ (w : TransactionWord) (rest : List HostEvent) (d : Word), s.pending = .transaction 0xF w :: rest ∧
    decode (.transaction w) = .ok (.hwr a d)

/-- The step takes a reset. -/
def TakesReset (s : State) : Prop := ∃ lost rest, s.pending = .reset lost :: rest

/-- R54, R60: only BUILD, DESERIALIZE, CLEAR and reset change the context, and only BUILD and DESERIALIZE make it valid. -/
def Obligations.ContextChangesOnlyByRebuild : Prop :=
  ∀ s t : State, step s = .next t →
    (t.ctx ≠ s.ctx → TakesReset s ∨ TakesCommand s [.build, .deserialize, .clear]) ∧
    (s.ctx.valid = false → t.ctx.valid = true → TakesCommand s [.build, .deserialize])

/-- R139, R155, R23, R24: ENCODE is the only command that drives the bit-writer port and DECODE the only one that drives
the bit-reader port. (A reset may cut short what a command in its window did there, R181.) -/
def Obligations.StreamsDrivenOnlyByTheirCommands : Prop :=
  ∀ s t : State, step s = .next t →
    (t.writer ≠ s.writer → TakesReset s ∨ TakesCommand s [.encode]) ∧
    (t.reader ≠ s.reader → TakesReset s ∨ TakesCommand s [.decode])

/-- R52, R53, R32: W changes only by a host write to WDATA, at WIDX; CB only by a host write to CBDATA, at CBIDX, or by
SERIALIZE; and OVR goes from 1 to 0 only by CLEAR. Reset is the exception of each. -/
def Obligations.RamsAndOverrunChangeOnlyByTheirWriters : Prop :=
  ∀ s t : State, step s = .next t →
    (∀ a, Memory.read? t.weights a ≠ Memory.read? s.weights a →
      TakesReset s ∨ TakesWrite s 0x14 ∧ a = s.csr.widx.toNat) ∧
    (∀ a, Memory.read? t.cb a ≠ Memory.read? s.cb a →
      TakesReset s ∨ TakesWrite s 0x30 ∧ a = s.csr.cbidx.toNat ∨ TakesCommand s [.serialize]) ∧
    (s.flags.ovr = true → t.flags.ovr = false → TakesReset s ∨ TakesCommand s [.clear])

/-- Every step keeps both RAMs in canonical form, and VALID = 0 with NSYM = MAXLEN = NCODED = 0 (R54). -/
def Obligations.StepKeepsCanonicalForms : Prop :=
  ∀ s t : State, s.RamsCanonical → s.InvalidIsZero → step s = .next t → t.RamsCanonical ∧ t.InvalidIsZero

/-- R59: every step keeps the invariant, so that a valid context is always what R55 to R58 and the Kraft bound say. -/
def Obligations.StepKeepsInvariant : Prop :=
  ∀ s t : State, s.Inv → step s = .next t → t.Inv

/-- The invariant holds right after reset, for every legal choice of the parameters and so for the model's own (A6). -/
def Obligations.ResetHasInvariant : Prop :=
  State.reset.Inv ∧ ∀ p : Params, Legal p → (State.resetOf p).Inv
end

