-- ==== Sys2Proof/Laws/Memory.lean ====
section
/-! SUPPORT. Memory: a read after a write, and the canonical form. -/

namespace Sys2Proof.Machine

variable {w : Nat}

@[simp] theorem Memory.read?_nil (a : Nat) : Memory.read? ([] : Memory w) a = none := rfl

@[simp] theorem Memory.wf_nil : Memory.wf ([] : Memory w) = true := rfl

/-- A read after a write to the same index gives the value written. -/
@[simp] theorem Memory.read?_write_self (m : Memory w) (a : Nat) (v : BitVec w) :
    Memory.read? (Memory.write m a v) a = some v := by
  induction m with
  | nil => simp [Memory.write, Memory.read?]
  | cons e m ih =>
    obtain ⟨k, x⟩ := e
    rw [Memory.write]
    split
    · simp [Memory.read?]
    · split
      · simp [Memory.read?]
      · rename_i h
        simp [Memory.read?, Ne.symm h, ih]

/-- A write leaves every other index alone. -/
theorem Memory.read?_write_ne (m : Memory w) {a b : Nat} (v : BitVec w) (h : b ≠ a) :
    Memory.read? (Memory.write m a v) b = Memory.read? m b := by
  induction m with
  | nil => simp [Memory.write, Memory.read?, Ne.symm h]
  | cons e m ih =>
    obtain ⟨k, x⟩ := e
    rw [Memory.write]
    split
    · simp [Memory.read?, Ne.symm h]
    · split
      · rename_i hk
        subst hk
        simp [Memory.read?, Ne.symm h]
      · simp [Memory.read?, ih]

/-- Where a write to a memory can have put an entry. -/
theorem Memory.mem_write {m : Memory w} {a : Nat} {v : BitVec w} {e : Nat × BitVec w}
    (h : e ∈ Memory.write m a v) : e = (a, v) ∨ e ∈ m := by
  induction m with
  | nil => simpa [Memory.write] using h
  | cons x m ih =>
    obtain ⟨k, y⟩ := x
    rw [Memory.write] at h
    split at h
    · simpa using h
    · split at h
      · rcases List.mem_cons.1 h with h | h
        · exact .inl h
        · exact .inr (List.mem_cons_of_mem _ h)
      · rcases List.mem_cons.1 h with h | h
        · exact .inr (h ▸ List.mem_cons_self ..)
        · rcases ih h with h | h
          · exact .inl h
          · exact .inr (List.mem_cons_of_mem _ h)

theorem Memory.wf_cons {k : Nat} {x : BitVec w} {m : Memory w} :
    Memory.wf ((k, x) :: m) = true ↔ (∀ e ∈ m, k < e.1) ∧ Memory.wf m = true := by
  simp [Memory.wf]

/-- A write keeps the canonical form. -/
theorem Memory.wf_write {m : Memory w} (a : Nat) (v : BitVec w) (h : Memory.wf m = true) :
    Memory.wf (Memory.write m a v) = true := by
  induction m with
  | nil => simp [Memory.write, Memory.wf]
  | cons x m ih =>
    obtain ⟨k, y⟩ := x
    obtain ⟨hk, hm⟩ := Memory.wf_cons.1 h
    rw [Memory.write]
    split
    · rename_i hak
      refine Memory.wf_cons.2 ⟨fun e he => ?_, h⟩
      rcases List.mem_cons.1 he with rfl | he
      · exact hak
      · exact hak.trans (hk e he)
    · split
      · rename_i hak
        subst hak
        exact Memory.wf_cons.2 ⟨hk, hm⟩
      · refine Memory.wf_cons.2 ⟨fun e he => ?_, ih hm⟩
        rcases Memory.mem_write he with rfl | he
        · show k < a
          omega
        · exact hk e he

theorem Memory.wf_writeAll {m : Memory w} (a : Nat) (vs : List (BitVec w)) (h : Memory.wf m = true) :
    Memory.wf (Memory.writeAll m a vs) = true := by
  induction vs generalizing m a with
  | nil => exact h
  | cons v vs ih => exact ih (a + 1) (Memory.wf_write a v h)

theorem Memory.mem_writeAll {m : Memory w} {a : Nat} {vs : List (BitVec w)} {e : Nat × BitVec w}
    (h : e ∈ Memory.writeAll m a vs) : e ∈ m ∨ a ≤ e.1 ∧ e.1 < a + vs.length := by
  induction vs generalizing m a with
  | nil => exact .inl h
  | cons v vs ih =>
    rcases ih h with h | ⟨h1, h2⟩
    · rcases Memory.mem_write h with rfl | h
      · exact .inr ⟨Nat.le_refl _, by simp⟩
      · exact .inl h
    · exact .inr ⟨by omega, by simp; omega⟩

/-- Writing consecutive entries leaves the indices outside them alone. -/
theorem Memory.read?_writeAll_out (m : Memory w) (a : Nat) (vs : List (BitVec w)) {b : Nat}
    (h : b < a ∨ a + vs.length ≤ b) : Memory.read? (Memory.writeAll m a vs) b = Memory.read? m b := by
  induction vs generalizing m a with
  | nil => rfl
  | cons v vs ih =>
    rw [List.length_cons] at h
    rw [Memory.writeAll, ih _ _ (by omega), Memory.read?_write_ne _ _ (by omega)]

/-- Consecutive entries read as they were written. -/
theorem Memory.read?_writeAll_in (m : Memory w) (a : Nat) (vs : List (BitVec w)) (i : Nat) (h : i < vs.length) :
    Memory.read? (Memory.writeAll m a vs) (a + i) = some vs[i] := by
  induction vs generalizing m a i with
  | nil => simp at h
  | cons v vs ih =>
    rw [Memory.writeAll]
    cases i with
    | zero => rw [Memory.read?_writeAll_out _ _ _ (by omega)]; simp
    | succ i =>
      have := ih (Memory.write m a v) (a + 1) i (by simpa using h)
      rw [show a + (i + 1) = a + 1 + i by omega, this]
      simp

theorem Memory.wf_iff_pairwise (m : Memory w) : Memory.wf m = true ↔ m.Pairwise (fun a b => a.1 < b.1) := by
  induction m with
  | nil => simp
  | cons e m ih =>
    obtain ⟨k, x⟩ := e
    rw [Memory.wf_cons, List.pairwise_cons, ih]

/-- The CODE table that CANON commits is in canonical form. -/
theorem codeTable_wf (lt : List Nat) : Memory.wf (codeTable lt) = true := by
  rw [Memory.wf_iff_pairwise, codeTable, List.pairwise_filterMap]
  refine List.pairwise_lt_range.imp fun {a b} hab x hx y hy => ?_
  split at hx <;> split at hy <;> simp at hx hy
  subst hx hy
  exact hab

/-- Every memory of the state after reset is in canonical form. -/
theorem resetOf_wf (p : Params) :
    (State.resetOf p).RamsCanonical ∧ Memory.wf (State.resetOf p).ctx.code = true := ⟨⟨rfl, rfl⟩, rfl⟩

end Sys2Proof.Machine
end

