-- ==== Sys2Proof/Laws/State.lean ====
section
/-! SUPPORT. One lemma for each field of State and each update of it, and the small lemmas of STATUS's updates. -/

namespace Sys2Proof.Machine

/-! `bitWrite` -/
@[simp] theorem State.bitWrite_params (s : State) (v : Word) (n : Nat) : (s.bitWrite v n).params = s.params := rfl
@[simp] theorem State.bitWrite_pending (s : State) (v : Word) (n : Nat) : (s.bitWrite v n).pending = s.pending := rfl
@[simp] theorem State.bitWrite_phase (s : State) (v : Word) (n : Nat) : (s.bitWrite v n).phase = s.phase := rfl
@[simp] theorem State.bitWrite_flags (s : State) (v : Word) (n : Nat) : (s.bitWrite v n).flags = s.flags := rfl
@[simp] theorem State.bitWrite_csr (s : State) (v : Word) (n : Nat) : (s.bitWrite v n).csr = s.csr := rfl
@[simp] theorem State.bitWrite_ctx (s : State) (v : Word) (n : Nat) : (s.bitWrite v n).ctx = s.ctx := rfl
@[simp] theorem State.bitWrite_weights (s : State) (v : Word) (n : Nat) : (s.bitWrite v n).weights = s.weights := rfl
@[simp] theorem State.bitWrite_cb (s : State) (v : Word) (n : Nat) : (s.bitWrite v n).cb = s.cb := rfl
@[simp] theorem State.bitWrite_writer (s : State) (v : Word) (n : Nat) : (s.bitWrite v n).writer = s.writer ++ [⟨v, n⟩] := rfl
@[simp] theorem State.bitWrite_reader (s : State) (v : Word) (n : Nat) : (s.bitWrite v n).reader = s.reader := rfl
@[simp] theorem State.bitWrite_answers (s : State) (v : Word) (n : Nat) : (s.bitWrite v n).answers = s.answers := rfl
@[simp] theorem State.bitWrite_windows (s : State) (v : Word) (n : Nat) : (s.bitWrite v n).windows = s.windows := rfl
@[simp] theorem State.bitWrite_free (s : State) (v : Word) (n : Nat) : (s.bitWrite v n).free = s.free := rfl
@[simp] theorem State.bitWrite_epoch (s : State) (v : Word) (n : Nat) : (s.bitWrite v n).epoch = s.epoch := rfl

/-! `answerHost` -/
@[simp] theorem State.answerHost_params (s : State) (v : Word) : (s.answerHost v).params = s.params := rfl
@[simp] theorem State.answerHost_pending (s : State) (v : Word) : (s.answerHost v).pending = s.pending := rfl
@[simp] theorem State.answerHost_phase (s : State) (v : Word) : (s.answerHost v).phase = s.phase := rfl
@[simp] theorem State.answerHost_flags (s : State) (v : Word) : (s.answerHost v).flags = s.flags := rfl
@[simp] theorem State.answerHost_csr (s : State) (v : Word) : (s.answerHost v).csr = s.csr := rfl
@[simp] theorem State.answerHost_ctx (s : State) (v : Word) : (s.answerHost v).ctx = s.ctx := rfl
@[simp] theorem State.answerHost_weights (s : State) (v : Word) : (s.answerHost v).weights = s.weights := rfl
@[simp] theorem State.answerHost_cb (s : State) (v : Word) : (s.answerHost v).cb = s.cb := rfl
@[simp] theorem State.answerHost_writer (s : State) (v : Word) : (s.answerHost v).writer = s.writer := rfl
@[simp] theorem State.answerHost_reader (s : State) (v : Word) : (s.answerHost v).reader = s.reader := rfl
@[simp] theorem State.answerHost_answers (s : State) (v : Word) : (s.answerHost v).answers = s.answers ++ [v] := rfl
@[simp] theorem State.answerHost_windows (s : State) (v : Word) : (s.answerHost v).windows = s.windows := rfl
@[simp] theorem State.answerHost_free (s : State) (v : Word) : (s.answerHost v).free = s.free := rfl
@[simp] theorem State.answerHost_epoch (s : State) (v : Word) : (s.answerHost v).epoch = s.epoch := rfl

/-! `endCommand` -/
@[simp] theorem State.endCommand_params (s : State) (op : Op) (e : ErrCode) (r : Nat) (p : PortUse) : (s.endCommand op e r p).params = s.params := rfl
@[simp] theorem State.endCommand_pending (s : State) (op : Op) (e : ErrCode) (r : Nat) (p : PortUse) : (s.endCommand op e r p).pending = s.pending := rfl
@[simp] theorem State.endCommand_phase (s : State) (op : Op) (e : ErrCode) (r : Nat) (p : PortUse) : (s.endCommand op e r p).phase = Phase.ofWindow op s.nextWindow p := rfl
@[simp] theorem State.endCommand_flags (s : State) (op : Op) (e : ErrCode) (r : Nat) (p : PortUse) : (s.endCommand op e r p).flags = s.flags.ended e (decide (s.nextWindow = 0)) := rfl
@[simp] theorem State.endCommand_csr (s : State) (op : Op) (e : ErrCode) (r : Nat) (p : PortUse) : (s.endCommand op e r p).csr = { s.csr with result := BitVec.ofNat 32 r } := rfl
@[simp] theorem State.endCommand_ctx (s : State) (op : Op) (e : ErrCode) (r : Nat) (p : PortUse) : (s.endCommand op e r p).ctx = s.ctx := rfl
@[simp] theorem State.endCommand_weights (s : State) (op : Op) (e : ErrCode) (r : Nat) (p : PortUse) : (s.endCommand op e r p).weights = s.weights := rfl
@[simp] theorem State.endCommand_cb (s : State) (op : Op) (e : ErrCode) (r : Nat) (p : PortUse) : (s.endCommand op e r p).cb = s.cb := rfl
@[simp] theorem State.endCommand_writer (s : State) (op : Op) (e : ErrCode) (r : Nat) (p : PortUse) : (s.endCommand op e r p).writer = s.writer := rfl
@[simp] theorem State.endCommand_reader (s : State) (op : Op) (e : ErrCode) (r : Nat) (p : PortUse) : (s.endCommand op e r p).reader = s.reader := rfl
@[simp] theorem State.endCommand_answers (s : State) (op : Op) (e : ErrCode) (r : Nat) (p : PortUse) : (s.endCommand op e r p).answers = s.answers := rfl
@[simp] theorem State.endCommand_windows (s : State) (op : Op) (e : ErrCode) (r : Nat) (p : PortUse) : (s.endCommand op e r p).windows = s.windows.tail := rfl
@[simp] theorem State.endCommand_free (s : State) (op : Op) (e : ErrCode) (r : Nat) (p : PortUse) : (s.endCommand op e r p).free = s.free + 1 := rfl
@[simp] theorem State.endCommand_epoch (s : State) (op : Op) (e : ErrCode) (r : Nat) (p : PortUse) : (s.endCommand op e r p).epoch = s.epoch := rfl

/-! `tick`: only the phase and DONE change -/
@[simp] theorem State.tick_params (s : State) : (s.tick).params = s.params := by unfold State.tick; split <;> rfl
@[simp] theorem State.tick_pending (s : State) : (s.tick).pending = s.pending := by unfold State.tick; split <;> rfl
@[simp] theorem State.tick_csr (s : State) : (s.tick).csr = s.csr := by unfold State.tick; split <;> rfl
@[simp] theorem State.tick_ctx (s : State) : (s.tick).ctx = s.ctx := by unfold State.tick; split <;> rfl
@[simp] theorem State.tick_weights (s : State) : (s.tick).weights = s.weights := by unfold State.tick; split <;> rfl
@[simp] theorem State.tick_cb (s : State) : (s.tick).cb = s.cb := by unfold State.tick; split <;> rfl
@[simp] theorem State.tick_writer (s : State) : (s.tick).writer = s.writer := by unfold State.tick; split <;> rfl
@[simp] theorem State.tick_reader (s : State) : (s.tick).reader = s.reader := by unfold State.tick; split <;> rfl
@[simp] theorem State.tick_answers (s : State) : (s.tick).answers = s.answers := by unfold State.tick; split <;> rfl
@[simp] theorem State.tick_windows (s : State) : (s.tick).windows = s.windows := by unfold State.tick; split <;> rfl
@[simp] theorem State.tick_free (s : State) : (s.tick).free = s.free := by unfold State.tick; split <;> rfl
@[simp] theorem State.tick_epoch (s : State) : (s.tick).epoch = s.epoch := by unfold State.tick; split <;> rfl

/-! `dropWrite`: only the phase, OVR and DONE change -/
@[simp] theorem State.dropWrite_params (s : State) : (s.dropWrite).params = s.params := by simp [State.dropWrite]
@[simp] theorem State.dropWrite_pending (s : State) : (s.dropWrite).pending = s.pending := by simp [State.dropWrite]
@[simp] theorem State.dropWrite_csr (s : State) : (s.dropWrite).csr = s.csr := by simp [State.dropWrite]
@[simp] theorem State.dropWrite_ctx (s : State) : (s.dropWrite).ctx = s.ctx := by simp [State.dropWrite]
@[simp] theorem State.dropWrite_weights (s : State) : (s.dropWrite).weights = s.weights := by simp [State.dropWrite]
@[simp] theorem State.dropWrite_cb (s : State) : (s.dropWrite).cb = s.cb := by simp [State.dropWrite]
@[simp] theorem State.dropWrite_writer (s : State) : (s.dropWrite).writer = s.writer := by simp [State.dropWrite]
@[simp] theorem State.dropWrite_reader (s : State) : (s.dropWrite).reader = s.reader := by simp [State.dropWrite]
@[simp] theorem State.dropWrite_answers (s : State) : (s.dropWrite).answers = s.answers := by simp [State.dropWrite]
@[simp] theorem State.dropWrite_windows (s : State) : (s.dropWrite).windows = s.windows := by simp [State.dropWrite]
@[simp] theorem State.dropWrite_free (s : State) : (s.dropWrite).free = s.free := by simp [State.dropWrite]
@[simp] theorem State.dropWrite_epoch (s : State) : (s.dropWrite).epoch = s.epoch := by simp [State.dropWrite]

/-! `illegalCommand` -/
@[simp] theorem illegalCommand_params (d : Word) (s : State) : (illegalCommand d s).params = s.params := rfl
@[simp] theorem illegalCommand_pending (d : Word) (s : State) : (illegalCommand d s).pending = s.pending := rfl
@[simp] theorem illegalCommand_phase (d : Word) (s : State) : (illegalCommand d s).phase = s.phase := rfl
@[simp] theorem illegalCommand_flags (d : Word) (s : State) : (illegalCommand d s).flags = (s.flags.accept (opField d)).ended .illegalCommand true := rfl
@[simp] theorem illegalCommand_csr (d : Word) (s : State) : (illegalCommand d s).csr = { s.csr with result := 0 } := rfl
@[simp] theorem illegalCommand_ctx (d : Word) (s : State) : (illegalCommand d s).ctx = s.ctx := rfl
@[simp] theorem illegalCommand_weights (d : Word) (s : State) : (illegalCommand d s).weights = s.weights := rfl
@[simp] theorem illegalCommand_cb (d : Word) (s : State) : (illegalCommand d s).cb = s.cb := rfl
@[simp] theorem illegalCommand_writer (d : Word) (s : State) : (illegalCommand d s).writer = s.writer := rfl
@[simp] theorem illegalCommand_reader (d : Word) (s : State) : (illegalCommand d s).reader = s.reader := rfl
@[simp] theorem illegalCommand_answers (d : Word) (s : State) : (illegalCommand d s).answers = s.answers := rfl
@[simp] theorem illegalCommand_windows (d : Word) (s : State) : (illegalCommand d s).windows = s.windows := rfl
@[simp] theorem illegalCommand_free (d : Word) (s : State) : (illegalCommand d s).free = s.free := rfl
@[simp] theorem illegalCommand_epoch (d : Word) (s : State) : (illegalCommand d s).epoch = s.epoch := rfl

/-! `resetEvent` -/
@[simp] theorem State.resetEvent_params (s : State) : (s.resetEvent).params = s.params := rfl
@[simp] theorem State.resetEvent_pending (s : State) : (s.resetEvent).pending = s.pending := rfl
@[simp] theorem State.resetEvent_phase (s : State) : (s.resetEvent).phase = .idle := rfl
@[simp] theorem State.resetEvent_flags (s : State) : (s.resetEvent).flags = Flags.reset := rfl
@[simp] theorem State.resetEvent_csr (s : State) : (s.resetEvent).csr = Csrs.reset s.params := rfl
@[simp] theorem State.resetEvent_ctx (s : State) : (s.resetEvent).ctx = Context.invalid := rfl
@[simp] theorem State.resetEvent_weights (s : State) : (s.resetEvent).weights = [] := rfl
@[simp] theorem State.resetEvent_cb (s : State) : (s.resetEvent).cb = [] := rfl
@[simp] theorem State.resetEvent_writer (s : State) : (s.resetEvent).writer = s.writerAfterReset := rfl
@[simp] theorem State.resetEvent_reader (s : State) : (s.resetEvent).reader = s.readerAfterReset := rfl
@[simp] theorem State.resetEvent_answers (s : State) : (s.resetEvent).answers = s.answers := rfl
@[simp] theorem State.resetEvent_windows (s : State) : (s.resetEvent).windows = s.windows := rfl
@[simp] theorem State.resetEvent_free (s : State) : (s.resetEvent).free = s.free + 1 := rfl
@[simp] theorem State.resetEvent_epoch (s : State) : (s.resetEvent).epoch = s.epoch + 1 := rfl

/-! `withTransaction` -/
@[simp] theorem State.withTransaction_params (s : State) (p : PortWord) : (s.withTransaction p).params = s.params := rfl
@[simp] theorem State.withTransaction_pending (s : State) (p : PortWord) : (s.withTransaction p).pending = .transaction 0xF p.carrier :: s.pending := rfl
@[simp] theorem State.withTransaction_phase (s : State) (p : PortWord) : (s.withTransaction p).phase = s.phase := rfl
@[simp] theorem State.withTransaction_flags (s : State) (p : PortWord) : (s.withTransaction p).flags = s.flags := rfl
@[simp] theorem State.withTransaction_csr (s : State) (p : PortWord) : (s.withTransaction p).csr = s.csr := rfl
@[simp] theorem State.withTransaction_ctx (s : State) (p : PortWord) : (s.withTransaction p).ctx = s.ctx := rfl
@[simp] theorem State.withTransaction_weights (s : State) (p : PortWord) : (s.withTransaction p).weights = s.weights := rfl
@[simp] theorem State.withTransaction_cb (s : State) (p : PortWord) : (s.withTransaction p).cb = s.cb := rfl
@[simp] theorem State.withTransaction_writer (s : State) (p : PortWord) : (s.withTransaction p).writer = s.writer := rfl
@[simp] theorem State.withTransaction_reader (s : State) (p : PortWord) : (s.withTransaction p).reader = s.reader := rfl
@[simp] theorem State.withTransaction_answers (s : State) (p : PortWord) : (s.withTransaction p).answers = s.answers := rfl
@[simp] theorem State.withTransaction_windows (s : State) (p : PortWord) : (s.withTransaction p).windows = s.windows := rfl
@[simp] theorem State.withTransaction_free (s : State) (p : PortWord) : (s.withTransaction p).free = s.free := rfl
@[simp] theorem State.withTransaction_epoch (s : State) (p : PortWord) : (s.withTransaction p).epoch = s.epoch := rfl

/-! STATUS -/

@[simp] theorem Flags.accept_done (f : Flags) (c : BitVec 8) : (f.accept c).done = false := rfl
@[simp] theorem Flags.accept_ovr (f : Flags) (c : BitVec 8) : (f.accept c).ovr = f.ovr := rfl
@[simp] theorem Flags.accept_err (f : Flags) (c : BitVec 8) : (f.accept c).err = f.err := rfl
@[simp] theorem Flags.accept_lastop (f : Flags) (c : BitVec 8) : (f.accept c).lastop = c := rfl
@[simp] theorem Flags.ended_done (f : Flags) (e : ErrCode) (b : Bool) : (f.ended e b).done = b := rfl
@[simp] theorem Flags.ended_ovr (f : Flags) (e : ErrCode) (b : Bool) : (f.ended e b).ovr = f.ovr := rfl
@[simp] theorem Flags.ended_err (f : Flags) (e : ErrCode) (b : Bool) : (f.ended e b).err = e := rfl
@[simp] theorem Flags.ended_lastop (f : Flags) (e : ErrCode) (b : Bool) : (f.ended e b).lastop = f.lastop := rfl
@[simp] theorem Flags.overrun_done (f : Flags) : f.overrun.done = f.done := rfl
@[simp] theorem Flags.overrun_ovr (f : Flags) : f.overrun.ovr = true := rfl
@[simp] theorem Flags.overrun_err (f : Flags) : f.overrun.err = f.err := rfl
@[simp] theorem Flags.overrun_lastop (f : Flags) : f.overrun.lastop = f.lastop := rfl
@[simp] theorem Flags.clearOverrun_done (f : Flags) : f.clearOverrun.done = f.done := rfl
@[simp] theorem Flags.clearOverrun_ovr (f : Flags) : f.clearOverrun.ovr = false := rfl
@[simp] theorem Flags.clearOverrun_err (f : Flags) : f.clearOverrun.err = f.err := rfl
@[simp] theorem Flags.clearOverrun_lastop (f : Flags) : f.clearOverrun.lastop = f.lastop := rfl

/-! The phase -/

@[simp] theorem Phase.ofWindow_zero (op : Op) (p : PortUse) : Phase.ofWindow op 0 p = .idle := rfl
@[simp] theorem Phase.ofWindow_succ (op : Op) (n : Nat) (p : PortUse) : Phase.ofWindow op (n + 1) p = .busy op n p := rfl
@[simp] theorem Phase.isBusy_idle : Phase.isBusy .idle = false := rfl
@[simp] theorem Phase.isBusy_busy (op : Op) (n : Nat) (p : PortUse) : Phase.isBusy (.busy op n p) = true := rfl

end Sys2Proof.Machine
end

