-- ==== Sys2Proof/Laws/Command.lean ====
section
/-! SUPPORT. What each shared operation can do, said once: the window, the acceptance and end of a command, the rules of
the commands, the host transactions and the step. -/

namespace Sys2Proof.Machine

/-! ## The window -/

/-- A transaction of an open window: the phase and DONE after it. -/
theorem State.tick_cases (s : State) :
    s.phase = .idle ∧ s.tick = s ∨
    (∃ op p, s.phase = .busy op 0 p ∧ s.tick = { s with phase := .idle, flags := { s.flags with done := true } }) ∨
    ∃ op n p, s.phase = .busy op (n + 1) p ∧ s.tick = { s with phase := .busy op n p } := by
  unfold State.tick
  split
  · exact .inl ⟨‹_›, rfl⟩
  · exact .inr (.inl ⟨_, _, ‹_›, rfl⟩)
  · exact .inr (.inr ⟨_, _, _, ‹_›, rfl⟩)

@[simp] theorem State.tick_ovr (s : State) : s.tick.flags.ovr = s.flags.ovr := by
  unfold State.tick; split <;> rfl

@[simp] theorem State.dropWrite_ovr (s : State) : s.dropWrite.flags.ovr = true := by simp [State.dropWrite]

/-- BUSY with DONE = 0 stays so over a transaction of the window. -/
theorem State.tick_busy_not_done (s : State) (h : s.phase.isBusy = true → s.flags.done = false)
    (hb : s.tick.phase.isBusy = true) : s.tick.flags.done = false := by
  unfold State.tick at hb ⊢
  split at hb <;> simp_all

/-! ## The end of a command -/

theorem Phase.ofWindow_isBusy (op : Op) (k : Nat) (p : PortUse) :
    (Phase.ofWindow op k p).isBusy = true ↔ k ≠ 0 := by
  cases k <;> simp

/-- The end of a command whose LASTOP was set at acceptance is what `Accepted` says. -/
theorem State.endCommand_accepted (s : State) (op : Op) (e : ErrCode) (r : Nat) (p : PortUse)
    (h : s.flags.lastop = op.code) : Accepted op (s.endCommand op e r p) := by
  refine ⟨by simpa using h, ?_⟩
  rcases hk : s.nextWindow with _ | n
  · exact .inl ⟨by simp [hk], by simp [hk]⟩
  · exact .inr ⟨n, p, by simp [hk], by simp [hk]⟩

/-! ## Acceptance -/

theorem acceptCommand_busy {op : Op} {rule : State → Ending} {s : State} {o : Op} {n : Nat} {p : PortUse}
    (h : s.phase = .busy o n p) : acceptCommand op rule s = .next s.dropWrite := by simp [acceptCommand, h]

theorem acceptCommand_idle {op : Op} {rule : State → Ending} {s : State} (h : s.phase = .idle) :
    acceptCommand op rule s =
      match rule { s with flags := s.flags.accept op.code } with
      | .ended e r p t => .next (t.endCommand op e r p)
      | .stopped f => .fault f := by
  cases s
  cases h
  rfl

/-- Everything that accepting a command can lead to, when it answers a next state. -/
theorem acceptCommand_cases {op : Op} {rule : State → Ending} {s t : State}
    (h : acceptCommand op rule s = .next t) :
    (∃ o n p, s.phase = .busy o n p ∧ t = s.dropWrite) ∨
    s.phase = .idle ∧ ∃ e r p u, rule { s with flags := s.flags.accept op.code } = .ended e r p u ∧
      t = u.endCommand op e r p := by
  unfold acceptCommand at h
  split at h
  · exact .inl ⟨_, _, _, ‹_›, by simpa using h.symm⟩
  · split at h
    · exact .inr ⟨‹_›, _, _, _, _, ‹_›, by simpa using h.symm⟩
    · cases h

/-! ## The rules of the commands -/

/-- The three ways SERIALIZE, SYMLEN, ENCODE and DECODE share their first check. -/
theorem serializeRule_cases {s u : State} {e : ErrCode} {r : Nat} {p : PortUse}
    (h : serializeRule s = .ended e r p u) :
    s.ctx.valid = false ∧ e = .noCodebook ∧ r = 0 ∧ p = .none ∧ u = s ∨
    s.ctx.valid = true ∧ e = .ok ∧ p = .none ∧ ∃ out, r = out.length ∧
      out = codebookBytes s.ctx.nsym.toNat ((List.range s.ctx.nsym.toNat).map fun i => (s.ctx.lenAt i).toNat) ∧
      u = { s with cb := Memory.writeAll s.cb 0 out, csr := { s.csr with cblen := BitVec.ofNat 32 out.length } } := by
  unfold serializeRule at h
  split at h
  · rename_i hv
    simp only [finish, Ending.ended.injEq] at h
    obtain ⟨rfl, rfl, rfl, rfl⟩ := h
    exact .inr ⟨hv, rfl, rfl, _, rfl, rfl, rfl⟩
  · rename_i hv
    simp only [raise, Ending.ended.injEq] at h
    obtain ⟨rfl, rfl, rfl, rfl⟩ := h
    exact .inl ⟨by simpa using hv, rfl, rfl, rfl, rfl⟩

theorem symlenRule_cases {s u : State} {e : ErrCode} {r : Nat} {p : PortUse}
    (h : symlenRule s = .ended e r p u) :
    p = .none ∧ u = s ∧
    (s.ctx.valid = false ∧ e = .noCodebook ∧ r = 0 ∨
      s.ctx.valid = true ∧ e = .ok ∧
        r = if s.ctx.nsym.toNat ≤ xlate s s.csr.sym then 0 else (s.ctx.lenAt (xlate s s.csr.sym)).toNat) := by
  unfold symlenRule at h
  split at h
  · rename_i hv
    dsimp only at h
    split at h <;> rename_i hi <;> simp only [finish, Ending.ended.injEq] at h <;> obtain ⟨rfl, rfl, rfl, rfl⟩ := h
    · exact ⟨rfl, rfl, .inr ⟨hv, rfl, by simp [hi]⟩⟩
    · exact ⟨rfl, rfl, .inr ⟨hv, rfl, by simp [hi]⟩⟩
  · rename_i hv
    simp only [raise, Ending.ended.injEq] at h
    obtain ⟨rfl, rfl, rfl, rfl⟩ := h
    exact ⟨rfl, rfl, .inl ⟨by simpa using hv, rfl, rfl⟩⟩

theorem encodeRule_cases {s u : State} {e : ErrCode} {r : Nat} {p : PortUse}
    (h : encodeRule s = .ended e r p u) :
    s.ctx.valid = false ∧ e = .noCodebook ∧ r = 0 ∧ p = .none ∧ u = s ∨
    s.ctx.valid = true ∧ ¬ s.ctx.Coded (xlate s s.csr.sym) ∧ e = .unknownSymbol ∧ r = 0 ∧ p = .none ∧ u = s ∨
    s.ctx.valid = true ∧ s.ctx.Coded (xlate s s.csr.sym) ∧ e = .ok ∧ p = .wrote ∧
      r = (s.ctx.lenAt (xlate s s.csr.sym)).toNat ∧
      u = s.bitWrite (s.ctx.codeAt (xlate s s.csr.sym)) (s.ctx.lenAt (xlate s s.csr.sym)).toNat := by
  unfold encodeRule at h
  split at h
  · rename_i hv
    dsimp only at h
    split at h
    · rename_i hi
      simp only [raise, Ending.ended.injEq] at h
      obtain ⟨rfl, rfl, rfl, rfl⟩ := h
      exact .inr (.inl ⟨hv, fun hc => by have := hc.1; omega, rfl, rfl, rfl, rfl⟩)
    · split at h
      · rename_i hi hl
        simp only [raise, Ending.ended.injEq] at h
        obtain ⟨rfl, rfl, rfl, rfl⟩ := h
        exact .inr (.inl ⟨hv, fun hc => hc.2 hl, rfl, rfl, rfl, rfl⟩)
      · rename_i hi hl
        simp only [finish, Ending.ended.injEq] at h
        obtain ⟨rfl, rfl, rfl, rfl⟩ := h
        exact .inr (.inr ⟨hv, ⟨by omega, hl⟩, rfl, rfl, rfl, rfl⟩)
  · rename_i hv
    simp only [raise, Ending.ended.injEq] at h
    obtain ⟨rfl, rfl, rfl, rfl⟩ := h
    exact .inl ⟨by simpa using hv, rfl, rfl, rfl, rfl⟩

/-- What every end of DECODE leaves alone. -/
theorem decodeRule_frame {s u : State} {e : ErrCode} {r : Nat} {p : PortUse}
    (h : decodeRule s = .ended e r p u) :
    u = { s with reader := u.reader, csr := { s.csr with sym := u.csr.sym } } := by
  unfold decodeRule at h
  split at h
  · split at h <;> simp only [finish, raise, Ending.ended.injEq] at h <;> obtain ⟨-, -, -, rfl⟩ := h <;> rfl
  · simp only [raise, Ending.ended.injEq] at h
    obtain ⟨-, -, -, rfl⟩ := h
    rfl

/-- Everything BUILD can end with. -/
theorem buildRule_cases {s u : State} {e : ErrCode} {r : Nat} {p : PortUse}
    (h : buildRule s = .ended e r p u) :
    p = .none ∧
    ((e = .range ∨ e = .lengthOverflow) ∧ r = 0 ∧ u = { s with ctx := Context.invalid } ∨
      ∃ ws, e = .ok ∧ s.csr.alpha.toNat ≤ s.params.nMax ∧
        readWeights s.weights 0 s.csr.alpha.toNat = .ok ws ∧ (codeLengths ws).foldl max 0 ≤ maxCodeLength ∧
        r = (canonContext (codeLengths ws)).ncoded.toNat ∧ u = { s with ctx := canonContext (codeLengths ws) }) := by
  unfold buildRule at h
  dsimp only at h
  split at h
  · simp only [raiseInvalidating, raise, Ending.ended.injEq] at h
    obtain ⟨rfl, rfl, rfl, rfl⟩ := h
    exact ⟨rfl, .inl ⟨.inl rfl, rfl, rfl⟩⟩
  · split at h
    · cases h
    · split at h
      · simp only [raiseInvalidating, raise, Ending.ended.injEq] at h
        obtain ⟨rfl, rfl, rfl, rfl⟩ := h
        exact ⟨rfl, .inl ⟨.inr rfl, rfl, rfl⟩⟩
      · simp only [finish, Ending.ended.injEq] at h
        obtain ⟨rfl, rfl, rfl, rfl⟩ := h
        exact ⟨rfl, .inr ⟨_, rfl, by omega, ‹_›, by omega, rfl, rfl⟩⟩

/-- Everything DESERIALIZE can end with. -/
theorem deserializeRule_cases {s u : State} {e : ErrCode} {r : Nat} {p : PortUse}
    (h : deserializeRule s = .ended e r p u) :
    p = .none ∧
    ((e = .range ∨ e = .invalidCodebook) ∧ r = 0 ∧ u = { s with ctx := Context.invalid } ∨
      ∃ lt, e = .ok ∧ s.csr.cblen.toNat ≤ s.params.cbBytes ∧
        parseCodebook s.cb s.csr.cblen.toNat (min s.csr.dlim.toNat (s.params.nMax + 1)) = .lengths lt r ∧
        u = { s with ctx := canonContext lt }) := by
  unfold deserializeRule at h
  dsimp only at h
  split at h
  · simp only [raiseInvalidating, raise, Ending.ended.injEq] at h
    obtain ⟨rfl, rfl, rfl, rfl⟩ := h
    exact ⟨rfl, .inl ⟨.inl rfl, rfl, rfl⟩⟩
  · split at h
    · cases h
    · simp only [raiseInvalidating, raise, Ending.ended.injEq] at h
      obtain ⟨rfl, rfl, rfl, rfl⟩ := h
      exact ⟨rfl, .inl ⟨.inr rfl, rfl, rfl⟩⟩
    · simp only [finish, Ending.ended.injEq] at h
      obtain ⟨rfl, rfl, rfl, rfl⟩ := h
      exact ⟨rfl, .inr ⟨_, rfl, by omega, ‹_›, rfl⟩⟩

/-! ## The step -/

/-- A command is accepted with its own rule. -/
def ruleOf : Op → State → Ending
  | .nop => nopRule
  | .build => buildRule
  | .serialize => serializeRule
  | .deserialize => deserializeRule
  | .symlen => symlenRule
  | .encode => encodeRule
  | .decode => decodeRule
  | .clear => clearRule

theorem execOp_eq (op : Op) (s : State) : execOp op s = acceptCommand op (ruleOf op) s := by cases op <;> rfl

theorem exec_instr_eq (op : Op) (s : State) : exec op.instr s = acceptCommand op (ruleOf op) s := by cases op <;> rfl

/-- Everything a host write can lead to, when it answers a next state. -/
theorem execHwr_cases {a : Offset} {d : Word} {s t : State} (h : execHwr a d s = .next t) :
    Offset.aligned a = true ∧
    ((∃ o n p, s.phase = .busy o n p ∧ t = s.dropWrite) ∨
      s.phase = .idle ∧
        (a = cmdOffset ∧ (∃ op, decodeOp d = some op ∧ acceptCommand op (ruleOf op) s = .next t) ∨
          a = cmdOffset ∧ decodeOp d = none ∧ t = illegalCommand d s ∨
          a ≠ cmdOffset ∧ t = writeReg d s (regAt a))) := by
  unfold execHwr at h
  split at h
  · rename_i ha
    refine ⟨ha, ?_⟩
    split at h
    · exact .inl ⟨_, _, _, ‹_›, by simpa using h.symm⟩
    · refine .inr ⟨‹_›, ?_⟩
      split at h
      · rename_i hc
        unfold writeCmd at h
        split at h
        · exact .inl ⟨hc, _, ‹_›, by rw [← execOp_eq]; exact h⟩
        · exact .inr (.inl ⟨hc, ‹_›, by simpa using h.symm⟩)
      · exact .inr (.inr ⟨‹_›, by simpa using h.symm⟩)
  · cases h

/-- Everything a host read can lead to, when it answers a next state. -/
theorem execHrd_cases {a : Offset} {s t : State} (h : execHrd a s = .next t) :
    Offset.aligned a = true ∧
    ((∃ o n p, s.phase = .busy o n p ∧
        t = State.tick { s.answerHost (readRegBusy s (regAt a)) with free := s.free + 1 }) ∨
      s.phase = .idle ∧ t = s.answerHost (readReg s (regAt a))) := by
  unfold execHrd at h
  split at h
  · refine ⟨‹_›, ?_⟩
    split at h
    · exact .inl ⟨_, _, _, ‹_›, by simpa using h.symm⟩
    · exact .inr ⟨‹_›, by simpa using h.symm⟩
  · cases h

/-- Everything a step can lead to, when it answers a next state. -/
theorem step_cases {s t : State} (h : step s = .next t) :
    s.pending = [] ∧ t = s ∨
    (∃ lost rest, s.pending = .reset lost :: rest ∧ t = State.resetEvent { s with pending := rest }) ∨
    (∃ en w rest, s.pending = .transaction en w :: rest ∧ isSubWordWrite en w = true ∧ t = { s with pending := rest }) ∨
    ∃ en w rest i, s.pending = .transaction en w :: rest ∧ isSubWordWrite en w = false ∧
      decode (.transaction w) = .ok i ∧ exec i { s with pending := rest } = .next t := by
  unfold step fetch at h
  rcases hp : s.pending with _ | ⟨_ | _, rest⟩
  · simp only [hp] at h
    exact .inl ⟨rfl, by simpa using h.symm⟩
  · rename_i en w
    simp only [hp] at h
    cases hb : isSubWordWrite en w
    · rcases hd : decode (.transaction w) with r | i
      · simp only [hb, hd] at h
        cases r <;> simp [rejectTransaction] at h
      · simp only [hb, hd] at h
        exact .inr (.inr (.inr ⟨_, _, _, _, rfl, hb, hd, by simpa using h⟩))
    · simp only [hb] at h
      exact .inr (.inr (.inl ⟨_, _, _, rfl, hb, by simpa using h.symm⟩))
  · simp only [hp] at h
    exact .inr (.inl ⟨_, _, rfl, by simpa using h.symm⟩)

end Sys2Proof.Machine
end

