-- ==== Sys2Proof/Laws/PerInstr.lean ====
section
/-! SUPPORT. One family of statements, lemma by lemma for each constructor: an instruction's word has its row's fixed
bits (`match` under `mask`) in opcode_table.json. -/

namespace Sys2Proof.Laws.OpcodeRow

/-- The bits of the word that carries an instruction, numbered as opcode_table.json numbers them. -/
def bits (i : Instr) : Nat :=
  match encode i with
  | .command w => w.toNat
  | .transaction w => w.toNat

/-- `match` and `mask` of an instruction's row. -/
def row : Instr → Nat × Nat
  | .nop => (0x00000000, 0xFFFFFFFF)
  | .build => (0x00000001, 0xFFFFFFFF)
  | .serialize => (0x00000002, 0xFFFFFFFF)
  | .deserialize => (0x00000003, 0xFFFFFFFF)
  | .symlen => (0x00000004, 0xFFFFFFFF)
  | .encode => (0x00000005, 0xFFFFFFFF)
  | .decode => (0x00000006, 0xFFFFFFFF)
  | .clear => (0x00000007, 0xFFFFFFFF)
  | .hwr _ _ => (0x10000000000, 0x10000000000)
  | .hrd _ => (0x00000000000, 0x100FFFFFFFF)

def Statement (i : Instr) : Prop := i.WellFormed → bits i &&& (row i).2 = (row i).1

theorem nop : Statement .nop := fun _ => by decide
theorem build : Statement .build := fun _ => by decide
theorem serialize : Statement .serialize := fun _ => by decide
theorem deserialize : Statement .deserialize := fun _ => by decide
theorem symlen : Statement .symlen := fun _ => by decide
theorem encode : Statement .encode := fun _ => by decide
theorem decode : Statement .decode := fun _ => by decide
theorem clear : Statement .clear := fun _ => by decide

theorem hwr (addr : Offset) (data : Word) : Statement (.hwr addr data) := fun _ => by
  have h : (transactionWord 1 addr data).toNat.testBit 40 = true := by
    rw [BitVec.testBit_toNat]
    simp only [transactionWord, BitVec.getLsbD_append]
    rfl
  show (transactionWord 1 addr data).toNat &&& 2 ^ 40 = 2 ^ 40
  rw [Nat.and_two_pow, h]
  rfl

theorem hrd (addr : Offset) : Statement (.hrd addr) := fun _ => by
  show (transactionWord 0 addr 0).toNat &&& 0x100FFFFFFFF = 0
  revert addr
  decide

end Sys2Proof.Laws.OpcodeRow
end

