-- ==== Sys2Proof/Laws/Port.lean ====
section
/-! SUPPORT. The host port and the bit reader, said once: the fields of a transaction word, the transactions while
BUSY = 0, the reader's answers that a DECODE takes, and a readable weight table. -/

namespace Sys2Proof

theorem Offset.aligned_iff (a : Offset) : Offset.aligned a = true ↔ a.toNat % 4 = 0 := by
  revert a; decide

/-! ## The fields of a transaction word -/

@[simp] theorem dirField_transactionWord (dir : BitVec 1) (a : Offset) (d : Word) :
    dirField (transactionWord dir a d) = dir := by
  apply BitVec.eq_of_getLsbD_eq
  intro i hi
  simp only [dirField, transactionWord, BitVec.getLsbD_append, BitVec.getLsbD_extractLsb']
  grind

@[simp] theorem addrField_transactionWord (dir : BitVec 1) (a : Offset) (d : Word) :
    addrField (transactionWord dir a d) = a := by
  apply BitVec.eq_of_getLsbD_eq
  intro i hi
  simp only [addrField, transactionWord, BitVec.getLsbD_append, BitVec.getLsbD_extractLsb']
  grind

@[simp] theorem dataField_transactionWord (dir : BitVec 1) (a : Offset) (d : Word) :
    dataField (transactionWord dir a d) = d := by
  apply BitVec.eq_of_getLsbD_eq
  intro i hi
  simp only [dataField, transactionWord, BitVec.getLsbD_append, BitVec.getLsbD_extractLsb']
  grind

/-- A transaction word is its three fields. -/
theorem transactionWord_fields (w : TransactionWord) :
    transactionWord (dirField w) (addrField w) (dataField w) = w := by
  apply BitVec.eq_of_getLsbD_eq
  intro i hi
  simp only [dirField, addrField, dataField, transactionWord, BitVec.getLsbD_append, BitVec.getLsbD_extractLsb']
  grind

theorem dirField_eq_one_iff (w : TransactionWord) : dirField w = 1 ↔ w.toNat / 2 ^ 40 = 1 := by
  have := w.isLt
  rw [← BitVec.toNat_inj]
  simp [dirField, Nat.shiftRight_eq_div_pow]
  omega

theorem addrField_toNat (w : TransactionWord) : (addrField w).toNat = w.toNat / 2 ^ 32 % 2 ^ 8 := by
  simp [addrField, Nat.shiftRight_eq_div_pow]

theorem dataField_toNat (w : TransactionWord) : (dataField w).toNat = w.toNat % 2 ^ 32 := by
  simp [dataField]

namespace Machine

/-! ## Transactions while BUSY = 0 -/

theorem exec_hrd_idle {s : State} {a : Offset} (h : s.phase = .idle) (ha : Offset.aligned a = true) :
    exec (.hrd a) s = .next (s.answerHost (readReg s (regAt a))) := by simp [exec, execHrd, h, ha]

theorem exec_hwr_idle {s : State} {a : Offset} (d : Word) (h : s.phase = .idle) (ha : Offset.aligned a = true)
    (hc : a ≠ cmdOffset) : exec (.hwr a d) s = .next (writeReg d s (regAt a)) := by
  simp [exec, execHwr, h, ha, hc]

/-- Everything a register write can change: a register of its own, a RAM entry with its index, or OVR with an index. -/
theorem writeReg_frame (d : Word) (s : State) (r : Reg) :
    writeReg d s r = { s with
      flags := { s.flags with ovr := (writeReg d s r).flags.ovr }
      csr := { (writeReg d s r).csr with result := s.csr.result }
      weights := (writeReg d s r).weights
      cb := (writeReg d s r).cb } := by
  cases r <;> simp only [writeReg, writeWdata, writeCbdata] <;> first | rfl | (split <;> rfl)

theorem writeReg_keeps_ovr (d : Word) (s : State) (r : Reg) (h : s.flags.ovr = true) :
    (writeReg d s r).flags.ovr = true := by
  cases r <;> simp only [writeReg, writeWdata, writeCbdata] <;> first | exact h | (split <;> simp [h])

/-! ## The instructions -/

/-- Everything that an instruction can lead to: in the BUSY window a dropped write or a read; else a command's end, an
illegal command word, a register write or a register read. -/
def ExecNext (i : Instr) (s t : State) : Prop :=
  (∃ o n p, s.phase = .busy o n p ∧
    (t = s.dropWrite ∨
      ∃ a, i = .hrd a ∧ t = State.tick { s.answerHost (readRegBusy s (regAt a)) with free := s.free + 1 })) ∨
  s.phase = .idle ∧
    ((∃ op e r p u, opOf i = some op ∧ ruleOf op { s with flags := s.flags.accept op.code } = .ended e r p u ∧
        t = u.endCommand op e r p) ∨
      (∃ d, i = .hwr cmdOffset d ∧ decodeOp d = none ∧ t = illegalCommand d s) ∨
      (∃ a d, i = .hwr a d ∧ Offset.aligned a = true ∧ a ≠ cmdOffset ∧ t = writeReg d s (regAt a)) ∨
      ∃ a, i = .hrd a ∧ Offset.aligned a = true ∧ t = s.answerHost (readReg s (regAt a)))

theorem exec_cases {i : Instr} {s t : State} (h : exec i s = .next t) : ExecNext i s t := by
  have cmd : ∀ op : Op, i = op.instr → opOf i = some op → ExecNext i s t := fun op hi ho => by
    rw [hi, exec_instr_eq] at h
    rcases acceptCommand_cases h with ⟨o, n, p, hb, ht⟩ | ⟨hp, e, r, p, u, hr, ht⟩
    · exact .inl ⟨o, n, p, hb, .inl ht⟩
    · exact .inr ⟨hp, .inl ⟨op, e, r, p, u, ho, hr, ht⟩⟩
  cases i with
  | hwr a d =>
    obtain ⟨ha, ⟨o, n, p, hb, ht⟩ | ⟨hp, ⟨hc, op, ho, hx⟩ | ⟨hc, ho, ht⟩ | ⟨hc, ht⟩⟩⟩ := execHwr_cases h
    · exact .inl ⟨o, n, p, hb, .inl ht⟩
    · rcases acceptCommand_cases hx with ⟨o, n, p, hb, ht⟩ | ⟨_, e, r, p, u, hr, ht⟩
      · simp [hp] at hb
      · exact .inr ⟨hp, .inl ⟨op, e, r, p, u, by simp [opOf, hc, ho], hr, ht⟩⟩
    · exact .inr ⟨hp, .inr (.inl ⟨d, by rw [hc], ho, ht⟩)⟩
    · exact .inr ⟨hp, .inr (.inr (.inl ⟨a, d, rfl, ha, hc, ht⟩))⟩
  | hrd a =>
    obtain ⟨ha, ⟨o, n, p, hb, ht⟩ | ⟨hp, ht⟩⟩ := execHrd_cases h
    · exact .inl ⟨o, n, p, hb, .inr ⟨a, rfl, ht⟩⟩
    · exact .inr ⟨hp, .inr (.inr (.inr ⟨a, rfl, ha, ht⟩))⟩
  | nop => exact cmd .nop rfl rfl
  | build => exact cmd .build rfl rfl
  | serialize => exact cmd .serialize rfl rfl
  | deserialize => exact cmd .deserialize rfl rfl
  | symlen => exact cmd .symlen rfl rfl
  | encode => exact cmd .encode rfl rfl
  | decode => exact cmd .decode rfl rfl
  | clear => exact cmd .clear rfl rfl

/-! ## A host that waits -/

theorem execAll_cons {i : Instr} {is : List Instr} {s t : State} (h : exec i s = .next t) :
    execAll (i :: is) s = execAll is t := by simp only [execAll, h]

theorem execAll_append {is js : List Instr} {s t : State} (h : execAll is s = .next t) :
    execAll (is ++ js) s = execAll js t := by
  induction is generalizing s with
  | nil =>
    obtain rfl : s = t := by simpa [execAll] using h
    rfl
  | cons i is ih =>
    rw [List.cons_append]
    rcases hx : exec i s with u | f | r
    · rw [execAll_cons hx] at h ⊢
      exact ih h
    · simp [execAll, hx] at h
    · simp [execAll, hx] at h

theorem exec_status_idle {s : State} (h : s.phase = .idle) :
    exec (.hrd 0x08) s = .next (s.answerHost (statusWord s)) := exec_hrd_idle h (by decide)

theorem exec_status_busy {s : State} {op : Op} {n : Nat} {port : PortUse} (h : s.phase = .busy op n port) :
    exec (.hrd 0x08) s =
      .next (State.tick { s.answerHost (busyStatusWord (Config.busyRead s.free)) with free := s.free + 1 }) := by
  have ha : Offset.aligned 0x08 = true := by decide
  simp only [exec, execHrd, ha, if_true, h]
  rfl

/-- Reads of STATUS close a window, and change nothing but it, DONE and the host's side. -/
theorem execAll_status_busy {n : Nat} {s : State} {op : Op} {port : PortUse} (h : s.phase = .busy op n port) :
    ∃ t, execAll (List.replicate (n + 1) (.hrd 0x08)) s = .next t ∧ t.phase = .idle ∧
      t = { s with phase := .idle, flags := { s.flags with done := true }, answers := t.answers, free := t.free } := by
  induction n generalizing s with
  | zero => exact ⟨_, execAll_cons (exec_status_busy h), by simp [State.tick, h], by simp [State.tick, h, State.answerHost]⟩
  | succ n ih =>
    obtain ⟨t, ht, hi, he⟩ :=
      ih (s := State.tick { s.answerHost (busyStatusWord (Config.busyRead s.free)) with free := s.free + 1 })
        (by simp [State.tick, h])
    refine ⟨t, ?_, hi, ?_⟩
    · rw [List.replicate_succ, execAll_cons (exec_status_busy h), ht]
    · rw [he]
      simp [State.tick, h, State.answerHost]

/-- WAIT always comes to the command's end, and changes nothing but the window, DONE and the host's side. -/
theorem waitForEnd_next (s : State) :
    ∃ t, waitForEnd s = .next t ∧ t.phase = .idle ∧
      t = { s with phase := .idle, flags := { s.flags with done := t.flags.done }, answers := t.answers,
                   free := t.free } := by
  rcases hp : s.phase with _ | ⟨op, n, port⟩
  · refine ⟨s.answerHost (statusWord s), ?_, hp, ?_⟩
    · rw [waitForEnd, State.busyReads, hp]
      exact execAll_cons (exec_status_idle hp)
    · cases s
      cases hp
      rfl
  · obtain ⟨u, hu, hi, he⟩ := execAll_status_busy hp
    refine ⟨u.answerHost (statusWord u), ?_, hi, ?_⟩
    · rw [waitForEnd, State.busyReads, hp, List.replicate_succ', execAll_append hu]
      exact execAll_cons (exec_status_idle hi)
    · rw [he]
      rfl

/-! ## The bit reader -/

/-- The answers a DECODE takes, for each way its loop ends. -/
theorem decodeLoop_cases (c : Context) (fuel n code first offset : Nat) (reader : List Answer) :
    (∃ sym bits rest, decodeLoop c fuel n code first offset reader = .found sym (n + bits.length) rest ∧
      bits ≠ [] ∧ bits.length ≤ fuel ∧ reader = bitAnswers bits ++ rest) ∨
    (∃ bits rest, decodeLoop c fuel n code first offset reader = .exhausted (n + bits.length) rest ∧
      bits.length < fuel ∧ (reader = bitAnswers bits ++ .eos :: rest ∨ reader = bitAnswers bits ∧ rest = [])) ∨
    ∃ bits rest, decodeLoop c fuel n code first offset reader = .noMatch (n + bits.length) rest ∧
      bits.length = fuel ∧ reader = bitAnswers bits ++ rest := by
  induction fuel generalizing n code first offset reader with
  | zero => exact .inr (.inr ⟨[], reader, by simp [decodeLoop], rfl, by simp [bitAnswers]⟩)
  | succ fuel ih =>
    rcases reader with _ | ⟨b | _, rest⟩
    · exact .inr (.inl ⟨[], [], by simp [decodeLoop], by simp, .inr ⟨by simp [bitAnswers], rfl⟩⟩)
    · by_cases hm : ((code <<< 1) ||| b.toNat) - first < (c.numlAt (n + 1)).toNat
      · exact .inl ⟨_, [b], rest, by simp only [decodeLoop, hm, if_true]; rfl, by simp, by simp, by simp [bitAnswers]⟩
      · have hd : decodeLoop c (fuel + 1) n code first offset (.bit b :: rest) =
            decodeLoop c fuel (n + 1) ((code <<< 1) ||| b.toNat) ((first + (c.numlAt (n + 1)).toNat) <<< 1)
              (offset + (c.numlAt (n + 1)).toNat) rest := by simp [decodeLoop, hm]
        rw [hd]
        rcases ih (n + 1) ((code <<< 1) ||| b.toNat) ((first + (c.numlAt (n + 1)).toNat) <<< 1)
            (offset + (c.numlAt (n + 1)).toNat) rest with
          ⟨sym, bits, r, h1, h2, h3, h4⟩ | ⟨bits, r, h1, h2, h3⟩ | ⟨bits, r, h1, h2, h3⟩
        · exact .inl ⟨sym, b :: bits, r, by rw [h1]; simp; omega, by simp, by simp; omega, by simp [bitAnswers, h4]⟩
        · refine .inr (.inl ⟨b :: bits, r, by rw [h1]; simp; omega, by simp; omega, ?_⟩)
          rcases h3 with h3 | ⟨h3, h5⟩
          · exact .inl (by simp [bitAnswers, h3])
          · exact .inr ⟨by simp [bitAnswers, h3], h5⟩
        · exact .inr (.inr ⟨b :: bits, r, by rw [h1]; simp; omega, by simp [h2], by simp [bitAnswers, h3]⟩)
    · exact .inr (.inl ⟨[], rest, by simp [decodeLoop], by simp, .inl (by simp [bitAnswers])⟩)

/-- What was taken and what is left make up the answers there were. -/
theorem takenFrom_append (taken rest : List Answer) : takenFrom (taken ++ rest) rest = taken := by
  simp [takenFrom]

/-! ## The weight table -/

/-- BUILD reads the weights that W holds. -/
theorem readWeights_of_holdsAt {m : Memory 32} {ws : List Word} {i : Nat} (h : HoldsAt m i ws) :
    readWeights m i ws.length = .ok (ws.map BitVec.toNat) := by
  induction ws generalizing i with
  | nil => rfl
  | cons w ws ih =>
    have h0 := h 0 (by simp)
    have ht : HoldsAt m (i + 1) ws := fun j hj => by
      have := h (j + 1) (by simpa using hj)
      rw [show i + 1 + j = i + (j + 1) by omega, this]
      simp
    simp at h0
    simp [readWeights, h0, ih ht]

/-- What BUILD reads is what W holds. -/
theorem readWeights_ok {m : Memory 32} {i n : Nat} {vs : List Nat} (h : readWeights m i n = .ok vs) :
    ∃ ws : List Word, ws.length = n ∧ HoldsAt m i ws ∧ vs = ws.map BitVec.toNat := by
  induction n generalizing i vs with
  | zero => exact ⟨[], rfl, fun j hj => by simp at hj, by simpa [readWeights] using h.symm⟩
  | succ n ih =>
    rw [readWeights] at h
    split at h
    · cases h
    · rename_i v hv
      split at h
      · cases h
      · rename_i us hu
        obtain ⟨ws, hl, hh, rfl⟩ := ih hu
        refine ⟨v :: ws, by simp [hl], fun j hj => ?_, by simpa using h.symm⟩
        cases j with
        | zero => simpa using hv
        | succ j =>
          have := hh j (by simpa using hj)
          rw [show i + (j + 1) = i + 1 + j by omega, this]
          simp

/-- The index that stops BUILD was never written. -/
theorem readWeights_error {m : Memory 32} {i n j : Nat} (h : readWeights m i n = .error j) :
    i ≤ j ∧ j < i + n ∧ Memory.read? m j = none := by
  induction n generalizing i with
  | zero => cases h
  | succ n ih =>
    rw [readWeights] at h
    split at h
    · rename_i hv
      cases h
      exact ⟨by omega, by omega, hv⟩
    · split at h
      · rename_i k hk
        cases h
        obtain ⟨h1, h2, h3⟩ := ih hk
        exact ⟨by omega, by omega, h3⟩
      · cases h

end Machine

end Sys2Proof
end

