-- ==== Sys2Proof/Tests/Slice0.lean ====
section
/-! SUPPORT. Tests of the model against the vectors of 95_test_vectors.md and the encodings of 30_encoding.md, and for each
obligation with hypotheses a state and operands that meet them. -/

namespace Sys2Proof.Tests

open Sys2Proof.Machine

/-! ## WellFormed refuses, Decode reads (R22, R64, R86, R88, R90) -/

theorem test_ill_formed_hwr : ¬ (Instr.hwr 0x05 0).WellFormed := by decide
theorem test_ill_formed_hrd : ¬ (Instr.hrd 0x0E).WellFormed := by decide

theorem test_decode_nop : decodeTableWord 32 0b00000000000000000000000000000000 = some .nop := by decide
theorem test_decode_build : decodeTableWord 32 0b00000000000000000000000000000001 = some .build := by decide
theorem test_decode_serialize : decodeTableWord 32 0b00000000000000000000000000000010 = some .serialize := by decide
theorem test_decode_deserialize : decodeTableWord 32 0b00000000000000000000000000000011 = some .deserialize := by decide
theorem test_decode_symlen : decodeTableWord 32 0b00000000000000000000000000000100 = some .symlen := by decide
theorem test_decode_encode : decodeTableWord 32 0b00000000000000000000000000000101 = some .encode := by decide
theorem test_decode_decode : decodeTableWord 32 0b00000000000000000000000000000110 = some .decode := by decide
theorem test_decode_clear : decodeTableWord 32 0b00000000000000000000000000000111 = some .clear := by decide

/-- DIR 1, ADDR 0x0C, DATA 6. -/
theorem test_decode_hwr : decodeTableWord 48 0b10000110000000000000000000000000000000110 = some (.hwr 0x0C 6) := by decide

/-- DIR 0, ADDR 0x08, DATA 0. -/
theorem test_decode_hrd : decodeTableWord 48 0b00000100000000000000000000000000000000000 = some (.hrd 0x08) := by decide

theorem test_decode_reserved_op : decodeTableWord 32 0x00000008 = none := by decide
theorem test_decode_reserved_bits : decodeTableWord 32 0x00000105 = none := by decide

/-! ## One step on a small state -/

/-- N_MAX = 64, CB_BYTES = 80; the first command's window is closed when the next transaction comes. -/
def small : State := { State.resetOf ⟨64, 80⟩ with windows := [0] }

/-- A state with the weights of a vector in W. -/
def weighted (ws : List Word) : State :=
  { small with
    weights := Memory.writeAll [] 0 ws
    csr := { small.csr with alpha := BitVec.ofNat 32 ws.length } }

/-- A state with the code lengths of a vector as its context. -/
def coded (lt : List Nat) : State := { small with ctx := canonContext lt }

/-- A state with the codebook bytes of a vector in CB. -/
def buffered (bytes : List Byte) : State :=
  { small with
    cb := Memory.writeAll [] 0 bytes
    csr := { small.csr with cblen := BitVec.ofNat 32 bytes.length } }

def withSym (s : State) (v : Word) : State := { s with csr := { s.csr with sym := v } }

/-- A fact about the next state, if there is one. -/
def after {α : Type} (o : Host.Outcome State Fault Refusal) (f : State → α) : Option α :=
  match o with
  | .next t => some (f t)
  | .fault _ => none
  | .refused _ => none

/-- R156. -/
theorem test_nop : after (exec .nop { small with flags := ⟨false, true, .range, 9⟩ }) (fun t => t.flags) =
    some ⟨true, true, .ok, 0⟩ := by decide

/-- V-B1: LEN, CODE and SORTED. -/
theorem test_build_vb1 : after (exec .build (weighted [3, 1, 4, 1, 5, 9]))
      (fun t => (t.ctx.lengths, (List.range 7).map t.ctx.codeAt, t.ctx.sorted)) =
    some ([3, 5, 2, 4, 2, 2, 5], [6, 30, 0, 14, 1, 2, 31], [2, 4, 5, 0, 3, 1, 6]) := by decide

/-- V-B3: a single leaf has length 1. -/
theorem test_build_vb3 : after (exec .build (weighted [0, 0, 0])) (fun t => (t.ctx.lengths, t.csr.result)) =
    some ([0, 0, 0, 1], 1) := by decide

/-- V-S1. -/
theorem test_serialize_vs1 : after (exec .serialize (coded [3, 5, 2, 4, 2, 2, 5])) (fun t => (t.cb, t.csr.cblen)) =
    some ([(0, 0x07), (1, 0x06), (2, 0x0A), (3, 0x04), (4, 0x08), (5, 0x04), (6, 0x04), (7, 0x0A)], 8) := by decide

/-- V-D6: a count varint that is not minimal. -/
theorem test_deserialize_vd6 : after (exec .deserialize (buffered [0x83, 0x00, 0x02, 0x04, 0x04]))
      (fun t => (t.flags.err, t.csr.result, t.ctx.lengths)) =
    some (.ok, 5, [1, 2, 2]) := by decide

/-- V-D7: oversubscribed lengths. -/
theorem test_deserialize_vd7 : after (exec .deserialize (buffered [0x03, 0x02, 0x02, 0x02]))
      (fun t => (t.flags.err, t.csr.result, t.ctx.valid)) =
    some (.invalidCodebook, 0, false) := by decide

/-- V-E2: the sentinel names EOF. -/
theorem test_symlen_ve2 : after (exec .symlen (withSym (coded [3, 5, 2, 4, 2, 2, 5]) 0xFFFFFFFF))
    (fun t => (t.flags.err, t.csr.result)) = some (.ok, 5) := by decide

/-- V-E4. -/
theorem test_encode_ve4 : after (exec .encode (withSym (coded [3, 5, 2, 4, 2, 2, 5]) 5))
    (fun t => (t.writer, t.csr.result)) = some ([⟨0b10, 2⟩], 2) := by decide

/-- V-E10: a symbol of weight 0 has no codeword. -/
theorem test_encode_ve10 : after (exec .encode (withSym (coded [0, 2, 0, 1, 2]) 2))
    (fun t => (t.flags.err, t.writer)) = some (.unknownSymbol, []) := by decide

/-- V-X4: EOF comes out as the sentinel. -/
theorem test_decode_vx4 : after
      (exec .decode { coded [3, 5, 2, 4, 2, 2, 5] with reader := bitAnswers [true, true, true, true, true, false] })
      (fun t => (t.csr.sym, t.csr.result, t.reader)) =
    some (0xFFFFFFFF, 5, [.bit false]) := by decide

/-- V-X7: the bits before the end of the stream are consumed. -/
theorem test_decode_vx7 : after
      (exec .decode { coded [3, 5, 2, 4, 2, 2, 5] with reader := [.bit true, .bit true, .eos] })
      (fun t => (t.flags.err, t.csr.result, t.reader)) =
    some (.endOfStream, 2, []) := by decide

/-- R157. -/
theorem test_clear : after (exec .clear { coded [1, 1] with flags := ⟨true, true, .ok, 1⟩ })
    (fun t => (t.flags.ovr, t.ctx.valid, t.ctx.nsym)) = some (false, false, 0) := by decide

/-- R41, R42: the last CB entry is written, and the index passes it. -/
theorem test_hwr_cbdata : after (exec (.hwr 0x30 0x1FF) { small with csr := { small.csr with cbidx := 79 } })
    (fun t => (t.cb, t.csr.cbidx, t.flags.ovr)) = some ([(79, 0xFF)], 80, false) := by decide

/-- R185 (1): a command word in the BUSY window is dropped. -/
theorem test_hwr_in_window : after (exec (.hwr 0x04 7) { coded [1, 1] with phase := .busy .decode 1 .none })
    (fun t => (t.ctx.valid, t.flags.ovr, t.phase)) = some (true, true, .busy .decode 0 .none) := by decide

/-- R32: DONE, VALID, OVR, ERR 6 and LASTOP 1 at their places. -/
theorem test_hrd_status : after (exec (.hrd 0x08) { coded [1, 1] with flags := ⟨true, true, .range, 1⟩ })
    (fun t => t.answers) = some [0x0001060E] := by decide

/-- R48. -/
theorem test_hrd_tsort : after (exec (.hrd 0x48) { coded [2, 1, 2] with csr := { small.csr with tidx := 3 } })
    (fun t => t.answers) = some [0xFFFFFFFF] := by decide

/-! ## Each obligation's hypotheses can be met -/

/-- The hypothesis of `HoldsAt`, as a check. -/
theorem holdsAt_of {w : Nat} {m : Memory w} {a : Nat} {vs : List (BitVec w)}
    (h : (List.range vs.length).map (fun i => Memory.read? m (a + i)) = vs.map some) : HoldsAt m a vs := by
  intro i hi
  have := congrArg (fun l => l[i]?) h
  simpa [hi] using this

theorem witness_EncodedInstructionDecodesBack :
    (Instr.hwr 0xFC 0xFFFFFFFF).WellFormed ∧ (Instr.hrd 0).WellFormed ∧ Instr.clear.WellFormed := by decide

theorem witness_DecodedWordEncodesBack : decode (.transaction 0x1FCFFFFFFFF) = .ok (.hwr 0xFC 0xFFFFFFFF) := by decide

/-- The greatest value, minimal; 0 in ten bytes; the least signed value. -/
theorem witness_VarintRoundTrips :
    2 ^ 64 - 1 < 2 ^ 64 ∧
    (∀ bv ∈ [(uvarintEnc (2 ^ 64 - 1), 2 ^ 64 - 1), (([0x80, 0x80, 0x80, 0x80, 0x80, 0x80, 0x80, 0x80, 0x80, 0x00] : List Byte), 0)],
      IsUvarint bv.1 bv.2 ∧ HoldsAt (Memory.writeAll [] 3 bv.1) 3 bv.1 ∧ 3 + bv.1.length ≤ 13) ∧
    -2 ^ 63 ≤ (-2 ^ 63 : Int) ∧ (-2 ^ 63 : Int) < 2 ^ 63 := by
  refine ⟨by decide, fun bv hb => ?_, by decide, by decide⟩
  simp only [List.mem_cons, List.not_mem_nil, or_false] at hb
  rcases hb with rfl | rfl <;> exact ⟨by unfold IsUvarint; decide, holdsAt_of (by decide), by decide⟩

theorem witness_StepRunsPendingTransaction :
    (small.withFetchWord 32 3).pending = .transaction 0xF 0x10400000003 :: [] ∧
    decode (.transaction 0x10400000003) = .ok (.hwr 0x04 3) ∧
    (0x10400000003 : TransactionWord).toNat = 0x104 * 2 ^ 32 + (3 : Word).toNat ∧
    decode (.command 3) = .ok .deserialize := by decide

theorem witness_SubWordTransactions :
    (0x7 : BitVec 4) ≠ 0xF ∧
    ({ small with pending := [.transaction 0x7 0x10C00000001] } : State).pending = .transaction 0x7 0x10C00000001 :: [] ∧
    (0x10C00000001 : TransactionWord).toNat / 2 ^ 40 = 1 ∧
    ({ small with pending := [.transaction 0x7 0x00C00000000] } : State).pending = .transaction 0x7 0x00C00000000 :: [] ∧
    decode (.transaction 0x00C00000000) = .ok (.hrd 0x0C) := by decide

theorem witness_StepsThatRunNothing :
    small.pending = [] ∧
    ({ small with pending := [.transaction 0xF 0x00300000000] } : State).pending = .transaction 0xF 0x00300000000 :: [] ∧
    (0x00300000000 : TransactionWord).toNat / 2 ^ 32 % 4 ≠ 0 ∧ (0xFD : Offset).toNat % 4 ≠ 0 := by decide

theorem witness_ResetSetsEveryRegister :
    ({ coded [1, 1] with pending := [.reset (some 0x10400000001)] } : State).pending =
      .reset (some 0x10400000001) :: [] := by decide

/-- A command whose window is open when the reset comes. -/
def resetSoon (s : State) : State := { s with windows := [1], pending := [.reset none] }

theorem witness_ResetDuringPortWait :
    (∃ u, (resetSoon (coded [1, 1])).phase = .idle ∧ u.pending = .reset none :: [] ∧ u.phase.isBusy = true ∧
      exec .encode (resetSoon (coded [1, 1])) = .next u) ∧
    (∃ u, u.pending = .reset none :: [] ∧ u.phase.isBusy = true ∧
      exec .decode (resetSoon { coded [1, 1] with reader := [.bit true] }) = .next u) ∧
    ∃ u, u.pending = .reset none :: [] ∧ u.phase.isBusy = true ∧ exec .clear (resetSoon (coded [1, 1])) = .next u :=
  ⟨⟨_, rfl, rfl, rfl, rfl⟩, ⟨_, rfl, rfl, rfl⟩, ⟨_, rfl, rfl, rfl⟩⟩

theorem witness_StoredRegistersReadAndWrite :
    State.reset.phase = .idle ∧ decode (.command 0x00000006) = .ok .decode := by decide

theorem witness_ConstantRegistersAtAllTimes :
    ((0x58 : Offset), (32 : Word)) ∈ [((0x00 : Offset), (0x48554646 : Word)), (0x50, BitVec.ofNat 32 small.params.nMax),
      (0x54, BitVec.ofNat 32 small.params.cbBytes), (0x58, 32)] := by decide

theorem witness_StatusWordFields : (coded [1, 1]).phase = .idle := by decide

/-- The last entry, written and not; the first index past the end. -/
theorem witness_WeightPort :
    (∃ s : State, s.phase = .idle ∧ s.csr.widx.toNat < s.params.nMax ∧
      Memory.read? s.weights s.csr.widx.toNat = some 7 ∧ (64 : Nat) ≠ s.csr.widx.toNat) ∧
    (∃ s : State, s.phase = .idle ∧ s.csr.widx.toNat < s.params.nMax ∧ Memory.read? s.weights s.csr.widx.toNat = none) ∧
    ∃ s : State, s.phase = .idle ∧ s.params.nMax ≤ s.csr.widx.toNat :=
  ⟨⟨{ small with weights := [(63, 7)], csr := { small.csr with widx := 63 } }, by decide⟩,
    ⟨{ small with csr := { small.csr with widx := 63 } }, by decide⟩,
    ⟨{ small with csr := { small.csr with widx := 64 } }, by decide⟩⟩

theorem witness_CodebookPort :
    (∃ s : State, s.phase = .idle ∧ s.csr.cbidx.toNat < s.params.cbBytes ∧
      Memory.read? s.cb s.csr.cbidx.toNat = some 7 ∧ (80 : Nat) ≠ s.csr.cbidx.toNat) ∧
    (∃ s : State, s.phase = .idle ∧ s.csr.cbidx.toNat < s.params.cbBytes ∧ Memory.read? s.cb s.csr.cbidx.toNat = none) ∧
    ∃ s : State, s.phase = .idle ∧ s.params.cbBytes ≤ s.csr.cbidx.toNat :=
  ⟨⟨{ small with cb := [(79, 7)], csr := { small.csr with cbidx := 79 } }, by decide⟩,
    ⟨{ small with csr := { small.csr with cbidx := 79 } }, by decide⟩,
    ⟨{ small with csr := { small.csr with cbidx := 80 } }, by decide⟩⟩

/-- Every clause and its negation: k = 1, 2 (a symbol without a code), 3 (EOF), 4, 32 and 33, with three coded of four. -/
theorem witness_ReadbackRegisters :
    ∀ k ∈ [1, 2, 3, 4, 32, 33], ∃ s : State, s.phase = .idle ∧ s.csr.tidx.toNat = k ∧ s.ctx.valid = true ∧
      (k < s.ctx.nsym.toNat ↔ k ≤ 3) ∧ (k < s.ctx.ncoded.toNat ↔ k ≤ 2) ∧
      (k ≤ 3 → (1 ≤ (s.ctx.lenAt k).toNat ↔ k ≠ 2)) := by
  intro k hk
  refine ⟨{ coded [1, 2, 0, 2] with csr := { small.csr with tidx := BitVec.ofNat 32 k } }, ?_⟩
  simp only [List.mem_cons, List.not_mem_nil, or_false] at hk
  rcases hk with rfl | rfl | rfl | rfl | rfl | rfl <;> decide

theorem witness_HostReadHasNoSideEffect : small.phase = .idle ∧ (0x14 : Offset).toNat % 4 = 0 := by decide

theorem witness_ReservedAndReadOnlyOffsets :
    small.phase = .idle ∧ (0x5C : Offset).toNat % 4 = 0 ∧ 0x5C ≤ (0x5C : Offset).toNat ∧
    (0xFC : Offset).toNat % 4 = 0 ∧ 0x5C ≤ (0xFC : Offset).toNat ∧
    (0x58 : Offset) ∈ ([0x00, 0x08, 0x1C, 0x20, 0x24, 0x28, 0x40, 0x44, 0x48, 0x4C, 0x50, 0x54, 0x58] : List Offset) := by
  decide

/-- A state in the BUSY window. -/
def waiting (n : Nat) : State := { coded [1, 1] with phase := .busy .build n .none }

theorem witness_BusyWindowDropsWrites :
    (waiting 0).phase = .busy .build 0 .none ∧ (waiting 2).phase = .busy .build 2 .none ∧
    (0x04 : Offset).toNat % 4 = 0 ∧ Instr.clear = Op.clear.instr := by decide

theorem witness_BusyWindowReads :
    (waiting 0).phase = .busy .build 0 .none ∧ (0x08 : Offset).toNat % 4 = 0 ∧ (0x58 : Offset).toNat % 4 = 0 := by decide

theorem witness_BusyWindowCloses :
    (waiting 1).phase = .busy .build 1 .none ∧ [Instr.hrd 0x08, .hwr 0x04 1].length = 1 + 1 ∧
    ∀ i ∈ [Instr.hrd 0x08, .hwr 0x04 1], i.WellFormed := by decide

theorem witness_IllegalCommandWord :
    small.phase = .idle ∧ (0x00000100 : Word).toNat / 2 ^ 8 ≠ 0 ∧ 8 ≤ (0x00000008 : Word).toNat % 2 ^ 8 := by decide

theorem witness_NopEndsOk : small.phase = .idle := by decide

theorem witness_ClearDiscardsContext : (coded [1, 1]).phase = .idle := by decide

theorem witness_NoCodebookError :
    Op.decode ∈ [Op.serialize, .symlen, .encode, .decode] ∧ small.phase = .idle ∧ small.ctx.valid = false := by decide

theorem witness_CodesOfALengthAreContiguous :
    1 ≤ 1 ∧ 1 ≤ maxCodeLength ∧ 1 ≤ 32 ∧ 32 ≤ maxCodeLength ∧
    ∃ s, s < [1, 32, 32].length ∧ [1, 32, 32].getD s 0 = 32 ∧ canonCode [1, 32, 32] s = 2 ^ 31 + 1 :=
  ⟨by decide, by decide, by decide, by decide, 2, by decide⟩

theorem witness_OversubscriptionIsKraft :
    (∀ l ∈ [1, 2, 32, 0], l ≤ maxCodeLength) ∧ oversubscribed [1, 2, 32, 0] = false ∧ oversubscribed [1, 1, 32] = true := by
  decide

theorem witness_RadixFormIsSortForm : ∀ l ∈ [3, 5, 2, 4, 2, 0, 32], l ≤ maxCodeLength := by decide

/-- Two symbols, `0` and `1`. -/
theorem twoSymbols_wf : (canonContext [1, 1]).Wf ⟨64, 80⟩ where
  nsym_eq := by decide
  nsym_pos := by decide
  nsym_le := by decide
  eof_coded := by decide
  len_le := by decide
  numl_eq := by decide
  ncoded_eq := by decide
  maxlen_mem := by decide
  maxlen_ge := by decide
  sorted_coded := by
    intro s
    match s with
    | 0 => decide
    | 1 => decide
    | n + 2 => exact ⟨fun h => absurd h (by change n + 2 ∉ [0, 1]; simp), fun h => absurd h.1 (by simp [canonContext])⟩
  sorted_order := by unfold CanonBefore; decide
  code_canon := by decide
  kraft_le := by decide

theorem twoSymbols_inv : (coded [1, 1]).Inv where
  legal := by decide
  rams := ⟨rfl, rfl⟩
  weights_lt := by decide
  cb_lt := by decide
  valid_wf := fun _ => twoSymbols_wf
  invalid_zero := by intro h; cases h
  busy_not_done := by decide

theorem twoSymbols_coded : (canonContext [1, 1]).Coded 0 ∧ (canonContext [1, 1]).Coded 1 := by
  unfold Context.Coded
  decide

theorem witness_CodewordsArePrefixFree :
    (canonContext [1, 1]).Wf ⟨64, 80⟩ ∧ (canonContext [1, 1]).Coded 0 ∧ (canonContext [1, 1]).Coded 1 ∧ 0 ≠ 1 :=
  ⟨twoSymbols_wf, twoSymbols_coded.1, twoSymbols_coded.2, by decide⟩

theorem witness_QueueIsInPriorityOrder :
    ((2, 4) : Nat × Nat) ∉ [(1, 3), (2, 5)] ∧
    [((1 : Nat), (3 : Nat)), (2, 5)].Pairwise (fun a b => a.1 < b.1 ∨ a.1 = b.1 ∧ a.2 < b.2) := by decide

/-- At V-B10's first merge the EOF leaf 4 and leaves 1 and 3 are in the queue, and symbol 0 is not. -/
theorem witness_TreeHasOneMergePerLeafButOne :
    3 = 1 + [0, 2, 0, 2].countP (fun w => decide (0 < w)) ∧ ⟨5, 4, 1⟩ ∈ buildTree [0, 2, 0, 2] ∧
    LiveBefore [0, 2, 0, 2] 5 4 ∧ LiveBefore [0, 2, 0, 2] 5 1 ∧ LiveBefore [0, 2, 0, 2] 5 3 ∧
    ¬ LiveBefore [0, 2, 0, 2] 5 0 ∧ LiveBefore [0, 2, 0, 2] 6 5 ∧ ¬ LiveBefore [0, 2, 0, 2] 6 4 := by
  unfold LiveBefore
  decide

theorem witness_DepthsFollowTheTree :
    walkDepths (buildTree [0, 2, 0, 2]) (List.replicate ([0, 2, 0, 2].length + 1 + (buildTree [0, 2, 0, 2]).length) 0) =
      [0, 2, 0, 1, 2, 1, 0] := by decide

theorem witness_BuildTreeIsComplete :
    (∃ w ∈ [0, 2, 0, 2], 0 < w) ∧ ∀ l ∈ codeLengths [0, 2, 0, 2], l ≤ 2 := by decide

theorem witness_DegenerateTrees : (∀ w ∈ [0, 0], w = 0) ∧ 0 < 1 := by decide

/-- V-B7: 33 Fibonacci weights. -/
def fibonacci : List Word :=
  [1, 1, 2, 3, 5, 8, 13, 21, 34, 55, 89, 144, 233, 377, 610, 987, 1597, 2584, 4181, 6765, 10946, 17711] ++
  [28657, 46368, 75025, 121393, 196418, 317811, 514229, 832040, 1346269, 2178309, 3524578]

/-- RANGE one past N_MAX; LENGTH_OVERFLOW at V-B7. -/
theorem witness_BuildErrors :
    (∃ s : State, s.phase = .idle ∧ s.params.nMax < s.csr.alpha.toNat) ∧
    ∃ s : State, s.phase = .idle ∧ s.csr.alpha.toNat ≤ s.params.nMax ∧ fibonacci.length = s.csr.alpha.toNat ∧
      HoldsAt s.weights 0 fibonacci ∧ ∃ l ∈ codeLengths (fibonacci.map BitVec.toNat), maxCodeLength < l :=
  ⟨⟨{ small with csr := { small.csr with alpha := 65 } }, by decide⟩,
    ⟨weighted fibonacci, by decide, by decide, by decide, holdsAt_of (by decide), by decide⟩⟩

theorem witness_BuildOverNeverWrittenFaults :
    ∃ s : State, s.phase = .idle ∧ s.csr.alpha.toNat ≤ s.params.nMax ∧ 63 < s.csr.alpha.toNat ∧
      Memory.read? s.weights 63 = none :=
  ⟨{ small with csr := { small.csr with alpha := 64 } }, by decide⟩

theorem witness_BuildCommitsContext :
    (weighted [0, 2, 0, 2]).phase = .idle ∧ Legal (weighted [0, 2, 0, 2]).params ∧
    (weighted [0, 2, 0, 2]).csr.alpha.toNat ≤ (weighted [0, 2, 0, 2]).params.nMax ∧
    [0, 2, 0, 2].length = (weighted [0, 2, 0, 2]).csr.alpha.toNat ∧
    HoldsAt (weighted [0, 2, 0, 2]).weights 0 [0, 2, 0, 2] ∧
    ∀ l ∈ codeLengths (([0, 2, 0, 2] : List Word).map BitVec.toNat), l ≤ maxCodeLength :=
  ⟨by decide, by decide, by decide, by decide, holdsAt_of (by decide), by decide⟩

theorem witness_SerializeWritesCodebook :
    (coded [32, 1, 32]).phase = .idle ∧ (coded [32, 1, 32]).ctx.valid = true ∧
    ∀ i, i < (coded [32, 1, 32]).ctx.nsym.toNat → ((coded [32, 1, 32]).ctx.lenAt i).toNat ≤ maxCodeLength := by decide

/-- CBLEN one past CB_BYTES; count 0; count one past the bound, 65 of at most N_MAX + 1 = 65 with DLIM = 64 (R128). -/
theorem witness_DeserializeBoundsComeFirst :
    (∃ s : State, s.phase = .idle ∧ s.params.cbBytes < s.csr.cblen.toNat) ∧
    (∃ s : State, s.phase = .idle ∧ s.csr.cblen.toNat ≤ s.params.cbBytes ∧ IsUvarint [0x00] 0 ∧
      HoldsAt s.cb 0 [0x00] ∧ ([0x00] : List Byte).length ≤ s.csr.cblen.toNat) ∧
    ∃ s : State, s.phase = .idle ∧ s.csr.cblen.toNat ≤ s.params.cbBytes ∧ IsUvarint [0x41] 65 ∧
      HoldsAt s.cb 0 [0x41] ∧ ([0x41] : List Byte).length ≤ s.csr.cblen.toNat ∧
      min s.csr.dlim.toNat (s.params.nMax + 1) < 65 :=
  ⟨⟨{ small with csr := { small.csr with cblen := 81 } }, by decide⟩,
    ⟨buffered [0x00], rfl, by decide, by unfold IsUvarint; decide, holdsAt_of (by decide), by decide⟩,
    ⟨{ small with cb := [(0, 0x41)], csr := { small.csr with cblen := 1, dlim := 64 } }, rfl, by decide,
      by unfold IsUvarint; decide, holdsAt_of (by decide), by decide, by decide⟩⟩

/-- The bytes of two lengths, the first of them in two bytes. -/
def twoLengths (a b : Byte) : List (List Byte) := [[a ||| 0x80, 0x00], [b]]

/-- A codebook that is accepted (V-D15) and three that are not, by a length of -1, of 33, and by the EOF length (V-D2, V-D3,
V-D8). -/
theorem witness_DeserializeAcceptsExactlyValidCodebooks :
    ∀ c ∈ ([(twoLengths 0x00 0x02, [0, 1]), (twoLengths 0x01 0x02, [-1, 1]), (twoLengths 0x42 0x02, [33, 1]),
        (twoLengths 0x02 0x00, [1, 0])] : List (List (List Byte) × List Int)),
      (buffered ([0x02] ++ c.1.flatten)).phase = .idle ∧ Legal (buffered ([0x02] ++ c.1.flatten)).params ∧
      (buffered ([0x02] ++ c.1.flatten)).csr.cblen.toNat ≤ (buffered ([0x02] ++ c.1.flatten)).params.cbBytes ∧
      IsUvarint [0x02] c.2.length ∧ AreSvarints c.1 c.2 ∧
      HoldsAt (buffered ([0x02] ++ c.1.flatten)).cb 0 ([0x02] ++ c.1.flatten) ∧
      ([0x02] ++ c.1.flatten).length ≤ (buffered ([0x02] ++ c.1.flatten)).csr.cblen.toNat ∧
      (ValidLengths (min (buffered ([0x02] ++ c.1.flatten)).csr.dlim.toNat
        ((buffered ([0x02] ++ c.1.flatten)).params.nMax + 1)) c.2 ↔ c.2 = [0, 1]) := by
  intro c hc
  simp only [List.mem_cons, List.not_mem_nil, or_false] at hc
  rcases hc with rfl | rfl | rfl | rfl <;>
    exact ⟨rfl, by decide, by decide, by unfold IsUvarint; decide,
      by simp only [twoLengths, AreSvarints, IsUvarint]; decide, holdsAt_of (by decide), by decide,
      by unfold ValidLengths; decide⟩

/-- V-D4, cut after three of seven lengths; V-D5, cut in the count; V-D13, a count too large for 64 bits. -/
theorem witness_DeserializeRejectsUnparsable :
    (∃ s : State, s.phase = .idle ∧ s.csr.cblen.toNat ≤ s.params.cbBytes ∧ IsUvarint [0x07] 7 ∧ 3 < 7 ∧
      AreSvarints [[0x06], [0x0A], [0x04]] [3, 5, 2] ∧
      HoldsAt s.cb 0 ([0x07] ++ [[0x06], [0x0A], [0x04]].flatten ++ []) ∧
      ([0x07] ++ ([[0x06], [0x0A], [0x04]] : List (List Byte)).flatten ++ []).length = s.csr.cblen.toNat) ∧
    (∃ s : State, s.phase = .idle ∧ s.csr.cblen.toNat ≤ s.params.cbBytes ∧ HoldsAt s.cb 0 [0x81] ∧
      ([0x81] : List Byte).length = s.csr.cblen.toNat ∧ ∀ b ∈ ([0x81] : List Byte), 0x80 ≤ b.toNat) ∧
    ∃ (s : State) (tail : List Byte), s.phase = .idle ∧ s.csr.cblen.toNat ≤ s.params.cbBytes ∧ HoldsAt s.cb 0 tail ∧
      tail.length ≤ s.csr.cblen.toNat ∧ tail.length = 10 ∧ (∀ b ∈ tail.dropLast, 0x80 ≤ b.toNat) ∧
      ∀ b ∈ tail.getLast?, 2 ≤ b.toNat :=
  ⟨⟨buffered [0x07, 0x06, 0x0A, 0x04], rfl, by decide, by unfold IsUvarint; decide, by decide,
      by simp only [AreSvarints, IsUvarint]; decide, holdsAt_of (by decide), by decide⟩,
    ⟨buffered [0x81], rfl, by decide, holdsAt_of (by decide), by decide, by decide⟩,
    ⟨buffered [0x80, 0x80, 0x80, 0x80, 0x80, 0x80, 0x80, 0x80, 0x80, 0x02],
      [0x80, 0x80, 0x80, 0x80, 0x80, 0x80, 0x80, 0x80, 0x80, 0x02], rfl, by decide, holdsAt_of (by decide), by decide,
      by decide, by decide, by decide⟩⟩

/-- Every byte written. Never written: the count's first byte; the tenth byte of the second length, after nine with bit 7 set.
And a fault. -/
theorem witness_DeserializeEndsOrFaults :
    ((buffered [0x02, 0x02, 0x02]).phase = .idle ∧
      (buffered [0x02, 0x02, 0x02]).csr.cblen.toNat ≤ (buffered [0x02, 0x02, 0x02]).params.cbBytes ∧
      ∀ i, i < (buffered [0x02, 0x02, 0x02]).csr.cblen.toNat → Memory.read? (buffered [0x02, 0x02, 0x02]).cb i ≠ none) ∧
    (∃ s : State, s.phase = .idle ∧ s.csr.cblen.toNat ≤ s.params.cbBytes ∧ HoldsAt s.cb 0 [] ∧
      0 < s.csr.cblen.toNat ∧ Memory.read? s.cb 0 = none) ∧
    (∃ (s : State) (tail : List Byte), s.phase = .idle ∧ s.csr.cblen.toNat ≤ s.params.cbBytes ∧ IsUvarint [0x02] 2 ∧
      2 ≤ min s.csr.dlim.toNat (s.params.nMax + 1) ∧ ([[0x40]] : List (List Byte)).length < 2 ∧
      AreSvarints [[0x40]] [32] ∧ (∀ v ∈ ([32] : List Int), 0 ≤ v ∧ v ≤ 32) ∧ tail.length < 10 ∧
      (∀ b ∈ tail, 0x80 ≤ b.toNat) ∧ HoldsAt s.cb 0 ([0x02] ++ [[0x40]].flatten ++ tail) ∧
      11 = ([0x02] ++ ([[0x40]] : List (List Byte)).flatten ++ tail).length ∧ 11 < s.csr.cblen.toNat ∧
      Memory.read? s.cb 11 = none) ∧
    ∃ s : State, s.phase = .idle ∧ s.csr.cblen.toNat ≤ s.params.cbBytes ∧
      exec .deserialize s = .fault (.neverWrittenByte 2) :=
  ⟨by decide, ⟨{ small with csr := { small.csr with cblen := 1 } }, rfl, by decide, holdsAt_of (by decide), by decide, rfl⟩,
    ⟨{ buffered ([0x02, 0x40] ++ List.replicate 9 0x80) with csr := { small.csr with cblen := 80 } }, List.replicate 9 0x80,
      rfl, by decide, by unfold IsUvarint; decide, by decide, by decide, by simp only [AreSvarints, IsUvarint]; decide,
      by decide, by decide, by decide, holdsAt_of (by decide), by decide, by decide, by decide⟩,
    ⟨{ buffered [0x02, 0x02] with csr := { small.csr with cblen := 80 } }, rfl, by decide, rfl⟩⟩

theorem witness_FailingRebuildInvalidates :
    (∃ t, Instr.build ∈ [Instr.build, .deserialize] ∧
      ({ coded [1, 1] with csr := { small.csr with alpha := 65 } } : State).phase = .idle ∧
      exec .build { coded [1, 1] with csr := { small.csr with alpha := 65 } } = .next t ∧ t.flags.err ≠ .ok) ∧
    ∃ t, Instr.deserialize ∈ [Instr.build, .deserialize] ∧ (coded [1, 1]).phase = .idle ∧
      exec .deserialize (coded [1, 1]) = .next t ∧ t.flags.err ≠ .ok :=
  ⟨⟨_, by decide, rfl, rfl, by decide⟩, ⟨_, by decide, rfl, rfl, by decide⟩⟩

theorem witness_SerializeDeserializeRoundTrip :
    (coded [1, 1]).Inv ∧ (coded [1, 1]).phase = .idle ∧ (coded [1, 1]).ctx.valid = true ∧
    (coded [1, 1]).ctx.nsym.toNat + 5 < 2 ^ 32 ∧
    ∃ t u : State, exec .serialize (coded [1, 1]) = .next t ∧ u.phase = .idle ∧ u.params = (coded [1, 1]).params ∧
      (coded [1, 1]).ctx.nsym.toNat ≤ u.csr.dlim.toNat ∧ u.csr.cblen = t.csr.cblen ∧
      ∀ i, i < t.csr.cblen.toNat → Memory.read? u.cb i = Memory.read? t.cb i :=
  ⟨twoSymbols_inv, rfl, rfl, by decide, _, buffered [0x02, 0x02, 0x02], rfl, rfl, rfl, by decide, by decide, by decide⟩

/-- A coded symbol, a symbol without a code, EOF by its id and by the sentinel, and the first id past the alphabet. -/
theorem witness_SymlenReportsLength :
    small.ctx.valid = false ∧
    ∀ v ∈ ([0, 1, 2, 0xFFFFFFFF, 3] : List Word), ∃ s : State, s.phase = .idle ∧ s.ctx.valid = true ∧ s.csr.sym = v ∧
      (s.ctx.nsym.toNat ≤ (if s.csr.sym = 0xFFFFFFFF then s.ctx.nsym.toNat - 1 else s.csr.sym.toNat) ↔ v = 3) := by
  refine ⟨rfl, fun v hv => ?_⟩
  refine ⟨withSym (coded [1, 0, 1]) v, rfl, rfl, rfl, ?_⟩
  simp only [List.mem_cons, List.not_mem_nil, or_false] at hv
  rcases hv with rfl | rfl | rfl | rfl | rfl <;> decide

theorem witness_EncodeWritesCodeword :
    small.ctx.valid = false ∧
    ∀ v ∈ ([0, 1, 2, 0xFFFFFFFF, 3] : List Word), ∃ s : State, s.phase = .idle ∧ s.ctx.valid = true ∧ s.csr.sym = v ∧
      (s.ctx.Coded (if s.csr.sym = 0xFFFFFFFF then s.ctx.nsym.toNat - 1 else s.csr.sym.toNat) ↔ v ≠ 3 ∧ v ≠ 1) := by
  refine ⟨rfl, fun v hv => ?_⟩
  refine ⟨withSym (coded [1, 0, 1]) v, rfl, rfl, rfl, ?_⟩
  unfold Context.Coded
  simp only [List.mem_cons, List.not_mem_nil, or_false] at hv
  rcases hv with rfl | rfl | rfl | rfl | rfl <;> decide

/-- A symbol by its id, EOF by its id and EOF by the sentinel. -/
theorem witness_TransferFitsItsLength :
    ∀ v ∈ ([0, 1, 0xFFFFFFFF] : List Word), ∃ s : State, s.Inv ∧ s.phase = .idle ∧ s.ctx.valid = true ∧ s.csr.sym = v ∧
      s.ctx.Coded (s.ctx.idOf s.csr.sym) := by
  intro v hv
  refine ⟨withSym (coded [1, 1]) v, { twoSymbols_inv with }, rfl, rfl, rfl, ?_⟩
  simp only [List.mem_cons, List.not_mem_nil, or_false] at hv
  rcases hv with rfl | rfl | rfl
  · exact twoSymbols_coded.1
  · exact twoSymbols_coded.2
  · exact twoSymbols_coded.2

/-- The two-symbol context with some answers to come. -/
def reading (answers : List Answer) : State := { coded [1, 1] with reader := answers }

/-- Each of the three ends: a symbol, the end of the stream, and no codeword (V-X8). -/
theorem witness_DecodeEndsInThreeWays :
    (∃ s t : State, s.phase = .idle ∧ s.ctx.valid = true ∧ exec .decode s = .next t ∧ t.flags.err = .ok) ∧
    (∃ s t : State, s.phase = .idle ∧ s.ctx.valid = true ∧ exec .decode s = .next t ∧ t.flags.err = .endOfStream) ∧
    ∃ s t : State, s.phase = .idle ∧ s.ctx.valid = true ∧ exec .decode s = .next t ∧ t.flags.err = .unknownSymbol :=
  ⟨⟨reading [.bit true], _, rfl, rfl, rfl, rfl⟩, ⟨reading [.eos], _, rfl, rfl, rfl, rfl⟩,
    ⟨{ coded [1] with reader := [.bit true] }, _, rfl, rfl, rfl, rfl⟩⟩

theorem witness_DecodeReturnsTheCodewordsSymbol :
    (reading [.bit true, .eos]).phase = .idle ∧ (reading [.bit true, .eos]).ctx.valid = true ∧
    (reading [.bit true, .eos]).ctx.Wf (reading [.bit true, .eos]).params ∧ (reading [.bit true, .eos]).ctx.Coded 1 ∧
    (reading [.bit true, .eos]).reader = bitAnswers ((reading [.bit true, .eos]).ctx.codeword 1) ++ [.eos] :=
  ⟨rfl, rfl, twoSymbols_wf, twoSymbols_coded.2, by decide⟩

/-- No codeword is a prefix of no bits. -/
theorem twoSymbols_not_prefix_nil (id : Nat) (h : (canonContext [1, 1]).Coded id) :
    ¬ List.IsPrefix ((canonContext [1, 1]).codeword id) [] := by
  obtain ⟨h, -⟩ := h
  match id, h with
  | 0, _ => decide
  | 1, _ => decide
  | n + 2, h => exact absurd h (by simp [canonContext])

theorem witness_DecodeReportsEndOfStream :
    (∀ s ∈ [reading [.eos, .bit true], reading []],
      s.phase = .idle ∧ s.ctx.valid = true ∧ s.ctx.Wf s.params ∧ 0 < s.ctx.maxlen.toNat ∧
      ∀ id, s.ctx.Coded id → ¬ List.IsPrefix (s.ctx.codeword id) []) ∧
    (reading [.eos, .bit true]).reader = bitAnswers [] ++ .eos :: [.bit true] ∧
    (reading []).reader = bitAnswers [] := by
  refine ⟨fun s hs => ?_, by decide, by decide⟩
  simp only [List.mem_cons, List.not_mem_nil, or_false] at hs
  rcases hs with rfl | rfl <;> exact ⟨rfl, rfl, twoSymbols_wf, by decide, twoSymbols_not_prefix_nil⟩

/-- EOF alone, with the codeword `0` (V-B2). -/
theorem oneSymbol_wf : (canonContext [1]).Wf ⟨64, 80⟩ where
  nsym_eq := by decide
  nsym_pos := by decide
  nsym_le := by decide
  eof_coded := by decide
  len_le := by decide
  numl_eq := by decide
  ncoded_eq := by decide
  maxlen_mem := by decide
  maxlen_ge := by decide
  sorted_coded := by
    intro s
    match s with
    | 0 => decide
    | n + 1 => exact ⟨fun h => absurd h (by change n + 1 ∉ [0]; simp), fun h => absurd h.1 (by simp [canonContext])⟩
  sorted_order := by unfold CanonBefore; decide
  code_canon := by decide
  kraft_le := by decide

/-- V-X8. -/
theorem witness_NoMatchOnlyInIncompleteCodes :
    ({ coded [1] with reader := [.bit true] } : State).phase = .idle ∧ (coded [1]).ctx.valid = true ∧
    (coded [1]).ctx.Wf (coded [1]).params ∧ [true].length = (coded [1]).ctx.maxlen.toNat ∧
    ({ coded [1] with reader := [.bit true] } : State).reader = bitAnswers [true] ++ [] ∧
    ∀ id, (coded [1]).ctx.Coded id → ¬ List.IsPrefix ((coded [1]).ctx.codeword id) [true] := by
  refine ⟨rfl, rfl, oneSymbol_wf, by decide, by decide, fun id h => ?_⟩
  obtain ⟨h, -⟩ := h
  match id, h with
  | 0, _ => decide
  | n + 1, h => exact absurd h (by simp [coded, canonContext])

/-- Symbol 0 and EOF by the sentinel, with windows of one and two transactions after the first command's and the second's
acceptance. -/
theorem witness_EncodeDecodeRoundTrip :
    ∃ s u t : State, s.Inv ∧ s.phase = .idle ∧ s.ctx.valid = true ∧
      (∀ v ∈ ([0, 0xFFFFFFFF] : List Word), s.ctx.Coded (s.ctx.idOf v)) ∧ Encodes [0, 0xFFFFFFFF] s t ∧
      u.Inv ∧ u.phase = .idle ∧ s.ctx.Same u.ctx ∧ s.writer = [] ∧
      u.reader = bitAnswers (t.writer.flatMap Transfer.bits) ++ [.bit true] :=
  ⟨{ coded [1, 1] with windows := [1, 2] },
    { coded [1, 1] with windows := [3], reader := [.bit false, .bit true, .bit true] }, _,
    { twoSymbols_inv with }, rfl, rfl,
    fun v hv => by
      simp only [List.mem_cons, List.not_mem_nil, or_false] at hv
      rcases hv with rfl | rfl
      · exact twoSymbols_coded.1
      · exact twoSymbols_coded.2,
    ⟨_, _, _, rfl, rfl, rfl, rfl, rfl, _, _, _, rfl, rfl, rfl, rfl, rfl, rfl⟩,
    { twoSymbols_inv with }, rfl,
    ⟨rfl, rfl, rfl, rfl, fun _ _ => rfl, fun _ _ _ => rfl, fun _ _ => rfl, fun _ _ => rfl⟩, rfl, by decide⟩

/-- A state whose next step runs a command word. -/
def next (s : State) (w : Nat) : State := s.withFetchWord 32 w

theorem witness_ContextChangesOnlyByRebuild :
    (∃ t, step (next (coded [1, 1]) 7) = .next t ∧ t.ctx ≠ (next (coded [1, 1]) 7).ctx) ∧
    ∃ t, step (next (weighted [7]) 1) = .next t ∧ (next (weighted [7]) 1).ctx.valid = false ∧ t.ctx.valid = true :=
  ⟨⟨_, rfl, by decide⟩, ⟨_, rfl, rfl, rfl⟩⟩

theorem witness_StreamsDrivenOnlyByTheirCommands :
    (∃ t, step (next (coded [1, 1]) 5) = .next t ∧ t.writer ≠ (next (coded [1, 1]) 5).writer) ∧
    ∃ t, step (next (reading [.bit true]) 6) = .next t ∧ t.reader ≠ (next (reading [.bit true]) 6).reader :=
  ⟨⟨_, rfl, by decide⟩, ⟨_, rfl, by decide⟩⟩

theorem witness_RamsAndOverrunChangeOnlyByTheirWriters :
    (∃ t, step (small.withFetchWord 48 0x11400000005) = .next t ∧ Memory.read? t.weights 0 ≠ Memory.read? small.weights 0) ∧
    (∃ t, step (next (coded [1, 1]) 2) = .next t ∧ Memory.read? t.cb 2 ≠ Memory.read? small.cb 2) ∧
    ∃ s t : State, step s = .next t ∧ s.flags.ovr = true ∧ t.flags.ovr = false :=
  ⟨⟨_, rfl, by decide⟩, ⟨_, rfl, by decide⟩, ⟨next { small with flags := ⟨true, true, .ok, 0⟩ } 7, _, rfl, rfl, rfl⟩⟩

theorem witness_StepKeepsCanonicalForms :
    small.RamsCanonical ∧ small.InvalidIsZero ∧ ∃ t, step (small.withFetchWord 48 0x11400000005) = .next t :=
  ⟨⟨rfl, rfl⟩, fun _ => ⟨rfl, rfl, rfl⟩, _, rfl⟩

theorem witness_StepKeepsInvariant :
    (next (coded [1, 1]) 5).Inv ∧ ∃ t, step (next (coded [1, 1]) 5) = .next t :=
  ⟨{ twoSymbols_inv with }, _, rfl⟩

theorem witness_ResetHasInvariant : Legal ⟨1, 3⟩ ∧ Legal ⟨2 ^ 32 - 2, 2 ^ 32 + 4⟩ := by decide

end Sys2Proof.Tests
end

section
/-! PROOFS. CANON: the first codes and the Kraft sum, the order of SORTED, the source's sort form, and the context
that CANON commits (R113 to R119). -/

namespace Sys2Proof.Machine

/-! ## The numbers of CANON (R113) -/

theorem firstCode_succ (lt : List Nat) {l : Nat} (h : 1 ≤ l) :
    firstCode lt (l + 1) = 2 * (firstCode lt l + lt.count l) := by
  obtain ⟨k, rfl⟩ := Nat.exists_eq_add_of_le' h
  simp only [firstCode, lengthCount, Nat.shiftLeft_eq]
  omega

theorem rankBase_succ (lt : List Nat) {l : Nat} (h : 1 ≤ l) :
    rankBase lt (l + 1) = rankBase lt l + lt.count l := by
  obtain ⟨k, rfl⟩ := Nat.exists_eq_add_of_le' h
  rfl

/-- NCODED counts the lengths from 1 up. -/
theorem rankBase_eq_sum (lt : List Nat) (l : Nat) :
    rankBase lt (l + 1) = ((List.range' 1 l).map fun m => lt.count m).sum := by
  induction l with
  | zero => rfl
  | succ l ih => rw [rankBase_succ lt (by omega), ih, List.range'_1_concat]; simp [Nat.add_comm]

/-- `base[L]` counts the coded symbols shorter than L. -/
theorem rankBase_eq_countP (lt : List Nat) (l : Nat) :
    rankBase lt l = lt.countP fun x => decide (1 ≤ x ∧ x < l) := by
  induction l with
  | zero => simp [rankBase]
  | succ l ih =>
    rcases Nat.eq_zero_or_pos l with rfl | hl
    · exact (List.countP_eq_zero.2 fun x _ => by simp; omega).symm
    · rw [rankBase_succ lt hl, ih]
      clear ih
      induction lt with
      | nil => rfl
      | cons x lt ih => simp only [List.countP_cons, List.count_cons, decide_eq_true_eq, beq_iff_eq, ← ih]; grind

theorem rankBase_le_length (lt : List Nat) (l : Nat) : rankBase lt l ≤ lt.length :=
  rankBase_eq_countP lt l ▸ List.countP_le_length

/-- What a length `x` adds to the Kraft sum in units of 2^-l, when only lengths up to `l` count. -/
def kraftTerm (l x : Nat) : Nat := if x = 0 ∨ l < x then 0 else 2 ^ (l - x)

theorem sum_kraftTerm_succ (lt : List Nat) (l : Nat) :
    (lt.map (kraftTerm (l + 1))).sum = 2 * (lt.map (kraftTerm l)).sum + lt.count (l + 1) := by
  induction lt with
  | nil => rfl
  | cons x lt ih =>
    have hx : kraftTerm (l + 1) x = 2 * kraftTerm l x + if x = l + 1 then 1 else 0 := by
      unfold kraftTerm
      rcases Nat.lt_trichotomy x (l + 1) with h | rfl | h
      · rw [show l + 1 - x = (l - x) + 1 by omega, Nat.pow_succ]
        grind
      · simp
      · simp [show l + 1 < x from h, show l < x by omega, show x ≠ l + 1 by omega]
    simp only [List.map_cons, List.sum_cons, ih, hx, List.count_cons, beq_iff_eq]
    omega

/-- The codes up to length `l` take exactly the Kraft sum of the lengths up to `l`. -/
theorem firstCode_add_count (lt : List Nat) {l : Nat} (h : 1 ≤ l) :
    firstCode lt l + lt.count l = (lt.map (kraftTerm l)).sum := by
  induction l, h using Nat.le_induction with
  | base =>
    have h0 : (lt.map (kraftTerm 0)).sum = 0 := List.sum_eq_zero_iff.2 (by simp [kraftTerm, Nat.pos_iff_ne_zero, em])
    rw [sum_kraftTerm_succ, h0]
    simp [firstCode]
  | succ l hl ih => rw [sum_kraftTerm_succ, firstCode_succ lt hl, ih]

theorem kraft_eq_firstCode_add_count {lt : List Nat} (h : ∀ l ∈ lt, l ≤ maxCodeLength) :
    kraft lt = firstCode lt maxCodeLength + lt.count maxCodeLength := by
  rw [firstCode_add_count lt (by decide), kraft]
  congr 1
  refine List.map_congr_left fun l hl => ?_
  have := h l hl
  simp [kraftTerm, show ¬ maxCodeLength < l by omega]

/-- A code space of `l` bits that is not exceeded leaves no shorter one exceeded. -/
theorem firstCode_add_count_le {lt : List Nat} {l m : Nat} (hl : 1 ≤ l) (hlm : l ≤ m)
    (h : firstCode lt m + lt.count m ≤ 2 ^ m) : firstCode lt l + lt.count l ≤ 2 ^ l := by
  induction m, hlm using Nat.le_induction with
  | base => exact h
  | succ m hm ih =>
    rw [firstCode_succ lt (by omega), Nat.pow_succ] at h
    exact ih (by omega)

theorem oversubscribed_eq_false_iff (lt : List Nat) :
    oversubscribed lt = false ↔ firstCode lt maxCodeLength + lt.count maxCodeLength ≤ 2 ^ maxCodeLength := by
  have hiff : oversubscribed lt = false ↔ ∀ l ∈ allLengths, firstCode lt l + lt.count l ≤ 2 ^ l := by
    simp only [oversubscribed, List.any_eq_false, decide_eq_true_eq, not_lt]
    rfl
  rw [hiff]
  constructor
  · exact fun h => h _ (by decide)
  · intro h l hl
    obtain ⟨h1, h2⟩ := List.mem_range'_1.1 hl
    exact firstCode_add_count_le h1 (by omega) h

/-- The check of CANON passes exactly when the Kraft sum is at most 1 (R119). -/
theorem oversubscribed_eq_false_iff_kraft {lt : List Nat} (h : ∀ l ∈ lt, l ≤ maxCodeLength) :
    oversubscribed lt = false ↔ kraft lt ≤ 2 ^ maxCodeLength := by
  rw [oversubscribed_eq_false_iff, kraft_eq_firstCode_add_count h]

/-- The rank of a symbol among those of its length is below their number. -/
theorem rankOf_lt_count {lt : List Nat} {s : Nat} (h : s < lt.length) : rankOf lt s < lt.count (lt.getD s 0) := by
  rw [rankOf, List.getD_eq_getElem _ _ h]
  calc (lt.take s).count lt[s]
      < (lt.take s).count lt[s] + (lt.drop s).count lt[s] := by
        rw [List.drop_eq_getElem_cons h, List.count_cons_self]
        omega
    _ = lt.count lt[s] := by rw [← List.count_append, List.take_append_drop]

/-- Within the Kraft bound a code fits its length (R114). -/
theorem canonCode_lt {lt : List Nat} {s : Nat} (hlen : ∀ l ∈ lt, l ≤ maxCodeLength) (hk : kraft lt ≤ 2 ^ maxCodeLength)
    (hs : s < lt.length) (hc : 1 ≤ lt.getD s 0) : canonCode lt s < 2 ^ lt.getD s 0 := by
  have hle : lt.getD s 0 ≤ maxCodeLength := by
    rw [List.getD_eq_getElem _ _ hs]
    exact hlen _ (List.getElem_mem hs)
  rw [kraft_eq_firstCode_add_count hlen] at hk
  have := firstCode_add_count_le hc hle hk
  have := rankOf_lt_count hs
  unfold canonCode
  omega

/-! ## The order of SORTED and the source's sort form (R115 to R117) -/

theorem mem_symbolsOfLength {lt : List Nat} {l s : Nat} :
    s ∈ symbolsOfLength lt l ↔ s < lt.length ∧ lt.getD s 0 = l := by simp [symbolsOfLength]

theorem mem_sortedSymbols {lt : List Nat} (h : ∀ l ∈ lt, l ≤ maxCodeLength) (s : Nat) :
    s ∈ sortedSymbols lt ↔ s < lt.length ∧ 1 ≤ lt.getD s 0 := by
  simp only [sortedSymbols, allLengths, List.mem_flatMap, mem_symbolsOfLength, List.mem_range'_1]
  constructor
  · rintro ⟨l, ⟨hl, -⟩, hs, rfl⟩
    exact ⟨hs, hl⟩
  · rintro ⟨hs, hc⟩
    have : lt.getD s 0 ≤ maxCodeLength := by
      rw [List.getD_eq_getElem _ _ hs]
      exact h _ (List.getElem_mem hs)
    exact ⟨_, ⟨hc, by omega⟩, hs, rfl⟩

theorem sortedSymbols_pairwise (lt : List Nat) : (sortedSymbols lt).Pairwise (CanonBefore lt) := by
  rw [sortedSymbols, List.pairwise_flatMap]
  constructor
  · intro l _
    rw [symbolsOfLength]
    refine (List.pairwise_lt_range.filter _).imp_of_mem fun {s t} hs ht hst => .inr ⟨?_, hst⟩
    rw [(mem_symbolsOfLength.1 hs).2, (mem_symbolsOfLength.1 ht).2]
  · refine (List.pairwise_lt_range' 1 Nat.one_pos).imp fun {l m} hlm s hs t ht => .inl ?_
    rw [(mem_symbolsOfLength.1 hs).2, (mem_symbolsOfLength.1 ht).2]
    exact hlm

/-- The source's running `code` and `prev` (R116) stand for the code `c` of length `l`: shifted up to `l` bits. -/
def AtCode (l c code prev : Nat) : Prop := prev ≤ l ∧ code * 2 ^ (l - prev) = c

theorem AtCode.succ {l c code prev : Nat} (h : AtCode l c code prev) : AtCode (l + 1) (2 * c) code prev := by
  obtain ⟨hp, hc⟩ := h
  refine ⟨by omega, ?_⟩
  rw [show l + 1 - prev = l - prev + 1 by omega, Nat.pow_succ, ← hc]
  ring

/-- The source gives its next symbol, of length `l`, the code it stands at. -/
theorem sortFormFrom_cons {lt : List Nat} {l c code prev s : Nat} (rest : List Nat) (h : AtCode l c code prev)
    (hs : lt.getD s 0 = l) :
    sortFormFrom lt code prev (s :: rest) = (s, c) :: sortFormFrom lt (c + 1) l rest := by
  obtain ⟨hp, hc⟩ := h
  have : (if prev < l then code <<< (l - prev) else code) = c := by
    split
    · rw [Nat.shiftLeft_eq, hc]
    · simpa [show l - prev = 0 by omega] using hc
  rw [sortFormFrom]
  simp only [hs, this]

/-- The run of symbols of one length from id `a` on: each gets `first[l]` plus its rank, and after the run the source
stands behind the codes of that length. -/
theorem sortFormFrom_run {lt : List Nat} {l : Nat} (rest : List Nat) (k a code prev : Nat) (ha : a + k = lt.length)
    (h : AtCode l (firstCode lt l + (lt.take a).count l) code prev) :
    ∃ code' prev', AtCode l (firstCode lt l + lt.count l) code' prev' ∧
      sortFormFrom lt code prev ((List.range' a k).filter (fun s => decide (lt.getD s 0 = l)) ++ rest) =
        ((List.range' a k).filter fun s => decide (lt.getD s 0 = l)).map (fun s => (s, canonCode lt s)) ++
          sortFormFrom lt code' prev' rest := by
  induction k generalizing a code prev with
  | zero => exact ⟨code, prev, by simpa [show a = lt.length by omega] using h, rfl⟩
  | succ k ih =>
    have hlt : a < lt.length := by omega
    have htake : (lt.take (a + 1)).count l = (lt.take a).count l + if lt.getD a 0 = l then 1 else 0 := by
      rw [List.take_add_one, List.count_append, List.getElem?_eq_getElem hlt, List.getD_eq_getElem _ _ hlt]
      simp [List.count_singleton]
    rw [List.range'_succ, List.filter_cons]
    by_cases hs : lt.getD a 0 = l
    · have hcode : canonCode lt a = firstCode lt l + (lt.take a).count l := by rw [canonCode, rankOf, hs]
      obtain ⟨code', prev', h', he⟩ := ih (a + 1) (firstCode lt l + (lt.take a).count l + 1) l (by omega)
        ⟨le_rfl, by rw [htake, if_pos hs]; simp; omega⟩
      refine ⟨code', prev', h', ?_⟩
      simp only [hs, decide_true, if_true, List.cons_append, List.map_cons]
      rw [sortFormFrom_cons _ h hs, he, hcode]
    · simp only [hs, decide_false, Bool.false_eq_true, if_false]
      exact ih (a + 1) code prev (by omega) (by rw [htake, if_neg hs]; exact h)

/-- The runs of the lengths from `l` on. -/
theorem sortFormFrom_runs {lt : List Nat} (k l code prev : Nat) (hl : 1 ≤ l)
    (h : AtCode l (firstCode lt l) code prev) :
    sortFormFrom lt code prev ((List.range' l k).flatMap (symbolsOfLength lt)) =
      ((List.range' l k).flatMap (symbolsOfLength lt)).map fun s => (s, canonCode lt s) := by
  induction k generalizing l code prev with
  | zero => rfl
  | succ k ih =>
    obtain ⟨code', prev', h', he⟩ := sortFormFrom_run ((List.range' (l + 1) k).flatMap (symbolsOfLength lt))
      lt.length 0 code prev (Nat.zero_add _) (by simpa using h)
    rw [← List.range_eq_range'] at he
    change sortFormFrom lt code prev (symbolsOfLength lt l ++ _) = (symbolsOfLength lt l).map _ ++ _ at he
    rw [List.range'_succ, List.flatMap_cons, List.map_append, he,
      ih (l + 1) code' prev' (by omega) (firstCode_succ lt hl ▸ h'.succ)]

/-- The radix form gives the source's codes (R117). -/
theorem sortForm_sortedSymbols (lt : List Nat) :
    sortForm lt (sortedSymbols lt) = (sortedSymbols lt).map fun s => (s, canonCode lt s) :=
  sortFormFrom_runs _ 1 0 0 le_rfl ⟨by omega, rfl⟩

/-! ## The context that CANON commits -/

theorem Memory.read?_eq_some_of_mem {w : Nat} {m : Memory w} {a : Nat} {v : BitVec w} (hm : Memory.wf m = true)
    (h : (a, v) ∈ m) : Memory.read? m a = some v := by
  induction m with
  | nil => simp at h
  | cons e m ih =>
    obtain ⟨k, x⟩ := e
    obtain ⟨hk, hm⟩ := Memory.wf_cons.1 hm
    rcases List.mem_cons.1 h with h | h
    · cases h
      simp [Memory.read?]
    · have hne : k ≠ a := Nat.ne_of_lt (hk _ h)
      simp [Memory.read?, hne, ih hm h]

theorem read?_codeTable {lt : List Nat} {s : Nat} (hs : s < lt.length) (hc : 1 ≤ lt.getD s 0) :
    Memory.read? (codeTable lt) s = some (BitVec.ofNat 32 (canonCode lt s)) := by
  refine Memory.read?_eq_some_of_mem (codeTable_wf lt) ?_
  rw [codeTable, List.mem_filterMap]
  exact ⟨s, List.mem_range.2 hs, by rw [if_pos hc]⟩

/-- Numbers that fit a register are held as they are. -/
theorem map_toNat_map_ofNat {w : Nat} {l : List Nat} (h : ∀ x ∈ l, x < 2 ^ w) :
    (l.map (BitVec.ofNat w)).map BitVec.toNat = l := by
  rw [List.map_map]
  conv_rhs => rw [← List.map_id l]
  refine List.map_congr_left fun x hx => ?_
  simpa using Nat.mod_eq_of_lt (h x hx)

/-- MAXLEN (R113) is the greatest length. -/
theorem foldl_max_isGreatest {lt : List Nat} (h : lt ≠ []) :
    lt.foldl max 0 ∈ lt ∧ ∀ l ∈ lt, l ≤ lt.foldl max 0 := by
  obtain ⟨m, hm⟩ := Option.ne_none_iff_exists'.1 (mt List.max?_eq_none_iff.1 h)
  rw [List.foldl_max, hm, Option.getD_some, Nat.zero_max]
  exact List.max?_eq_some_iff.1 hm

section
variable {lt : List Nat}

theorem canonContext_nsym (h : lt.length < 2 ^ 32) : (canonContext lt).nsym.toNat = lt.length :=
  BitVec.toNat_ofNat .. ▸ Nat.mod_eq_of_lt h

theorem canonContext_ncoded (h : lt.length < 2 ^ 32) :
    (canonContext lt).ncoded.toNat = rankBase lt (maxCodeLength + 1) :=
  BitVec.toNat_ofNat .. ▸ Nat.mod_eq_of_lt ((rankBase_le_length lt _).trans_lt h)

theorem canonContext_lengths (h : ∀ l ∈ lt, l ≤ maxCodeLength) : (canonContext lt).lengths = lt :=
  map_toNat_map_ofNat fun l hl => (h l hl).trans_lt (by decide)

theorem canonContext_maxlen (h : ∀ l ∈ lt, l ≤ maxCodeLength) (hne : lt ≠ []) :
    (canonContext lt).maxlen.toNat = lt.foldl max 0 :=
  BitVec.toNat_ofNat .. ▸ Nat.mod_eq_of_lt ((h _ (foldl_max_isGreatest hne).1).trans_lt (by decide))

theorem canonContext_sorted (hlen : lt.length < 2 ^ 32) (h : ∀ l ∈ lt, l ≤ maxCodeLength) :
    (canonContext lt).sorted.map BitVec.toNat = sortedSymbols lt :=
  map_toNat_map_ofNat fun s hs => ((mem_sortedSymbols h s).1 hs).1.trans hlen

theorem canonContext_numl (h : lt.length < 2 ^ 32) :
    (canonContext lt).numl.map BitVec.toNat = 0 :: (List.range' 1 maxCodeLength).map fun l => lt.count l := by
  refine (map_toNat_map_ofNat fun x hx => ?_).trans rfl
  rcases List.mem_cons.1 hx with rfl | hx
  · decide
  · obtain ⟨l, -, rfl⟩ := List.mem_map.1 hx
    exact List.count_le_length.trans_lt h

theorem canonContext_code (hlen : ∀ l ∈ lt, l ≤ maxCodeLength) (hk : kraft lt ≤ 2 ^ maxCodeLength) {s : Nat}
    (hs : s < lt.length) (hc : 1 ≤ lt.getD s 0) :
    (Memory.read? (canonContext lt).code s).map BitVec.toNat = some (canonCode lt s) := by
  have hle : lt.getD s 0 ≤ maxCodeLength := List.getD_eq_getElem _ _ hs ▸ hlen _ (List.getElem_mem hs)
  have hlt : canonCode lt s < 2 ^ 32 :=
    (canonCode_lt hlen hk hs hc).trans_le (Nat.pow_le_pow_right (by decide) hle)
  show (Memory.read? (codeTable lt) s).map BitVec.toNat = _
  rw [read?_codeTable hs hc, Option.map_some, BitVec.toNat_ofNat, Nat.mod_eq_of_lt hlt]

/-- CANON commits a context as R59 says, from lengths up to 32 with EOF coded and within the Kraft bound. -/
theorem canonContext_wf {p : Params} (hpos : 1 ≤ lt.length) (hmax : lt.length ≤ p.nMax + 1) (hp : p.nMax + 1 < 2 ^ 32)
    (hlen : ∀ l ∈ lt, l ≤ maxCodeLength) (heof : 1 ≤ lt.getD (lt.length - 1) 0) (hk : kraft lt ≤ 2 ^ maxCodeLength) :
    (canonContext lt).Wf p := by
  have hlt : lt.length < 2 ^ 32 := by omega
  have hne : lt ≠ [] := List.ne_nil_of_length_pos hpos
  have hnsym := canonContext_nsym hlt
  have hlengths := canonContext_lengths hlen
  have hmaxlen := canonContext_maxlen hlen hne
  have hsorted := canonContext_sorted hlt hlen
  have hnuml := canonContext_numl hlt
  exact {
    nsym_eq := by rw [hnsym, hlengths]
    nsym_pos := by rw [hnsym]; exact hpos
    nsym_le := by rw [hnsym]; exact hmax
    eof_coded := by rw [hnsym, hlengths]; exact heof
    len_le := by rw [hlengths]; exact hlen
    numl_eq := by rw [hnuml, hlengths]
    ncoded_eq := by rw [canonContext_ncoded hlt, hnuml, rankBase_eq_sum, List.sum_cons, Nat.zero_add]
    maxlen_mem := by rw [hmaxlen, hlengths]; exact (foldl_max_isGreatest hne).1
    maxlen_ge := by rw [hmaxlen, hlengths]; exact (foldl_max_isGreatest hne).2
    sorted_coded := by rw [hsorted, hnsym, hlengths]; exact mem_sortedSymbols hlen
    sorted_order := by rw [hsorted, hlengths]; exact sortedSymbols_pairwise lt
    code_canon := by
      rw [hsorted, hlengths, sortForm_sortedSymbols]
      intro e he
      obtain ⟨s, hs, rfl⟩ := List.mem_map.1 he
      obtain ⟨hs, hc⟩ := (mem_sortedSymbols hlen s).1 hs
      exact canonContext_code hlen hk hs hc
    kraft_le := by rw [hlengths]; exact hk }

end

end Sys2Proof.Machine
end

section
/-! PROOFS. The tree of BUILD: the queue of leaves, the merge loop with the walker, the Kraft sum and the code lengths
(R101 to R111). -/

namespace Sys2Proof.Machine

/-! ## The queue of leaves (R103, R104) -/

theorem queueInsert_perm (e : Nat × Nat) (q : List (Nat × Nat)) : (queueInsert e q).Perm (e :: q) := by
  induction q with
  | nil => exact .refl _
  | cons x q ih =>
    rw [queueInsert]
    split
    · exact .refl _
    · exact (ih.cons x).trans (.swap e x q)

theorem leafQueue_perm (ws : List Nat) :
    (leafQueue ws).Perm ((0, ws.length) :: ws.zipIdx.filter fun e => decide (0 < e.1)) := by
  have hfold : ∀ (l q : List (Nat × Nat)), (l.foldl (fun q e => if 0 < e.1 then queueInsert e q else q) q).Perm
      ((l.filter fun e => decide (0 < e.1)) ++ q) := by
    intro l
    induction l with
    | nil => exact fun q => .refl _
    | cons e l ih =>
      intro q
      refine (ih _).trans ?_
      by_cases he : 0 < e.1
      · simp only [List.filter_cons, he, decide_true, if_true]
        exact ((queueInsert_perm e q).append_left _).trans List.perm_middle
      · simp [he]
  exact (queueInsert_perm _ _).trans ((List.append_nil _ ▸ hfold ws.zipIdx []).cons _)

/-- The symbol ids that have a leaf: those of positive weight, and EOF (R103). -/
def leafIds (ws : List Nat) : List Nat :=
  (List.range (ws.length + 1)).filter fun s => decide (s = ws.length ∨ 0 < ws.getD s 0)

theorem mem_leafIds {ws : List Nat} {s : Nat} : s ∈ leafIds ws ↔ s = ws.length ∨ s < ws.length ∧ 0 < ws.getD s 0 := by
  simp only [leafIds, List.mem_filter, List.mem_range, decide_eq_true_eq]
  constructor
  · rintro ⟨hs, h | h⟩ <;> omega
  · rintro (rfl | ⟨hs, h⟩)
    · exact ⟨by omega, .inl rfl⟩
    · exact ⟨by omega, .inr h⟩

theorem leafIds_nodup (ws : List Nat) : (leafIds ws).Nodup := List.nodup_range.filter _

theorem leafQueue_ids_perm (ws : List Nat) : ((leafQueue ws).map Prod.snd).Perm (leafIds ws) := by
  refine ((leafQueue_perm ws).map Prod.snd).trans ?_
  have hids : ∀ s, s ∈ (ws.zipIdx.filter fun e => decide (0 < e.1)).map Prod.snd ↔ s < ws.length ∧ 0 < ws.getD s 0 := by
    intro s
    simp only [List.mem_map, List.mem_filter, List.mem_zipIdx_iff_getElem?, decide_eq_true_eq, Prod.exists,
      exists_eq_right]
    constructor
    · rintro ⟨w, hw, hpos⟩
      obtain ⟨hs, rfl⟩ := List.getElem?_eq_some_iff.1 hw
      exact ⟨hs, by rwa [List.getD_eq_getElem _ _ hs]⟩
    · rintro ⟨hs, hpos⟩
      exact ⟨ws[s], List.getElem?_eq_getElem hs, by rwa [List.getD_eq_getElem _ _ hs] at hpos⟩
  have hnodup : ((ws.zipIdx.filter fun e => decide (0 < e.1)).map Prod.snd).Nodup := by
    refine (List.filter_sublist.map Prod.snd).nodup ?_
    rw [List.zipIdx_map_snd]
    exact List.nodup_range'
  refine (List.perm_ext_iff_of_nodup (List.nodup_cons.2 ⟨?_, hnodup⟩) (leafIds_nodup ws)).2 fun s => ?_
  · rw [hids]
    omega
  · rw [List.mem_cons, hids, mem_leafIds]

theorem leafQueue_length (ws : List Nat) : (leafQueue ws).length = (leafIds ws).length := by
  simpa using (leafQueue_ids_perm ws).length_eq

/-! ## The merge loop and the walker (R105, R107) -/

/-- What the merge loop keeps, with `leaves` the leaves' ids: whatever depths the nodes still in the queue get, the
leaves get depths below them with the same Kraft sum, here in units of 2^-m for any bound m on the leaves' depths. -/
structure Merged (leaves : List Nat) (q : List (Nat × Nat)) (next : Nat) (nodes : List Internal) : Prop where
  nodup : (q.map Prod.snd).Nodup
  lt_next : ∀ e ∈ q, e.2 < next
  kraft : ∀ (m : Nat) (depth : List Nat), next ≤ depth.length →
    (∀ i ∈ leaves, (walkDepths nodes depth).getD i 0 ≤ m) →
    (∀ i ∈ q.map Prod.snd, depth.getD i 0 ≤ m) ∧
      (leaves.map fun i => 2 ^ (m - (walkDepths nodes depth).getD i 0)).sum =
        ((q.map Prod.snd).map fun i => 2 ^ (m - depth.getD i 0)).sum

/-- The walker's visit of one internal node: each child gets its depth plus one (R107). -/
def Internal.setChildren (n : Internal) (depth : List Nat) : List Nat :=
  (depth.set n.child0 (depth.getD n.index 0 + 1)).set n.child1 (depth.getD n.index 0 + 1)

theorem walkDepths_cons (n : Internal) (nodes : List Internal) (depth : List Nat) :
    walkDepths (n :: nodes) depth = walkDepths nodes (n.setChildren depth) := rfl

@[simp] theorem Internal.length_setChildren (n : Internal) (depth : List Nat) :
    (n.setChildren depth).length = depth.length := by simp [Internal.setChildren]

theorem Internal.setChildren_child0 {n : Internal} {depth : List Nat} (hne : n.child0 ≠ n.child1)
    (h : n.child0 < depth.length) : (n.setChildren depth).getD n.child0 0 = depth.getD n.index 0 + 1 := by
  rw [Internal.setChildren, List.getD_eq_getElem?_getD, List.getElem?_set_ne hne.symm]
  simp [h]

theorem Internal.setChildren_child1 {n : Internal} {depth : List Nat} (h : n.child1 < depth.length) :
    (n.setChildren depth).getD n.child1 0 = depth.getD n.index 0 + 1 := by
  simp [Internal.setChildren, h]

theorem Internal.setChildren_other {n : Internal} {i : Nat} (depth : List Nat) (h0 : i ≠ n.child0) (h1 : i ≠ n.child1) :
    (n.setChildren depth).getD i 0 = depth.getD i 0 := by
  simp [Internal.setChildren, List.getElem?_set_ne h0.symm, List.getElem?_set_ne h1.symm]

/-- One merge keeps it: the two children, one deeper than their parent, weigh together what the parent weighs. -/
theorem Merged.merge {leaves : List Nat} {wa a wb b next : Nat} {q : List (Nat × Nat)} {nodes : List Internal}
    (h : Merged leaves ((wa, a) :: (wb, b) :: q) next nodes) :
    Merged leaves (queueInsert (wa + wb, next) q) (next + 1) (⟨next, a, b⟩ :: nodes) := by
  have hperm := (queueInsert_perm (wa + wb, next) q).map Prod.snd
  obtain ⟨⟨hab, haq⟩, hbq, hnq⟩ : (a ≠ b ∧ a ∉ q.map Prod.snd) ∧ b ∉ q.map Prod.snd ∧ (q.map Prod.snd).Nodup := by
    simpa only [List.map_cons, List.nodup_cons, List.mem_cons, not_or] using h.nodup
  have ha : a < next := h.lt_next (wa, a) (by simp)
  have hb : b < next := h.lt_next (wb, b) (by simp)
  have hq : ∀ i ∈ q.map Prod.snd, i < next := by
    intro i hi
    obtain ⟨e, he, rfl⟩ := List.mem_map.1 hi
    exact h.lt_next e (by simp [he])
  refine ⟨hperm.nodup_iff.2 (List.nodup_cons.2 ⟨fun hm => (hq _ hm).false, hnq⟩), fun e he => ?_,
    fun m depth hlen hm => ?_⟩
  · rcases List.mem_cons.1 ((queueInsert_perm _ _).mem_iff.1 he) with rfl | he
    · exact Nat.lt_succ_self next
    · exact (hq _ (List.mem_map_of_mem he)).trans (Nat.lt_succ_self next)
  · obtain ⟨hle, hsum⟩ := h.kraft m (Internal.setChildren ⟨next, a, b⟩ depth) (by simp; omega) hm
    have hda := Internal.setChildren_child0 (n := ⟨next, a, b⟩) (depth := depth) hab (ha.trans hlen)
    have hdb := Internal.setChildren_child1 (n := ⟨next, a, b⟩) (depth := depth) (hb.trans hlen)
    have hdq : ∀ i ∈ q.map Prod.snd, (Internal.setChildren ⟨next, a, b⟩ depth).getD i 0 = depth.getD i 0 :=
      fun i hi =>
        Internal.setChildren_other depth (ne_of_mem_of_not_mem hi haq) (ne_of_mem_of_not_mem hi hbq)
    have hroot : depth.getD next 0 + 1 ≤ m := hda ▸ hle a (by simp)
    have hpow :
        2 ^ (m - depth.getD next 0) = 2 ^ (m - (depth.getD next 0 + 1)) + 2 ^ (m - (depth.getD next 0 + 1)) := by
      rw [show m - depth.getD next 0 = m - (depth.getD next 0 + 1) + 1 by omega, Nat.pow_succ]
      omega
    refine ⟨fun i hi => ?_, ?_⟩
    · rcases List.mem_cons.1 (hperm.mem_iff.1 hi) with rfl | hi
      · exact Nat.le_of_succ_le hroot
      · exact hdq i hi ▸ hle i (by simp only [List.map_cons, List.mem_cons, hi, or_true])
    · rw [walkDepths_cons, hsum, (hperm.map _).sum_eq]
      simp only [List.map_cons, List.sum_cons, hda, hdb, hpow]
      rw [List.map_congr_left fun i hi => by rw [hdq i hi], Nat.add_assoc]

/-- The merge loop ends at one root, after one merge for each pair but one (R106). -/
theorem Merged.mergeAll {leaves : List Nat} {fuel next : Nat} {q : List (Nat × Nat)} {nodes : List Internal}
    (h : Merged leaves q next nodes) (hq : q ≠ []) (hf : q.length ≤ fuel) :
    (mergeAll fuel q next nodes).length + 1 = nodes.length + q.length ∧
      ∃ root, Merged leaves [root] (next + q.length - 1) (mergeAll fuel q next nodes) := by
  induction fuel generalizing q next nodes with
  | zero => exact absurd (List.length_eq_zero_iff.1 (Nat.le_zero.1 hf)) hq
  | succ fuel ih =>
    match q, hq, hf, h with
    | [x], _, _, h => exact ⟨rfl, x, h⟩
    | (wa, a) :: (wb, b) :: q, _, hf, h =>
      have hlen : (queueInsert (wa + wb, next) q).length = q.length + 1 := (queueInsert_perm _ _).length_eq
      obtain ⟨hl, root, hroot⟩ := ih h.merge (List.ne_nil_of_length_pos (by omega)) (by simp at hf; omega)
      rw [hlen] at hl hroot
      simp only [List.length_cons] at hl hroot ⊢
      exact ⟨by rw [Machine.mergeAll, hl]; omega, root, by
        rw [Machine.mergeAll, show next + (q.length + 1 + 1) - 1 = next + 1 + (q.length + 1) - 1 by omega]
        exact hroot⟩

/-! ## The tree over a weight table -/

/-- The depth of a symbol's leaf (R107). -/
def leafDepth (ws : List Nat) (s : Nat) : Nat :=
  (walkDepths (buildTree ws) (List.replicate (ws.length + 1 + (buildTree ws).length) 0)).getD s 0

theorem codeLengths_eq (ws : List Nat) :
    codeLengths ws =
      if (buildTree ws).isEmpty then
        ((List.range (ws.length + 1)).map fun s =>
          if s = ws.length ∨ 0 < ws.getD s 0 then leafDepth ws s else 0).set ws.length 1
      else (List.range (ws.length + 1)).map fun s =>
        if s = ws.length ∨ 0 < ws.getD s 0 then leafDepth ws s else 0 := rfl

theorem leafQueue_merged (ws : List Nat) : Merged (leafIds ws) (leafQueue ws) (ws.length + 1) [] where
  nodup := (leafQueue_ids_perm ws).nodup_iff.2 (leafIds_nodup ws)
  lt_next e he := by
    have := mem_leafIds.1 ((leafQueue_ids_perm ws).mem_iff.1 (List.mem_map_of_mem he))
    omega
  kraft m depth _ hm :=
    ⟨fun i hi => hm i ((leafQueue_ids_perm ws).mem_iff.1 hi), (((leafQueue_ids_perm ws).map _).sum_eq).symm⟩

theorem leafIds_ne_nil (ws : List Nat) : leafIds ws ≠ [] :=
  List.ne_nil_of_mem (mem_leafIds.2 (.inl rfl))

theorem buildTree_merged (ws : List Nat) :
    (buildTree ws).length + 1 = (leafIds ws).length ∧
      ∃ root, Merged (leafIds ws) [root] (ws.length + 1 + (buildTree ws).length) (buildTree ws) := by
  have hq : leafQueue ws ≠ [] := by
    rw [← List.length_pos_iff, leafQueue_length, List.length_pos_iff]
    exact leafIds_ne_nil ws
  obtain ⟨hl, root, hroot⟩ := (leafQueue_merged ws).mergeAll hq le_rfl
  rw [← buildTree] at hl hroot
  rw [leafQueue_length] at hl hroot
  rw [List.length_nil, Nat.zero_add] at hl
  exact ⟨hl, root, by rwa [← hl] at hroot⟩

/-- The leaves' Kraft sum is exactly 1. -/
theorem sum_leafDepth {ws : List Nat} {m : Nat} (h : ∀ s ∈ leafIds ws, leafDepth ws s ≤ m) :
    ((leafIds ws).map fun s => 2 ^ (m - leafDepth ws s)).sum = 2 ^ m := by
  obtain ⟨-, root, hroot⟩ := buildTree_merged ws
  refine (hroot.kraft m _ (by simp) h).2.trans ?_
  simp

/-- With two leaves or more none is the root. -/
theorem leafDepth_pos {ws : List Nat} {s : Nat} (h2 : 2 ≤ (leafIds ws).length) (hs : s ∈ leafIds ws) :
    1 ≤ leafDepth ws s := by
  by_contra h0
  set m := ((leafIds ws).map (leafDepth ws)).sum
  have hsum := sum_leafDepth (ws := ws) (m := m) fun i hi => List.single_le_sum (by simp) _ (List.mem_map_of_mem hi)
  have hperm := List.perm_cons_erase hs
  rw [(hperm.map _).sum_eq, List.map_cons, List.sum_cons, show leafDepth ws s = 0 by omega, Nat.sub_zero] at hsum
  obtain ⟨t, ht⟩ : ∃ t, t ∈ (leafIds ws).erase s :=
    List.exists_mem_of_length_pos (by rw [List.length_erase_of_mem hs]; omega)
  have : 2 ^ (m - leafDepth ws t) ≤ (((leafIds ws).erase s).map fun i => 2 ^ (m - leafDepth ws i)).sum :=
    List.single_le_sum (by simp) _ (List.mem_map_of_mem ht)
  have := Nat.one_le_two_pow (n := m - leafDepth ws t)
  omega

/-! ## The code lengths (R101, R107, R108) -/

theorem length_codeLengths (ws : List Nat) : (codeLengths ws).length = ws.length + 1 := by
  rw [codeLengths_eq]
  split <;> simp

theorem buildTree_isEmpty (ws : List Nat) : (buildTree ws).isEmpty = true ↔ (leafIds ws).length = 1 := by
  have := (buildTree_merged ws).1
  rw [List.isEmpty_iff_length_eq_zero]
  omega

/-- With two leaves or more a symbol's length is its leaf's depth, and 0 without a leaf. -/
theorem codeLengths_of_two_leaves {ws : List Nat} (h2 : 2 ≤ (leafIds ws).length) :
    codeLengths ws = (List.range (ws.length + 1)).map fun s =>
      if s = ws.length ∨ 0 < ws.getD s 0 then leafDepth ws s else 0 := by
  have : ¬ (buildTree ws).isEmpty = true := by rw [buildTree_isEmpty]; omega
  rw [codeLengths_eq, if_neg this]

theorem codeLengths_getD_of_two_leaves {ws : List Nat} {s : Nat} (h2 : 2 ≤ (leafIds ws).length) (hs : s ∈ leafIds ws) :
    (codeLengths ws).getD s 0 = leafDepth ws s := by
  have hs' := mem_leafIds.1 hs
  have hlt : s < (codeLengths ws).length := by rw [length_codeLengths]; omega
  rw [List.getD_eq_getElem _ _ hlt]
  simp only [codeLengths_of_two_leaves h2, List.getElem_map, List.getElem_range]
  exact if_pos (hs'.imp_right And.right)

/-- With two leaves or more the lengths' Kraft sum is exactly 1, in units of 2^-m for any bound m (R111). -/
theorem codeLengths_sum {ws : List Nat} {m : Nat} (h2 : 2 ≤ (leafIds ws).length) (hm : ∀ l ∈ codeLengths ws, l ≤ m) :
    ((codeLengths ws).map fun l => if l = 0 then 0 else 2 ^ (m - l)).sum = 2 ^ m := by
  have hbound : ∀ s ∈ leafIds ws, leafDepth ws s ≤ m := by
    intro s hs
    have hlt : s < (codeLengths ws).length := by rw [length_codeLengths]; have := mem_leafIds.1 hs; omega
    rw [← codeLengths_getD_of_two_leaves h2 hs, List.getD_eq_getElem _ _ hlt]
    exact hm _ (List.getElem_mem hlt)
  have hterm : ∀ s ∈ List.range (ws.length + 1),
      (fun l => if l = 0 then 0 else 2 ^ (m - l)) (if s = ws.length ∨ 0 < ws.getD s 0 then leafDepth ws s else 0) =
        if s = ws.length ∨ 0 < ws.getD s 0 then 2 ^ (m - leafDepth ws s) else 0 := by
    intro s hs
    by_cases hleaf : s = ws.length ∨ 0 < ws.getD s 0
    · have hmem : s ∈ leafIds ws := List.mem_filter.2 ⟨hs, by simpa using hleaf⟩
      have := leafDepth_pos h2 hmem
      simp only [hleaf, if_true, show leafDepth ws s ≠ 0 by omega, if_false]
    · simp only [hleaf, if_false, if_true]
  rw [codeLengths_of_two_leaves h2, List.map_map]
  refine (congrArg List.sum (List.map_congr_left hterm)).trans ?_
  rw [List.sum_map_ite, ← leafIds, sum_leafDepth hbound]
  simp

/-- Without a positive weight EOF alone is coded, with length 1 (R108). -/
theorem codeLengths_of_one_leaf {ws : List Nat} (h1 : (leafIds ws).length = 1) :
    codeLengths ws = List.replicate ws.length 0 ++ [1] := by
  have hzero : ∀ s, s < ws.length → ws.getD s 0 = 0 := by
    intro s hs
    by_contra hw
    obtain ⟨x, hx⟩ := List.length_eq_one_iff.1 h1
    have hs' : s ∈ leafIds ws := mem_leafIds.2 (.inr ⟨hs, by omega⟩)
    have heof : ws.length ∈ leafIds ws := mem_leafIds.2 (.inl rfl)
    rw [hx, List.mem_singleton] at hs' heof
    omega
  rw [codeLengths_eq, if_pos ((buildTree_isEmpty ws).2 h1), List.range_succ, List.map_append]
  rw [List.set_append_right _ _ (by simp), List.map_congr_left (g := fun _ => 0), List.map_const', List.length_range]
  · simp
  · intro s hs
    have hs := List.mem_range.1 hs
    simp only [hzero s hs, Nat.ne_of_lt hs, lt_irrefl, or_self, if_false]

theorem one_le_length_leafIds (ws : List Nat) : 1 ≤ (leafIds ws).length :=
  List.length_pos_iff.2 (leafIds_ne_nil ws)

/-- EOF is always coded (R111). -/
theorem codeLengths_eof_pos (ws : List Nat) : 1 ≤ (codeLengths ws).getD ws.length 0 := by
  rcases (one_le_length_leafIds ws).eq_or_lt with h1 | h2
  · rw [codeLengths_of_one_leaf h1.symm]
    simp
  · have heof : ws.length ∈ leafIds ws := mem_leafIds.2 (.inl rfl)
    rw [codeLengths_getD_of_two_leaves h2 heof]
    exact leafDepth_pos h2 heof

/-- BUILD's lengths are within the Kraft bound. -/
theorem kraft_codeLengths_le {ws : List Nat} (h : ∀ l ∈ codeLengths ws, l ≤ maxCodeLength) :
    kraft (codeLengths ws) ≤ 2 ^ maxCodeLength := by
  rcases (one_le_length_leafIds ws).eq_or_lt with h1 | h2
  · rw [codeLengths_of_one_leaf h1.symm, kraft]
    simp [maxCodeLength]
  · exact (codeLengths_sum h2 h).le

end Sys2Proof.Machine
end

section
/-! PROOFS. What a command, a register write and a step can change, said once for every rule of the whole machine. -/

namespace Sys2Proof.Machine

/-! ## What DESERIALIZE accepts (R127 to R131) -/

theorem parseLengths_lengths {cb : Memory 8} {e n p q : Nat} {lt : List Nat}
    (h : parseLengths cb e n p = .lengths lt q) :
    lt.length = n ∧ ∀ l ∈ lt, l ≤ maxCodeLength := by
  induction n generalizing p q lt with
  | zero =>
    obtain ⟨rfl, -⟩ : [] = lt ∧ p = q := by simpa [parseLengths] using h
    simp
  | succ n ih =>
    rw [parseLengths] at h
    split at h
    · cases h
    · cases h
    · cases h
    · split at h
      · cases h
      · rename_i v k hv hrange
        split at h
        · rename_i us q' hus
          obtain ⟨rfl, -⟩ := by simpa using h
          obtain ⟨hl, hle⟩ := ih hus
          refine ⟨by simp [hl], fun l hl => ?_⟩
          rcases List.mem_cons.1 hl with rfl | hl
          · omega
          · exact hle l hl
        · cases h
        · cases h

/-- The checks that an accepted length array has passed. -/
theorem parseCodebook_lengths {cb : Memory 8} {e bound p : Nat} {lt : List Nat}
    (h : parseCodebook cb e bound = .lengths lt p) :
    1 ≤ lt.length ∧ lt.length ≤ bound ∧ (∀ l ∈ lt, l ≤ maxCodeLength) ∧ 1 ≤ lt.getD (lt.length - 1) 0 ∧
      oversubscribed lt = false := by
  unfold parseCodebook at h
  split at h
  · cases h
  · cases h
  · cases h
  · split at h
    · cases h
    · rename_i cnt k _ hcnt
      split at h
      · cases h
      · cases h
      · rename_i us q hus
        obtain ⟨rfl, hle⟩ := parseLengths_lengths hus
        split at h
        · cases h
        · split at h
          · cases h
          · rename_i heof hover
            obtain ⟨rfl, -⟩ := by simpa using h
            exact ⟨by omega, by omega, hle, by omega, by simpa using hover⟩

/-! ## The size of a serialized codebook (R91, R93) -/

theorem length_uvarintEnc (v : Nat) : (uvarintEnc v).length = uvlen v := by
  have hgo : ∀ fuel v, (uvarintEnc.go fuel v).length = uvlen.go fuel v := by
    intro fuel
    induction fuel with
    | zero => exact fun v => rfl
    | succ fuel ih =>
      intro v
      rw [uvarintEnc.go, uvlen.go]
      by_cases hv : 0x80 ≤ v
      · rw [if_pos hv, if_neg (by omega), List.length_cons, ih, Nat.shiftRight_eq_div_pow]
      · rw [if_neg hv, if_pos (by omega), List.length_singleton]
  exact hgo 9 v

theorem uvlen_mono {v w : Nat} (h : v ≤ w) : uvlen v ≤ uvlen w := by
  have hgo : ∀ fuel v w, v ≤ w → uvlen.go fuel v ≤ uvlen.go fuel w := by
    intro fuel
    induction fuel with
    | zero => exact fun v w _ => le_rfl
    | succ fuel ih =>
      intro v w h
      rw [uvlen.go, uvlen.go]
      by_cases hw : w < 2 ^ 7
      · rw [if_pos hw, if_pos (h.trans_lt hw)]
      · have := ih (v / 2 ^ 7) (w / 2 ^ 7) (Nat.div_le_div_right h)
        rw [if_neg hw]
        split <;> omega
  exact hgo 9 v w h

/-- A code length takes one byte (R96). -/
theorem length_svarintEnc_of_le {l : Nat} (h : l < 64) : (svarintEnc (l : Int)).length = 1 := by
  have hz : zigzagEnc (l : Int) = 2 * l := by
    rw [zigzagEnc, if_pos (by omega)]
    omega
  rw [svarintEnc, length_uvarintEnc, hz, uvlen, uvlen.go, if_pos (by omega)]

theorem codebookBytes_eq (nsym : Nat) (lens : List Nat) :
    codebookBytes nsym lens = uvarintEnc nsym ++ lens.flatMap fun l : Nat => svarintEnc (l : Int) := by
  rw [codebookBytes, List.bind_eq_flatMap, List.flatMap_assoc]
  simp

theorem length_codebookBytes {nsym : Nat} {lens : List Nat} (h : ∀ l ∈ lens, l < 64) :
    (codebookBytes nsym lens).length = uvlen nsym + lens.length := by
  rw [codebookBytes_eq, List.length_append, length_uvarintEnc, List.length_flatMap,
    List.map_congr_left fun l hl => length_svarintEnc_of_le (h l hl)]
  simp

/-! ## What BUILD commits (R110) -/

theorem readWeights_length {m : Memory 32} {i n : Nat} {vs : List Nat} (h : readWeights m i n = .ok vs) :
    vs.length = n := by
  obtain ⟨ws, hl, -, rfl⟩ := readWeights_ok h
  rw [List.length_map, hl]

/-- BUILD commits a context as R59 says, from lengths up to 32. -/
theorem canonContext_codeLengths_wf {p : Params} {ws : List Nat} (hmax : ws.length ≤ p.nMax) (hp : p.nMax + 1 < 2 ^ 32)
    (hlen : (codeLengths ws).foldl max 0 ≤ maxCodeLength) : (canonContext (codeLengths ws)).Wf p := by
  have hl := length_codeLengths ws
  have hlen : ∀ l ∈ codeLengths ws, l ≤ maxCodeLength := fun l h =>
    ((foldl_max_isGreatest (List.ne_nil_of_mem h)).2 l h).trans hlen
  exact canonContext_wf (by omega) (by omega) hp hlen (by rw [hl]; exact codeLengths_eof_pos ws)
    (kraft_codeLengths_le hlen)

/-! ## What the commands can change -/

/-- All that a command's rule can change. -/
def RuleEffect : Op → State → State → Prop
  | .nop, s, u => u = s
  | .build, s, u => u = { s with ctx := u.ctx }
  | .serialize, s, u => u = { s with cb := u.cb, csr := { s.csr with cblen := u.csr.cblen } }
  | .deserialize, s, u => u = { s with ctx := u.ctx }
  | .symlen, s, u => u = s
  | .encode, s, u => u = { s with writer := u.writer }
  | .decode, s, u => u = { s with reader := u.reader, csr := { s.csr with sym := u.csr.sym } }
  | .clear, s, u => u = { s with ctx := Context.invalid, flags := s.flags.clearOverrun }

section
variable {op : Op} {s u : State} {e : ErrCode} {r : Nat} {p : PortUse}

theorem ruleOf_effect (h : ruleOf op s = .ended e r p u) : RuleEffect op s u := by
  cases op with
  | nop => cases h; rfl
  | build => obtain ⟨-, ⟨-, -, rfl⟩ | ⟨_, -, -, -, -, -, rfl⟩⟩ := buildRule_cases h <;> rfl
  | serialize => obtain ⟨-, -, -, -, rfl⟩ | ⟨-, -, -, _, -, -, rfl⟩ := serializeRule_cases h <;> rfl
  | deserialize => obtain ⟨-, ⟨-, -, rfl⟩ | ⟨_, -, -, -, rfl⟩⟩ := deserializeRule_cases h <;> rfl
  | symlen => obtain ⟨-, rfl, -⟩ := symlenRule_cases h; rfl
  | encode =>
    obtain ⟨-, -, -, -, rfl⟩ | ⟨-, -, -, -, -, rfl⟩ | ⟨-, -, -, -, -, rfl⟩ := encodeRule_cases h <;> rfl
  | decode => exact decodeRule_frame h
  | clear => cases h; rfl

/-- No command's rule changes the parameters or W. -/
theorem RuleEffect.params_weights (h : RuleEffect op s u) : u.params = s.params ∧ u.weights = s.weights := by
  cases op <;> (rw [RuleEffect] at h; rw [h]; exact ⟨rfl, rfl⟩)

/-- Only SERIALIZE changes CB (R123). -/
theorem RuleEffect.cb (h : RuleEffect op s u) (hop : op ≠ .serialize) : u.cb = s.cb := by
  cases op with
  | serialize => exact absurd rfl hop
  | _ => rw [RuleEffect] at h; rw [h]

/-- Only CLEAR changes OVR (R157). -/
theorem RuleEffect.ovr (h : RuleEffect op s u) (hop : op ≠ .clear) : u.flags.ovr = s.flags.ovr := by
  cases op with
  | clear => exact absurd rfl hop
  | _ => rw [RuleEffect] at h; rw [h]

/-- Only BUILD, DESERIALIZE and CLEAR change the context (R60). -/
theorem RuleEffect.ctx (h : RuleEffect op s u) (hop : op ∉ [.build, .deserialize, .clear]) : u.ctx = s.ctx := by
  cases op with
  | build | deserialize | clear => exact absurd (by decide) hop
  | _ => rw [RuleEffect] at h; rw [h]

/-- What a command leaves as the context: the old one, none, or a new one as R59 says. -/
theorem ruleOf_ctx (h : ruleOf op s = .ended e r p u) :
    u.ctx = s.ctx ∨ u.ctx = Context.invalid ∨
      op ∈ [Op.build, .deserialize] ∧ u.ctx.valid = true ∧ (Legal s.params → u.ctx.Wf s.params) := by
  by_cases hop : op ∈ [Op.build, .deserialize, .clear]
  · simp only [List.mem_cons, List.not_mem_nil, or_false] at hop
    rcases hop with rfl | rfl | rfl
    · obtain ⟨-, ⟨-, -, rfl⟩ | ⟨ws, -, hmax, hws, hlen, -, rfl⟩⟩ := buildRule_cases h
      · exact .inr (.inl rfl)
      · refine .inr (.inr ⟨by decide, rfl, fun ⟨_, hp, _⟩ => ?_⟩)
        exact canonContext_codeLengths_wf (readWeights_length hws ▸ hmax) (by omega) hlen
    · obtain ⟨-, ⟨-, -, rfl⟩ | ⟨lt, -, -, hlt, rfl⟩⟩ := deserializeRule_cases h
      · exact .inr (.inl rfl)
      · refine .inr (.inr ⟨by decide, rfl, fun ⟨_, hp, _⟩ => ?_⟩)
        obtain ⟨hpos, hmax, hlen, heof, hover⟩ := parseCodebook_lengths hlt
        exact canonContext_wf hpos (by omega) (by omega) hlen heof ((oversubscribed_eq_false_iff_kraft hlen).1 hover)
    · cases h
      exact .inr (.inl rfl)
  · exact .inl ((ruleOf_effect h).ctx hop)

/-- What a command leaves in CB: the old entries, or a valid context's serialized form over them. -/
theorem ruleOf_cb (h : ruleOf op s = .ended e r p u) :
    u.cb = s.cb ∨ s.ctx.valid = true ∧
      ∃ lens : List Nat, (∀ l ∈ lens, l < 64) ∧ lens.length = s.ctx.nsym.toNat ∧
        u.cb = Memory.writeAll s.cb 0 (codebookBytes s.ctx.nsym.toNat lens) := by
  by_cases hop : op = .serialize
  · subst hop
    obtain ⟨-, -, -, -, rfl⟩ | ⟨hv, -, -, _, -, rfl, rfl⟩ := serializeRule_cases h
    · exact .inl rfl
    · refine .inr ⟨hv, _, fun l hl => ?_, by rw [List.length_map, List.length_range], rfl⟩
      obtain ⟨i, -, rfl⟩ := List.mem_map.1 hl
      exact (s.ctx.lenAt i).isLt
  · exact .inl ((ruleOf_effect h).cb hop)

end

/-! ## What a register write can change -/

section
variable (d : Word) (s : State) (r : Reg)

@[simp] theorem writeReg_params : (writeReg d s r).params = s.params := by rw [writeReg_frame]
@[simp] theorem writeReg_phase : (writeReg d s r).phase = s.phase := by rw [writeReg_frame]
@[simp] theorem writeReg_ctx : (writeReg d s r).ctx = s.ctx := by rw [writeReg_frame]

/-- Only WDATA writes W, within N_MAX and at WIDX (R35). -/
theorem writeReg_weights :
    (writeReg d s r).weights = s.weights ∨ r = .wdata ∧ s.csr.widx.toNat < s.params.nMax ∧
      (writeReg d s r).weights = Memory.write s.weights s.csr.widx.toNat d := by
  cases r with
  | wdata =>
    simp only [writeReg, writeWdata]
    split
    · exact .inr ⟨trivial, ‹_›, rfl⟩
    · exact .inl rfl
  | cbdata => simp only [writeReg, writeCbdata]; split <;> exact .inl rfl
  | _ => exact .inl rfl

/-- Only CBDATA writes CB, within CB_BYTES and at CBIDX (R42). -/
theorem writeReg_cb :
    (writeReg d s r).cb = s.cb ∨ r = .cbdata ∧ s.csr.cbidx.toNat < s.params.cbBytes ∧
      (writeReg d s r).cb = Memory.write s.cb s.csr.cbidx.toNat (d.extractLsb' 0 8) := by
  cases r with
  | cbdata =>
    simp only [writeReg, writeCbdata]
    split
    · exact .inr ⟨trivial, ‹_›, rfl⟩
    · exact .inl rfl
  | wdata => simp only [writeReg, writeWdata]; split <;> exact .inl rfl
  | _ => exact .inl rfl

end

theorem offset_of_regAt_wdata (a : Offset) : regAt a = .wdata → a = 0x14 := by revert a; decide

theorem offset_of_regAt_cbdata (a : Offset) : regAt a = .cbdata → a = 0x30 := by revert a; decide

/-! ## What a step can change -/

/-- A step that takes no reset, runs no command and writes no register: only OVR, DONE, the window and the host's side
can change. -/
structure Quiet (s t : State) : Prop where
  params : t.params = s.params
  ctx : t.ctx = s.ctx
  weights : t.weights = s.weights
  cb : t.cb = s.cb
  writer : t.writer = s.writer
  reader : t.reader = s.reader
  ovr : s.flags.ovr = true → t.flags.ovr = true
  busy : (s.phase.isBusy = true → s.flags.done = false) → t.phase.isBusy = true → t.flags.done = false

theorem Quiet.dropWrite (s : State) : Quiet s s.dropWrite where
  params := s.dropWrite_params
  ctx := s.dropWrite_ctx
  weights := s.dropWrite_weights
  cb := s.dropWrite_cb
  writer := s.dropWrite_writer
  reader := s.dropWrite_reader
  ovr _ := s.dropWrite_ovr
  busy := State.tick_busy_not_done { s with flags := s.flags.overrun }

theorem Quiet.answerHost (s : State) (v : Word) : Quiet s (s.answerHost v) :=
  ⟨rfl, rfl, rfl, rfl, rfl, rfl, id, id⟩

theorem Quiet.busyRead (s : State) (v : Word) (n : Nat) :
    Quiet s (State.tick { s.answerHost v with free := n }) := by
  constructor <;> simp only [State.tick_params, State.tick_ctx, State.tick_weights, State.tick_cb, State.tick_writer,
    State.tick_reader, State.tick_ovr]
  case ovr => exact id
  case busy => exact State.tick_busy_not_done { s.answerHost v with free := n }
  all_goals rfl

theorem Quiet.illegalCommand {s : State} (d : Word) (h : s.phase = .idle) : Quiet s (illegalCommand d s) :=
  ⟨rfl, rfl, rfl, rfl, rfl, rfl, id, fun _ hb => by simp [h] at hb⟩

theorem code_of_opOfCode {c : BitVec 8} {op : Op} (h : opOfCode c = some op) : c = op.code := by
  unfold opOfCode at h
  split_ifs at h <;> cases h <;> assumption

/-- A command word is its operation's code (R85, R86). -/
theorem toNat_of_decodeOp {d : Word} {op : Op} (h : decodeOp d = some op) : d.toNat = op.code.toNat := by
  unfold decodeOp at h
  split at h
  · rename_i hr
    have hrsvd : d.toNat / 2 ^ 8 % 2 ^ 24 = 0 := by
      have := congrArg BitVec.toNat hr
      rwa [rsvdField, BitVec.extractLsb'_toNat, Nat.shiftRight_eq_div_pow] at this
    have hop : d.toNat % 2 ^ 8 = op.code.toNat := by
      have := congrArg BitVec.toNat (code_of_opOfCode h)
      rwa [opField, BitVec.extractLsb'_toNat, Nat.shiftRight_zero] at this
    omega
  · cases h

theorem decode_transaction_ok {w : TransactionWord} {i : Instr} (h : decode (.transaction w) = .ok i) :
    Offset.aligned (addrField w) = true ∧
      (dirField w = 1 ∧ i = .hwr (addrField w) (dataField w) ∨
        dirField w ≠ 1 ∧ dataField w = 0 ∧ i = .hrd (addrField w)) := by
  rw [decode] at h
  split at h
  · refine ⟨‹_›, ?_⟩
    split at h
    · cases h
      exact .inl ⟨‹_›, rfl⟩
    · split at h
      · cases h
        exact .inr ⟨‹_›, ‹_›, rfl⟩
      · cases h
  · cases h

/-- A transaction that is no sub-word write and decodes to a host write has all four byte enables. -/
theorem enables_of_hwr {en : BitVec 4} {w : TransactionWord} {a : Offset} {d : Word}
    (hsub : isSubWordWrite en w = false) (h : decode (.transaction w) = .ok (.hwr a d)) : en = 0xF := by
  obtain ⟨-, ⟨hdir, -⟩ | ⟨-, -, hi⟩⟩ := decode_transaction_ok h
  · simpa [isSubWordWrite, hdir] using hsub
  · cases hi

/-- The number of a transaction word (R90). -/
theorem toNat_transactionWord (dir : BitVec 1) (a : Offset) (d : Word) :
    (transactionWord dir a d).toNat = (dir.toNat * 2 ^ 8 + a.toNat) * 2 ^ 32 + d.toNat := by
  have ha := a.isLt
  have hd := d.isLt
  rw [transactionWord, BitVec.toNat_append, BitVec.toNat_append, ← Nat.shiftLeft_add_eq_or_of_lt hd,
    ← Nat.shiftLeft_add_eq_or_of_lt ha, Nat.shiftLeft_eq, Nat.shiftLeft_eq]

/-- The operation that a host's transaction runs is in a write of its command word to CMD (R87). -/
theorem takesCommand_of_opOf {s : State} {en : BitVec 4} {w : TransactionWord} {rest : List HostEvent} {i : Instr}
    {op : Op}     (hp : s.pending = .transaction en w :: rest) (hsub : isSubWordWrite en w = false)
    (hd : decode (.transaction w) = .ok i) (ho : opOf i = some op) : TakesCommand s [op] := by
  obtain ⟨-, ⟨hdir, rfl⟩ | ⟨-, -, rfl⟩⟩ := decode_transaction_ok hd
  · rw [enables_of_hwr hsub hd] at hp
    rw [opOf] at ho
    split at ho
    · rename_i ha
      refine ⟨w, rest, op, hp, List.mem_singleton_self op, ?_⟩
      rw [← transactionWord_fields w, toNat_transactionWord, hdir, ha, toNat_of_decodeOp ho]
      rfl
    · cases ho
  · cases ho

theorem takesCommand_mono {s : State} {ops ops' : List Op} (h : TakesCommand s ops) (hsub : ∀ op ∈ ops, op ∈ ops') :
    TakesCommand s ops' := by
  obtain ⟨w, rest, op, hp, hop, hw⟩ := h
  exact ⟨w, rest, op, hp, hsub op hop, hw⟩

/-- All that a step can be: a reset, a command that is accepted and ends, a register write, or a quiet step. -/
theorem step_effect {s t : State} (h : step s = .next t) :
    (TakesReset s ∧ ∃ rest, t = State.resetEvent { s with pending := rest }) ∨
    (∃ rest op e r p u, TakesCommand s [op] ∧
      ruleOf op { s with pending := rest, flags := s.flags.accept op.code } = .ended e r p u ∧
      t = u.endCommand op e r p) ∨
    (∃ rest a d, s.phase = .idle ∧ TakesWrite s a ∧ t = writeReg d { s with pending := rest } (regAt a)) ∨
    Quiet s t := by
  rcases step_cases h with
    ⟨-, rfl⟩ | ⟨lost, rest, hp, rfl⟩ | ⟨en, w, rest, -, -, rfl⟩ | ⟨en, w, rest, i, hp, hsub, hd, hx⟩
  · exact .inr (.inr (.inr ⟨rfl, rfl, rfl, rfl, rfl, rfl, id, id⟩))
  · exact .inl ⟨⟨lost, rest, hp⟩, rest, rfl⟩
  · exact .inr (.inr (.inr ⟨rfl, rfl, rfl, rfl, rfl, rfl, id, id⟩))
  · rcases exec_cases hx with ⟨_, _, _, -, rfl | ⟨a, -, rfl⟩⟩ | ⟨hidle, hx⟩
    · have hq := Quiet.dropWrite { s with pending := rest }
      exact .inr (.inr (.inr { hq with }))
    · have hq := Quiet.busyRead { s with pending := rest } (readRegBusy { s with pending := rest } (regAt a))
        (s.free + 1)
      exact .inr (.inr (.inr { hq with }))
    · rcases hx with ⟨op, e, r, p, u, ho, hr, rfl⟩ | ⟨d, -, -, rfl⟩ | ⟨a, d, rfl, -, -, rfl⟩ | ⟨a, -, -, rfl⟩
      · exact .inr (.inl ⟨rest, op, e, r, p, u, takesCommand_of_opOf hp hsub hd ho, hr, rfl⟩)
      · have hq := Quiet.illegalCommand (s := { s with pending := rest }) d hidle
        exact .inr (.inr (.inr { hq with }))
      · rw [enables_of_hwr hsub hd] at hp
        exact .inr (.inr (.inl ⟨rest, a, d, hidle, ⟨w, rest, d, hp, hd⟩, rfl⟩))
      · have hq := Quiet.answerHost { s with pending := rest } (readReg { s with pending := rest } (regAt a))
        exact .inr (.inr (.inr { hq with }))

end Sys2Proof.Machine
end

section
/-! PROOFS. The obligations about every step and the invariant (R52 to R60). -/

namespace Sys2Proof.Machine

/-! ## The rules of the whole machine (R52 to R60) -/

/-- Settles O55: only the commands whose rule names the context can change it. -/
theorem contextChangesOnlyByRebuild : Obligations.ContextChangesOnlyByRebuild := by
  intro s t h
  rcases step_effect h with ⟨hr, rest, rfl⟩ | ⟨rest, op, e, r, p, u, hc, hrule, rfl⟩ | ⟨rest, a, d, -, -, rfl⟩ | hq
  · exact ⟨fun _ => .inl hr, fun _ hv => by cases hv⟩
  · refine ⟨fun hne => .inr ?_, fun hv hv' => ?_⟩
    · have hop : op ∈ [Op.build, .deserialize, .clear] := by
        by_contra hop
        exact hne ((ruleOf_effect hrule).ctx hop)
      exact takesCommand_mono hc (by simpa using hop)
    · rw [State.endCommand_ctx] at hv'
      rcases ruleOf_ctx hrule with hctx | hctx | ⟨hop, -⟩
      · exact absurd (hv.symm.trans (hctx ▸ hv')) (by decide)
      · exact absurd (hctx ▸ hv') (by decide)
      · exact takesCommand_mono hc (by simpa using hop)
  · exact ⟨fun hne => absurd (writeReg_ctx ..) hne, fun hv hv' => by simp [hv] at hv'⟩
  · exact ⟨fun hne => absurd hq.ctx hne, fun hv hv' => by simp [hq.ctx, hv] at hv'⟩

theorem widx_of_weights_changed {s : State} {a : Offset} {d : Word} {i : Nat}
    (h : Memory.read? (writeReg d s (regAt a)).weights i ≠ Memory.read? s.weights i) :
    a = 0x14 ∧ i = s.csr.widx.toNat := by
  rcases writeReg_weights d s (regAt a) with hw | ⟨hr, -, hw⟩
  · exact absurd (by rw [hw]) h
  · refine ⟨offset_of_regAt_wdata a hr, ?_⟩
    by_contra hi
    exact h (by rw [hw, Memory.read?_write_ne _ _ hi])

theorem cbidx_of_cb_changed {s : State} {a : Offset} {d : Word} {i : Nat}
    (h : Memory.read? (writeReg d s (regAt a)).cb i ≠ Memory.read? s.cb i) : a = 0x30 ∧ i = s.csr.cbidx.toNat := by
  rcases writeReg_cb d s (regAt a) with hw | ⟨hr, -, hw⟩
  · exact absurd (by rw [hw]) h
  · refine ⟨offset_of_regAt_cbdata a hr, ?_⟩
    by_contra hi
    exact h (by rw [hw, Memory.read?_write_ne _ _ hi])

/-- Settles O57: each RAM has one port, SERIALIZE alone writes CB besides it, and CLEAR alone clears OVR. -/
theorem ramsAndOverrunChangeOnlyByTheirWriters : Obligations.RamsAndOverrunChangeOnlyByTheirWriters := by
  intro s t h
  rcases step_effect h with ⟨hr, -⟩ | ⟨rest, op, e, r, p, u, hc, hrule, rfl⟩ | ⟨rest, a, d, -, hw, rfl⟩ | hq
  · exact ⟨fun _ _ => .inl hr, fun _ _ => .inl hr, fun _ _ => .inl hr⟩
  · have heff := ruleOf_effect hrule
    refine ⟨fun i hi => absurd ?_ hi, fun i hi => .inr (.inr ?_), fun hs ht => .inr ?_⟩
    · rw [State.endCommand_weights, heff.params_weights.2]
    · by_cases hop : op = .serialize
      · exact hop ▸ hc
      · exact absurd (by rw [State.endCommand_cb, heff.cb hop]) hi
    · by_cases hop : op = .clear
      · exact hop ▸ hc
      · exact absurd (hs.symm.trans ((heff.ovr hop).symm.trans ht)) (by decide)
  · refine ⟨fun i hi => .inr ?_, fun i hi => .inr (.inl ?_), fun hs ht => absurd ?_ (Bool.eq_false_iff.1 ht)⟩
    · obtain ⟨rfl, rfl⟩ := widx_of_weights_changed hi
      exact ⟨hw, rfl⟩
    · obtain ⟨rfl, rfl⟩ := cbidx_of_cb_changed hi
      exact ⟨hw, rfl⟩
    · exact writeReg_keeps_ovr d _ _ hs
  · refine ⟨fun i hi => absurd ?_ hi, fun i hi => absurd ?_ hi, fun hs ht =>
      absurd (hq.ovr hs) (Bool.eq_false_iff.1 ht)⟩
    · rw [hq.weights]
    · rw [hq.cb]

/-- A command keeps both RAMs in canonical form. -/
theorem ruleOf_ramsCanonical {op : Op} {s u : State} {e : ErrCode} {r : Nat} {p : PortUse}
    (h : ruleOf op s = .ended e r p u) (hs : s.RamsCanonical) : u.RamsCanonical := by
  refine ⟨(ruleOf_effect h).params_weights.2 ▸ hs.1, ?_⟩
  rcases ruleOf_cb h with hcb | ⟨-, _, -, -, hcb⟩
  · exact hcb ▸ hs.2
  · exact hcb ▸ Memory.wf_writeAll 0 _ hs.2

/-- So does a register write. -/
theorem writeReg_ramsCanonical {s : State} (d : Word) (r : Reg) (hs : s.RamsCanonical) :
    (writeReg d s r).RamsCanonical := by
  constructor
  · rcases writeReg_weights d s r with hw | ⟨-, -, hw⟩
    · exact hw ▸ hs.1
    · exact hw ▸ Memory.wf_write _ d hs.1
  · rcases writeReg_cb d s r with hw | ⟨-, -, hw⟩
    · exact hw ▸ hs.2
    · exact hw ▸ Memory.wf_write _ _ hs.2

/-- Settles O58: a context is kept, discarded with zeros, or valid. -/
theorem stepKeepsCanonicalForms : Obligations.StepKeepsCanonicalForms := by
  intro s t hrams hzero h
  rcases step_effect h with ⟨-, rest, rfl⟩ | ⟨rest, op, e, r, p, u, -, hrule, rfl⟩ | ⟨rest, a, d, -, -, rfl⟩ | hq
  · exact ⟨⟨rfl, rfl⟩, fun _ => ⟨rfl, rfl, rfl⟩⟩
  · have hu : u.RamsCanonical := ruleOf_ramsCanonical hrule hrams
    refine ⟨hu, fun hv => ?_⟩
    rw [State.endCommand_ctx] at hv ⊢
    rcases ruleOf_ctx hrule with hctx | hctx | ⟨-, hvalid, -⟩
    · rw [hctx] at hv ⊢
      exact hzero hv
    · rw [hctx]
      exact ⟨rfl, rfl, rfl⟩
    · exact absurd (hv.symm.trans hvalid) (by decide)
  · refine ⟨writeReg_ramsCanonical d _ hrams, ?_⟩
    rw [State.InvalidIsZero, writeReg_ctx]
    exact hzero
  · refine ⟨?_, ?_⟩
    · rw [State.RamsCanonical, hq.weights, hq.cb]
      exact hrams
    · rw [State.InvalidIsZero, hq.ctx]
      exact hzero

/-- The serialized form of a valid context fits CB (R11, R91). -/
theorem Context.Wf.codebook_fits {p : Params} {c : Context} {lens : List Nat} (hc : c.Wf p) (hp : Legal p)
    (hlt : ∀ l ∈ lens, l < 64) (hlen : lens.length = c.nsym.toNat) :
    (codebookBytes c.nsym.toNat lens).length ≤ p.cbBytes := by
  obtain ⟨-, -, hcb⟩ := hp
  have := uvlen_mono hc.nsym_le
  have := hc.nsym_le
  rw [length_codebookBytes hlt]
  omega

/-- A command's end keeps the invariant. -/
theorem endCommand_inv {op : Op} {s u : State} {e : ErrCode} {r : Nat} {p : PortUse} (hs : s.Inv)
    (h : ruleOf op s = .ended e r p u) (hforms : (u.endCommand op e r p).RamsCanonical ∧
      (u.endCommand op e r p).InvalidIsZero) : (u.endCommand op e r p).Inv := by
  obtain ⟨hparams, hweights⟩ := (ruleOf_effect h).params_weights
  constructor
  case rams => exact hforms.1
  case invalid_zero => exact hforms.2
  all_goals simp only [State.endCommand_params, State.endCommand_weights, State.endCommand_cb, State.endCommand_ctx,
    State.endCommand_phase, State.endCommand_flags, Flags.ended_done, hparams, hweights]
  case legal => exact hs.legal
  case weights_lt => exact hs.weights_lt
  case cb_lt =>
    rcases ruleOf_cb h with hcb | ⟨hv, lens, hlt, hlen, hcb⟩
    · exact hcb ▸ hs.cb_lt
    · have hfits := (hs.valid_wf hv).codebook_fits hs.legal hlt hlen
      intro x hx
      rcases Memory.mem_writeAll (hcb ▸ hx) with hx | ⟨-, hx⟩
      · exact hs.cb_lt x hx
      · omega
  case valid_wf =>
    intro hv
    rcases ruleOf_ctx h with hctx | hctx | ⟨-, -, hwf⟩
    · exact hctx ▸ hs.valid_wf (hctx ▸ hv)
    · exact absurd (hctx ▸ hv) (by decide)
    · exact hwf hs.legal
  case busy_not_done =>
    intro hb
    simpa using (Phase.ofWindow_isBusy _ _ _).1 hb

/-- A register write keeps the invariant. -/
theorem writeReg_inv {s : State} (d : Word) (r : Reg) (hidle : s.phase = .idle) (hs : s.Inv) :
    (writeReg d s r).Inv := by
  constructor
  case rams => exact writeReg_ramsCanonical d r hs.rams
  case invalid_zero => exact fun hv => writeReg_ctx d s r ▸ hs.invalid_zero (writeReg_ctx d s r ▸ hv)
  all_goals simp only [writeReg_params, writeReg_ctx, writeReg_phase]
  case legal => exact hs.legal
  case valid_wf => exact hs.valid_wf
  case busy_not_done => simp [hidle]
  case weights_lt =>
    intro x hx
    rcases writeReg_weights d s r with hw | ⟨-, hlt, hw⟩
    · exact hs.weights_lt x (hw ▸ hx)
    · rcases Memory.mem_write (hw ▸ hx) with rfl | hx
      · exact hlt
      · exact hs.weights_lt x hx
  case cb_lt =>
    intro x hx
    rcases writeReg_cb d s r with hw | ⟨-, hlt, hw⟩
    · exact hs.cb_lt x (hw ▸ hx)
    · rcases Memory.mem_write (hw ▸ hx) with rfl | hx
      · exact hlt
      · exact hs.cb_lt x hx

theorem resetOf_inv {p : Params} (h : Legal p) : (State.resetOf p).Inv where
  legal := h
  rams := ⟨rfl, rfl⟩
  weights_lt := by simp [State.resetOf]
  cb_lt := by simp [State.resetOf]
  valid_wf hv := by cases hv
  invalid_zero _ := ⟨rfl, rfl, rfl⟩
  busy_not_done hb := by cases hb

/-- Settles O59: BUILD and DESERIALIZE commit what CANON makes of lengths within the Kraft bound, and no other step
makes a context valid or an entry outside its RAM. -/
theorem stepKeepsInvariant : Obligations.StepKeepsInvariant := by
  intro s t hs h
  obtain ⟨hrams, hzero⟩ := stepKeepsCanonicalForms s t hs.rams hs.invalid_zero h
  rcases step_effect h with ⟨-, rest, rfl⟩ | ⟨rest, op, e, r, p, u, -, hrule, rfl⟩ | ⟨rest, a, d, hidle, -, rfl⟩ | hq
  · exact { resetOf_inv hs.legal with }
  · refine endCommand_inv (s := { s with pending := rest, flags := s.flags.accept op.code }) ?_ hrule ⟨hrams, hzero⟩
    exact { hs with busy_not_done := fun _ => rfl }
  · exact writeReg_inv d _ hidle { hs with }
  · exact {
      legal := hq.params ▸ hs.legal
      rams := hrams
      weights_lt := by rw [hq.weights, hq.params]; exact hs.weights_lt
      cb_lt := by rw [hq.cb, hq.params]; exact hs.cb_lt
      valid_wf := by rw [hq.ctx, hq.params]; exact hs.valid_wf
      invalid_zero := hzero
      busy_not_done := hq.busy hs.busy_not_done }

/-- Settles O60: no RAM entry is written, no context is valid, and the core is idle. -/
theorem resetHasInvariant : Obligations.ResetHasInvariant :=
  ⟨resetOf_inv (by decide), fun _ h => resetOf_inv h⟩

end Sys2Proof.Machine
end

section
/-! PROOFS. The obligations about a transaction's step, reset and the registers as the host reads and writes them. -/

namespace Sys2Proof.Machine

/-! ## Host transactions at one offset -/

section
variable {s : State} {a : Offset}

/-- A host read while BUSY = 0 changes only the host's record. -/
theorem exec_hrd_value {v : Word} (h : s.phase = .idle) (ha : Offset.aligned a = true) (hv : readReg s (regAt a) = v) :
    exec (.hrd a) s = .next { s with answers := s.answers ++ [v] } := by
  rw [exec_hrd_idle h ha, hv]
  rfl

/-- A register that reads the same inside the window and outside it has its value at all times. -/
theorem exec_hrd_answers {v : Word} (ha : Offset.aligned a = true) (hidle : readReg s (regAt a) = v)
    (hbusy : readRegBusy s (regAt a) = v) : ∃ t, exec (.hrd a) s = .next t ∧ t.answers = s.answers ++ [v] := by
  rcases hp : s.phase with _ | ⟨op, n, port⟩
  · exact ⟨_, exec_hrd_value hp ha hidle, rfl⟩
  · refine ⟨State.tick { s.answerHost v with free := s.free + 1 }, ?_, by simp⟩
    simp only [exec, execHrd, ha, if_true, hp, hbusy]

/-- A write to a register that ignores it: outside the window without any effect, inside it dropped. -/
theorem exec_hwr_ignored {d : Word} (ha : Offset.aligned a = true) (hc : a ≠ cmdOffset)
    (hro : writeReg d s (regAt a) = s) :
    ∃ t, exec (.hwr a d) s = .next t ∧ t.params = s.params ∧ (s.phase = .idle → t = s) := by
  rcases hp : s.phase with _ | ⟨op, n, port⟩
  · exact ⟨s, by rw [exec_hwr_idle d hp ha hc, hro], rfl, fun _ => rfl⟩
  · refine ⟨s.dropWrite, ?_, s.dropWrite_params, fun h => by cases h⟩
    simp only [exec, execHwr, ha, if_true, hp]

end

/-! ## A command word written to CMD (R87) -/

theorem decode_command_ok {d : Word} {i : Instr} (h : decode (.command d) = .ok i) :
    ∃ op : Op, decodeOp d = some op ∧ i = op.instr := by
  rw [decode] at h
  split at h
  · cases h
    exact ⟨_, ‹_›, rfl⟩
  · cases h

/-- A write of a command word to CMD is the command, inside the window too. -/
theorem exec_hwr_cmd {d : Word} {i : Instr} (h : decode (.command d) = .ok i) (s : State) :
    exec (.hwr cmdOffset d) s = exec i s := by
  obtain ⟨op, hop, rfl⟩ := decode_command_ok h
  have ha : Offset.aligned cmdOffset = true := by decide
  rw [exec_instr_eq]
  rcases hp : s.phase with _ | ⟨o, n, port⟩
  · rw [← execOp_eq]
    simp only [exec, execHwr, ha, if_true, hp, writeCmd, hop]
  · rw [acceptCommand_busy hp]
    simp only [exec, execHwr, ha, if_true, hp]

/-- A step takes a whole-word transaction and runs what it decodes to. -/
theorem step_transaction {s : State} {w : TransactionWord} {rest : List HostEvent} {i : Instr}
    (hp : s.pending = .transaction 0xF w :: rest) (hd : decode (.transaction w) = .ok i) :
    step s = exec i { s with pending := rest } := by
  have hsub : isSubWordWrite 0xF w = false := by simp [isSubWordWrite]
  simp only [step, fetch, hp, hsub, hd]
  rfl

theorem decode_hwr (a : Offset) (d : Word) (ha : Offset.aligned a = true) :
    decode (.transaction (transactionWord 1 a d)) = .ok (.hwr a d) := by
  simp [decode, ha]

/-- Settles O7: the word of a write to CMD is `transactionWord 1 cmdOffset d`. -/
theorem stepRunsPendingTransaction : Obligations.StepRunsPendingTransaction := by
  intro s w rest hp
  refine ⟨fun i hd => step_transaction hp hd, fun d i hw hd => ?_⟩
  have hword : w = transactionWord 1 cmdOffset d :=
    BitVec.eq_of_toNat_eq (by rw [hw, toNat_transactionWord]; rfl)
  rw [step_transaction hp (hword ▸ decode_hwr cmdOffset d (by decide)), exec_hwr_cmd hd]

/-! ## Reset (R63) -/

/-- A state that differs from the state after reset only in the streams, the host's side and the model's own fields. -/
theorem resetValues_of_eq {p : Params} {t : State}
    (h : t = { State.resetOf p with pending := t.pending, writer := t.writer, reader := t.reader, answers := t.answers,
                                    windows := t.windows, free := t.free, epoch := t.epoch }) : ResetValues p t := by
  have hidle : t.phase = .idle := by rw [h]; rfl
  have hstatus : statusWord t = statusWord State.reset := by rw [h]; rfl
  refine ⟨hidle, by rw [h]; rfl, by rw [h]; rfl, exec_hrd_value hidle (by decide) rfl,
    exec_hrd_value hidle (by decide) (hstatus.trans (by decide)), fun a ha => ?_,
    exec_hrd_value hidle (by decide) (by rw [h]; rfl), exec_hrd_value hidle (by decide) (by rw [h]; rfl),
    exec_hrd_value hidle (by decide) (by rw [h]; rfl), exec_hrd_value hidle (by decide) (by rw [h]; rfl),
    exec_hrd_value hidle (by decide) rfl, fun i => by rw [h]; exact ⟨rfl, rfl⟩⟩
  simp only [List.mem_cons, List.not_mem_nil, or_false] at ha
  rcases ha with rfl | rfl | rfl | rfl | rfl | rfl | rfl | rfl | rfl | rfl | rfl | rfl | rfl | rfl <;>
    exact exec_hrd_value hidle (by decide) (by rw [h]; rfl)

theorem step_reset {s : State} {lost : Option TransactionWord} {rest : List HostEvent}
    (hp : s.pending = .reset lost :: rest) : step s = .next (State.resetEvent { s with pending := rest }) := by
  simp only [step, fetch, hp]

/-- Outside a window a reset leaves both streams where they were (R181). -/
theorem streamsAfterReset_idle {s : State} (h : s.phase = .idle) :
    s.writerAfterReset = s.writer ∧ s.readerAfterReset = s.reader := by
  simp [State.writerAfterReset, State.readerAfterReset, h]

/-- Settles O10: a reset event gives `State.resetOf` but for the streams and the host's side. -/
theorem resetSetsEveryRegister : Obligations.ResetSetsEveryRegister := by
  refine ⟨fun p => resetValues_of_eq rfl, fun s lost rest hp => ?_⟩
  exact ⟨_, step_reset hp, resetValues_of_eq rfl, rfl, rfl, rfl, fun h =>
    streamsAfterReset_idle (s := { s with pending := rest }) h⟩

/-! ## The stored registers, the constants and STATUS (R30 to R41, R50, R51) -/

/-- Settles O12: `exec_hrd_value` and `exec_hwr_idle` at each offset. -/
theorem storedRegistersReadAndWrite : Obligations.StoredRegistersReadAndWrite := by
  intro s h
  refine ⟨exec_hrd_value h (by decide) rfl, exec_hrd_value h (by decide) rfl, exec_hrd_value h (by decide) rfl,
    exec_hrd_value h (by decide) rfl, exec_hrd_value h (by decide) rfl, exec_hrd_value h (by decide) rfl,
    exec_hrd_value h (by decide) rfl, exec_hrd_value h (by decide) rfl, exec_hrd_value h (by decide) rfl,
    exec_hrd_value h (by decide) rfl, exec_hrd_value h (by decide) rfl, exec_hrd_value h (by decide) rfl,
    fun d => ?_, fun d i hd => exec_hwr_cmd hd s⟩
  exact ⟨exec_hwr_idle d h (by decide) (by decide), exec_hwr_idle d h (by decide) (by decide),
    exec_hwr_idle d h (by decide) (by decide), exec_hwr_idle d h (by decide) (by decide),
    exec_hwr_idle d h (by decide) (by decide), exec_hwr_idle d h (by decide) (by decide),
    exec_hwr_idle d h (by decide) (by decide)⟩

/-- Settles O13: the constants read the same in the window as outside it. -/
theorem constantRegistersAtAllTimes : Obligations.ConstantRegistersAtAllTimes := by
  intro s a v h
  simp only [List.mem_cons, List.not_mem_nil, or_false, Prod.mk.injEq] at h
  rcases h with ⟨rfl, rfl⟩ | ⟨rfl, rfl⟩ | ⟨rfl, rfl⟩ | ⟨rfl, rfl⟩ <;>
    exact ⟨exec_hrd_answers (by decide) rfl rfl, fun d => exec_hwr_ignored (by decide) (by decide) rfl⟩

@[simp] theorem getLsbD_bit (b : Bool) (i : Nat) : (bit b).getLsbD i = (decide (i = 0) && b) := by
  cases b <;> simp [bit]

/-- The fields of STATUS, each bit at its place (R32). -/
theorem statusWord_getLsbD (s : State) (i : Nat) : (statusWord s).getLsbD i =
    if i < 1 then s.phase.isBusy
    else if i < 2 then s.flags.done
    else if i < 3 then s.ctx.valid
    else if i < 4 then s.flags.ovr
    else if i < 8 then false
    else if i < 12 then s.flags.err.code.getLsbD (i - 8)
    else if i < 16 then false
    else s.flags.lastop.getLsbD (i - 16) := by
  simp only [statusWord, BitVec.getLsbD_append, getLsbD_bit]
  rcases Nat.lt_or_ge i 4 with h | h
  · interval_cases i <;> simp
  · simp only [show ¬ i < 1 by omega, show ¬ i - 1 < 1 by omega, show ¬ i - 1 - 1 < 1 by omega,
      show ¬ i - 1 - 1 - 1 < 1 by omega, show ¬ i < 2 by omega, show ¬ i < 3 by omega, show ¬ i < 4 by omega, if_false]
    grind

/-- Settles O14, field by field from `statusWord_getLsbD`. -/
theorem statusWordFields : Obligations.StatusWordFields := by
  refine ⟨fun s h => ⟨statusWord s, exec_status_idle h, ?_⟩, rfl, rfl, rfl, rfl, rfl, rfl, rfl, rfl⟩
  have hbusy : s.phase.isBusy = false := by rw [h]; rfl
  refine ⟨?_, ?_, ?_, ?_, ?_, ?_, ?_, ?_, ?_⟩
  · rw [statusWord_getLsbD, if_pos (by decide), hbusy]
  · rw [statusWord_getLsbD]; rfl
  · rw [statusWord_getLsbD]; rfl
  · rw [statusWord_getLsbD]; rfl
  all_goals
    refine BitVec.eq_of_getLsbD_eq fun i hi => ?_
    rw [BitVec.getLsbD_extractLsb', statusWord_getLsbD]
    grind

end Sys2Proof.Machine
end

section
/-! PROOFS. The obligations about the data ports, the readback registers and the offsets that ignore writes
(10_state.md). -/

namespace Sys2Proof.Machine

/-! ## The data ports (R34, R35, R41, R42) -/

theorem extractLsb'_low_byte (d : Word) : d.extractLsb' 0 8 = BitVec.ofNat 8 d.toNat :=
  BitVec.eq_of_toNat_eq (by simp)

theorem zeroExtend_byte (v : Byte) : v.zeroExtend 32 = BitVec.ofNat 32 v.toNat :=
  BitVec.eq_of_toNat_eq (by simp)

section
variable {s : State}

theorem writeWdata_of_lt (d : Word) (h : s.csr.widx.toNat < s.params.nMax) :
    writeWdata d s = { s with weights := Memory.write s.weights s.csr.widx.toNat d
                              csr := { s.csr with widx := s.csr.widx + 1 } } := by
  simp only [writeWdata, h, if_true]

theorem writeWdata_of_ge (d : Word) (h : s.params.nMax ≤ s.csr.widx.toNat) :
    writeWdata d s = { s with flags := { s.flags with ovr := true }
                              csr := { s.csr with widx := s.csr.widx + 1 } } := by
  simp only [writeWdata, Nat.not_lt.2 h, if_false]
  rfl

theorem readWdata_of_lt (h : s.csr.widx.toNat < s.params.nMax) :
    readWdata s = (Memory.read? s.weights s.csr.widx.toNat).getD (Config.ramWeight s.epoch s.csr.widx.toNat) :=
  if_pos h

theorem readWdata_of_ge (h : s.params.nMax ≤ s.csr.widx.toNat) : readWdata s = 0 := if_neg (Nat.not_lt.2 h)

theorem writeCbdata_of_lt (d : Word) (h : s.csr.cbidx.toNat < s.params.cbBytes) :
    writeCbdata d s = { s with cb := Memory.write s.cb s.csr.cbidx.toNat (BitVec.ofNat 8 d.toNat)
                               csr := { s.csr with cbidx := s.csr.cbidx + 1 } } := by
  simp only [writeCbdata, h, if_true, extractLsb'_low_byte]

theorem writeCbdata_of_ge (d : Word) (h : s.params.cbBytes ≤ s.csr.cbidx.toNat) :
    writeCbdata d s = { s with flags := { s.flags with ovr := true }
                               csr := { s.csr with cbidx := s.csr.cbidx + 1 } } := by
  simp only [writeCbdata, Nat.not_lt.2 h, if_false]
  rfl

theorem readCbdata_of_lt (h : s.csr.cbidx.toNat < s.params.cbBytes) :
    readCbdata s = BitVec.ofNat 32
      ((Memory.read? s.cb s.csr.cbidx.toNat).getD (Config.ramByte s.epoch s.csr.cbidx.toNat)).toNat :=
  (if_pos h).trans (zeroExtend_byte _)

theorem readCbdata_of_ge (h : s.params.cbBytes ≤ s.csr.cbidx.toNat) : readCbdata s = 0 := if_neg (Nat.not_lt.2 h)

end

/-- Settles O15: `writeWdata` and `readWdata` within N_MAX and beyond. -/
theorem weightPort : Obligations.WeightPort := by
  intro s hidle
  have hwrite : ∀ d, exec (.hwr 0x14 d) s = .next (writeWdata d s) := fun d =>
    exec_hwr_idle d hidle (by decide) (by decide)
  have hread : ∀ v, readWdata s = v → exec (.hrd 0x14) s = .next { s with answers := s.answers ++ [v] } := fun v hv =>
    exec_hrd_value hidle (by decide) hv
  refine ⟨fun h => ⟨fun d => ⟨_, hwrite d, ?_, ?_, fun a ha => ?_⟩, fun v hv => hread v ?_, fun _ => ⟨_, hread _ rfl⟩⟩,
    fun h => ⟨fun d => ?_, hread 0 (readWdata_of_ge h)⟩⟩
  · rw [writeWdata_of_lt d h]
  · rw [writeWdata_of_lt d h]
    exact Memory.read?_write_self ..
  · rw [writeWdata_of_lt d h]
    exact Memory.read?_write_ne _ _ ha
  · rw [readWdata_of_lt h, hv]
    rfl
  · rw [hwrite, writeWdata_of_ge d h]

/-- Settles O16: `writeCbdata` and `readCbdata` within CB_BYTES and beyond. -/
theorem codebookPort : Obligations.CodebookPort := by
  intro s hidle
  have hwrite : ∀ d, exec (.hwr 0x30 d) s = .next (writeCbdata d s) := fun d =>
    exec_hwr_idle d hidle (by decide) (by decide)
  have hread : ∀ v, readCbdata s = v → exec (.hrd 0x30) s = .next { s with answers := s.answers ++ [v] } := fun v hv =>
    exec_hrd_value hidle (by decide) hv
  refine ⟨fun h => ⟨fun d => ⟨_, hwrite d, ?_, ?_, fun a ha => ?_⟩, fun v hv => hread _ ?_,
      fun _ => ⟨_, hread _ (readCbdata_of_lt h)⟩⟩,
    fun h => ⟨fun d => ?_, hread 0 (readCbdata_of_ge h)⟩⟩
  · rw [writeCbdata_of_lt d h]
  · rw [writeCbdata_of_lt d h]
    exact Memory.read?_write_self ..
  · rw [writeCbdata_of_lt d h]
    exact Memory.read?_write_ne _ _ ha
  · rw [readCbdata_of_lt h, hv]
    rfl
  · rw [hwrite, writeCbdata_of_ge d h]

/-! ## The readback registers and the offsets that ignore writes (R45 to R51) -/

/-- Settles O17: each readback register is the two branches of its definition. -/
theorem readbackRegisters : Obligations.ReadbackRegisters := by
  rintro s _ h rfl
  exact ⟨readTlen s, readTcode s, readTsort s, readTnuml s,
    exec_hrd_value h (by decide) rfl, exec_hrd_value h (by decide) rfl, exec_hrd_value h (by decide) rfl,
    exec_hrd_value h (by decide) rfl, fun hc => if_pos hc, fun hc => if_neg hc, fun hc => if_pos hc,
    fun hc => if_neg hc, fun hc => if_pos hc, fun hc => if_neg hc, fun hc => if_pos hc, fun hc => if_neg hc⟩

theorem regAt_reserved (a : Offset) : a.toNat % 4 = 0 → 0x5C ≤ a.toNat → regAt a = .reserved := by
  revert a; decide

/-- Settles O19: a reserved offset names no register, and a read-only one keeps its value. -/
theorem reservedAndReadOnlyOffsets : Obligations.ReservedAndReadOnlyOffsets := by
  intro s a d h
  constructor
  · intro halign hge
    have ha : Offset.aligned a = true := (Offset.aligned_iff a).2 halign
    have hr := regAt_reserved a halign hge
    have hc : a ≠ cmdOffset := by
      rintro rfl
      exact absurd hge (by decide)
    exact ⟨exec_hrd_value h ha (by rw [hr]; rfl), by rw [exec_hwr_idle d h ha hc, hr]; rfl⟩
  · intro ha
    simp only [List.mem_cons, List.not_mem_nil, or_false] at ha
    rcases ha with rfl | rfl | rfl | rfl | rfl | rfl | rfl | rfl | rfl | rfl | rfl | rfl | rfl <;>
      exact exec_hwr_idle d h (by decide) (by decide)

end Sys2Proof.Machine
end

section
/-! PROOFS. The obligations about sub-word transactions and about reads without a side effect (20_memory.md). -/

namespace Sys2Proof.Machine

/-! ## Sub-word transactions (R73) -/

section
variable {s : State} {en : BitVec 4} {w : TransactionWord} {rest : List HostEvent}

theorem isSubWordWrite_eq_true_iff : isSubWordWrite en w = true ↔ dirField w = 1 ∧ en ≠ 0xF := by
  simp [isSubWordWrite]

theorem step_subWordWrite (hp : s.pending = .transaction en w :: rest) (hsub : isSubWordWrite en w = true) :
    step s = .next { s with pending := rest } := by
  simp only [step, fetch, hp, hsub, if_true]

/-- A step takes any transaction other than a sub-word write, whatever its byte enables, and runs what it decodes to. -/
theorem step_of_not_subWordWrite {i : Instr} (hp : s.pending = .transaction en w :: rest)
    (hsub : isSubWordWrite en w = false) (hd : decode (.transaction w) = .ok i) :
    step s = exec i { s with pending := rest } := by
  simp only [step, fetch, hp, hsub, hd]
  rfl

/-- Only a word with DIR = 0 is a read (R90). -/
theorem dirField_ne_one_of_decode_hrd {a : Offset} (h : decode (.transaction w) = .ok (.hrd a)) : dirField w ≠ 1 := by
  intro hdir
  rw [decode, if_pos hdir] at h
  split at h <;> cases h

end

/-- Settles O8: a sub-word write is the one transaction that `fetch` ignores, and a read is never one. -/
theorem subWordTransactions : Obligations.SubWordTransactions := by
  intro s en w rest hen hp
  constructor
  · intro hw
    exact step_subWordWrite hp (isSubWordWrite_eq_true_iff.2 ⟨(dirField_eq_one_iff w).2 hw, hen⟩)
  · intro a hd
    have hsub : isSubWordWrite en w = false :=
      Bool.eq_false_iff.2 fun h => dirField_ne_one_of_decode_hrd hd (isSubWordWrite_eq_true_iff.1 h).1
    exact step_of_not_subWordWrite hp hsub hd

/-! ## Reads without a side effect (R75) -/

/-- No register's value depends on what the host has read before. -/
@[simp] theorem readReg_answerHost (s : State) (v : Word) (r : Reg) : readReg (s.answerHost v) r = readReg s r := by
  cases r <;> rfl

/-- Settles O18: the second read finds the state of the first but for the host's record, which no register reads. -/
theorem hostReadHasNoSideEffect : Obligations.HostReadHasNoSideEffect := by
  intro s a hidle halign
  have ha : Offset.aligned a = true := (Offset.aligned_iff a).2 halign
  refine ⟨readReg s (regAt a), exec_hrd_idle hidle ha, ?_⟩
  have hsecond := exec_hrd_value (s := s.answerHost (readReg s (regAt a))) hidle ha (readReg_answerHost ..)
  rwa [State.answerHost_answers, List.append_assoc] at hsecond

end Sys2Proof.Machine
end

section
/-! PROOFS. The obligations about the two word formats (30_encoding.md): command words (R85 to R88) and transaction
words (R90). -/

namespace Sys2Proof

/-! ## Command words (R86) -/

theorem decodeOp_word (op : Op) : decodeOp op.word = some op := by
  cases op <;> decide

/-- A command word selects an operation exactly when it is that operation's word. -/
theorem decodeOp_eq_some_iff {d : Word} {op : Op} : decodeOp d = some op ↔ d = op.word := by
  constructor
  · intro h
    apply BitVec.eq_of_toNat_eq
    rw [Machine.toNat_of_decodeOp h, Machine.toNat_of_decodeOp (decodeOp_word op)]
  · rintro rfl
    exact decodeOp_word op

theorem decode_command_iff {d : Word} {i : Instr} :
    decode (.command d) = .ok i ↔ ∃ op : Op, d = op.word ∧ i = op.instr := by
  constructor
  · intro h
    obtain ⟨op, hop, hi⟩ := Machine.decode_command_ok h
    exact ⟨op, decodeOp_eq_some_iff.1 hop, hi⟩
  · rintro ⟨op, rfl, rfl⟩
    rw [decode, decodeOp_word]

theorem decode_commandWord (op : Op) : decode (.command op.word) = .ok op.instr :=
  decode_command_iff.2 ⟨op, rfl, rfl⟩

theorem encode_instr (op : Op) : encode op.instr = .command op.word := by
  cases op <;> rfl

theorem wellFormed_instr (op : Op) : op.instr.WellFormed := by
  cases op <;> rfl

theorem Op.exists_iff {P : Op → Prop} :
    (∃ op, P op) ↔ P .nop ∨ P .build ∨ P .serialize ∨ P .deserialize ∨ P .symlen ∨ P .encode ∨ P .decode ∨ P .clear := by
  constructor
  · rintro ⟨op, h⟩
    cases op <;> simp only [h, true_or, or_true]
  · rintro (h | h | h | h | h | h | h | h) <;> exact ⟨_, h⟩

/-- Every instruction is a command or one of the two host transactions. -/
theorem Instr.command_or_transaction (i : Instr) :
    (∃ op : Op, i = op.instr) ∨ (∃ a d, i = .hwr a d) ∨ ∃ a, i = .hrd a := by
  cases i with
  | hwr a d => exact .inr (.inl ⟨a, d, rfl⟩)
  | hrd a => exact .inr (.inr ⟨a, rfl⟩)
  | nop => exact .inl ⟨.nop, rfl⟩
  | build => exact .inl ⟨.build, rfl⟩
  | serialize => exact .inl ⟨.serialize, rfl⟩
  | deserialize => exact .inl ⟨.deserialize, rfl⟩
  | symlen => exact .inl ⟨.symlen, rfl⟩
  | encode => exact .inl ⟨.encode, rfl⟩
  | decode => exact .inl ⟨.decode, rfl⟩
  | clear => exact .inl ⟨.clear, rfl⟩

/-! ## Transaction words (R90) -/

theorem dirField_eq_zero_of_ne_one {w : TransactionWord} (h : dirField w ≠ 1) : dirField w = 0 := by
  generalize dirField w = b at h ⊢
  revert b
  decide

theorem dirField_ne_one_iff (w : TransactionWord) : dirField w ≠ 1 ↔ w.toNat / 2 ^ 40 = 0 := by
  rw [Ne, dirField_eq_one_iff]
  have := w.isLt
  omega

/-- A write is read from DIR = 1, ADDR and DATA, and ADDR is aligned. -/
theorem decode_hwr_iff {w : TransactionWord} {a : Offset} {d : Word} :
    decode (.transaction w) = .ok (.hwr a d) ↔
      dirField w = 1 ∧ addrField w = a ∧ dataField w = d ∧ Offset.aligned a = true := by
  constructor
  · intro h
    obtain ⟨ha, ⟨hdir, hi⟩ | ⟨-, -, hi⟩⟩ := Machine.decode_transaction_ok h <;> cases hi
    exact ⟨hdir, rfl, rfl, ha⟩
  · rintro ⟨hdir, rfl, rfl, ha⟩
    rw [decode, if_pos ha, if_pos hdir]

/-- A read is read from DIR = 0, ADDR and DATA = 0, and ADDR is aligned. -/
theorem decode_hrd_iff {w : TransactionWord} {a : Offset} :
    decode (.transaction w) = .ok (.hrd a) ↔
      dirField w ≠ 1 ∧ addrField w = a ∧ dataField w = 0 ∧ Offset.aligned a = true := by
  constructor
  · intro h
    obtain ⟨ha, ⟨-, hi⟩ | ⟨hdir, hdata, hi⟩⟩ := Machine.decode_transaction_ok h <;> cases hi
    exact ⟨hdir, rfl, hdata, ha⟩
  · rintro ⟨hdir, rfl, hdata, ha⟩
    rw [decode, if_pos ha, if_neg hdir, if_pos hdata]

theorem decode_hrd (a : Offset) (ha : Offset.aligned a = true) :
    decode (.transaction (transactionWord 0 a 0)) = .ok (.hrd a) :=
  decode_hrd_iff.2 ⟨by simp, by simp, by simp, ha⟩

/-! ## The obligations -/

/-- Settles O4: a command's word is its operation's, and a transaction word's fields are those it was made from. -/
theorem encodedInstructionDecodesBack : Obligations.EncodedInstructionDecodesBack := by
  intro i hwf
  obtain ⟨op, rfl⟩ | ⟨a, d, rfl⟩ | ⟨a, rfl⟩ := i.command_or_transaction
  · rw [encode_instr, decode_commandWord]
  · exact Machine.decode_hwr a d hwf
  · exact decode_hrd a hwf

/-- Settles O2: `decode_command_iff`, with the eight operations written out. -/
theorem commandWordSelectsOperation : Obligations.CommandWordSelectsOperation := by
  intro d i
  rw [decode_command_iff, Op.exists_iff]
  exact Iff.rfl

/-- Settles O3: the fields of `decode_hwr_iff` and `decode_hrd_iff` as parts of the word's number. -/
theorem transactionWordFields : Obligations.TransactionWordFields := by
  constructor
  · intro w a d
    rw [decode_hwr_iff, dirField_eq_one_iff, Offset.aligned_iff, ← addrField_toNat, ← dataField_toNat, BitVec.toNat_inj,
      BitVec.toNat_inj, eq_comm (a := a), eq_comm (a := d)]
  · intro w a
    rw [decode_hrd_iff, dirField_ne_one_iff, Offset.aligned_iff, ← addrField_toNat, ← dataField_toNat, BitVec.toNat_inj,
      eq_comm (a := a), ← BitVec.toNat_inj (x := dataField w)]
    rfl

/-- Settles O5: a command word is its operation's word, and a transaction word is its three fields. -/
theorem decodedWordEncodesBack : Obligations.DecodedWordEncodesBack := by
  intro w i h
  cases w with
  | command d =>
    obtain ⟨op, rfl, rfl⟩ := decode_command_iff.1 h
    exact ⟨wellFormed_instr op, encode_instr op⟩
  | transaction w =>
    obtain ⟨ha, ⟨hdir, rfl⟩ | ⟨hdir, hdata, rfl⟩⟩ := Machine.decode_transaction_ok h
    · exact ⟨ha, congrArg PortWord.transaction (hdir ▸ transactionWord_fields w)⟩
    · exact ⟨ha, congrArg PortWord.transaction
        (dirField_eq_zero_of_ne_one hdir ▸ hdata ▸ transactionWord_fields w)⟩

/-- Settles O1: each command word is `Op.word` of its operation, and each transaction word is made of its fields. -/
theorem specWordsDecode : Obligations.SpecWordsDecode :=
  ⟨decode_commandWord .nop, decode_commandWord .build, decode_commandWord .serialize, decode_commandWord .deserialize,
    decode_commandWord .symlen, decode_commandWord .encode, decode_commandWord .decode, decode_commandWord .clear,
    Machine.decode_hwr 0x0C 6 (by decide), Machine.decode_hwr 0x18 0xFFFFFFFF (by decide),
    decode_hrd 0x08 (by decide)⟩

end Sys2Proof
end

section
/-! PROOFS. The obligation about varints (R92 to R95): their bytes as groups, what is written and what is read. -/

namespace Sys2Proof.Machine

/-! ## Encodings as lists of groups (R92) -/

/-- Bytes with bit 7 set, then one byte with bit 7 clear: the form of a varint, minimal or not. -/
inductive IsGroups : List Byte → Prop
  | last {b : Byte} : b.toNat < 0x80 → IsGroups [b]
  | more {b : Byte} {bs : List Byte} : 0x80 ≤ b.toNat → IsGroups bs → IsGroups (b :: bs)

theorem isGroups_singleton {b : Byte} : IsGroups [b] ↔ b.toNat < 0x80 := by
  constructor
  · rintro (hb | ⟨-, hbs⟩)
    · exact hb
    · cases hbs
  · exact .last

theorem isGroups_cons_cons {b c : Byte} {bs : List Byte} :
    IsGroups (b :: c :: bs) ↔ 0x80 ≤ b.toNat ∧ IsGroups (c :: bs) := by
  constructor
  · rintro (- | ⟨hb, hbs⟩)
    exact ⟨hb, hbs⟩
  · rintro ⟨hb, hbs⟩
    exact .more hb hbs

theorem isGroups_iff {bytes : List Byte} :
    IsGroups bytes ↔ bytes ≠ [] ∧ (∀ b ∈ bytes.dropLast, 0x80 ≤ b.toNat) ∧ ∀ b ∈ bytes.getLast?, b.toNat < 0x80 := by
  induction bytes with
  | nil => exact ⟨fun h => (nomatch h), fun h => absurd rfl h.1⟩
  | cons b bs ih =>
    cases bs with
    | nil => simp [isGroups_singleton]
    | cons c bs =>
      rw [isGroups_cons_cons, ih, List.dropLast_cons_cons, List.getLast?_cons_cons, List.forall_mem_cons]
      simp only [ne_eq, reduceCtorEq, not_false_eq_true, true_and, and_assoc]

theorem isUvarint_iff {bytes : List Byte} {v : Nat} :
    IsUvarint bytes v ↔ IsGroups bytes ∧ bytes.length ≤ 10 ∧ uvarintValue bytes = v ∧ v < 2 ^ 64 := by
  rw [IsUvarint, isGroups_iff]
  tauto

/-! ## What is written (R92, R93) -/

/-- The byte of a group with more to come: bit 7, then the low seven bits of v. -/
theorem toNat_moreByte (v : Nat) : (BitVec.ofNat 8 ((v &&& 0x7F) ||| 0x80)).toNat = 2 ^ 7 + v % 2 ^ 7 := by
  have hgroup : v &&& 0x7F = v % 2 ^ 7 := Nat.and_two_pow_sub_one_eq_mod v 7
  have hbit : v % 2 ^ 7 ||| 0x80 = 2 ^ 7 + v % 2 ^ 7 := by
    rw [Nat.or_comm]
    exact (Nat.two_pow_add_eq_or_of_lt (i := 7) (Nat.mod_lt v (by decide)) 1).symm
  rw [hgroup, hbit, BitVec.toNat_ofNat]
  omega

theorem uvarintEnc_go_of_lt (fuel : Nat) {v : Nat} (h : v < 2 ^ 7) : uvarintEnc.go fuel v = [BitVec.ofNat 8 v] := by
  cases fuel with
  | zero => rfl
  | succ fuel => rw [uvarintEnc.go, if_neg (by omega)]

theorem uvarintEnc_go_of_ge (fuel : Nat) {v : Nat} (h : 2 ^ 7 ≤ v) :
    uvarintEnc.go (fuel + 1) v = BitVec.ofNat 8 ((v &&& 0x7F) ||| 0x80) :: uvarintEnc.go fuel (v / 2 ^ 7) := by
  rw [uvarintEnc.go, if_pos (by omega), Nat.shiftRight_eq_div_pow]

theorem isGroups_and_value_single {v : Nat} (h : v < 2 ^ 7) :
    IsGroups [BitVec.ofNat 8 v] ∧ uvarintValue [BitVec.ofNat 8 v] = v := by
  have hbyte : (BitVec.ofNat 8 v).toNat = v := by rw [BitVec.toNat_ofNat]; omega
  refine ⟨.last (by omega), ?_⟩
  rw [uvarintValue, uvarintValue, hbyte]
  omega

/-- Dropping the low group of a value that fits `fuel + 2` groups leaves one that fits `fuel + 1`. -/
theorem div_group_lt {fuel v : Nat} (h : v < 2 ^ (7 * (fuel + 1 + 1))) : v / 2 ^ 7 < 2 ^ (7 * (fuel + 1)) := by
  rwa [Nat.div_lt_iff_lt_mul (by decide), ← Nat.pow_add]

/-- A value that fits `fuel + 1` groups is written as its groups. -/
theorem uvarintEnc_go_groups (fuel : Nat) {v : Nat} (hv : v < 2 ^ (7 * (fuel + 1))) :
    IsGroups (uvarintEnc.go fuel v) ∧ uvarintValue (uvarintEnc.go fuel v) = v := by
  induction fuel generalizing v with
  | zero => exact isGroups_and_value_single hv
  | succ fuel ih =>
    rcases Nat.lt_or_ge v (2 ^ 7) with hlt | hge
    · rw [uvarintEnc_go_of_lt _ hlt]
      exact isGroups_and_value_single hlt
    · obtain ⟨hgroups, hvalue⟩ := ih (div_group_lt hv)
      rw [uvarintEnc_go_of_ge _ hge]
      refine ⟨.more (by rw [toNat_moreByte]; omega) hgroups, ?_⟩
      rw [uvarintValue, hvalue, toNat_moreByte]
      omega

theorem size_div_group (v : Nat) : Nat.size (v / 2 ^ 7) = Nat.size v - 7 := by
  have hle (n : Nat) : Nat.size (v / 2 ^ 7) ≤ n ↔ Nat.size v ≤ n + 7 := by
    rw [Nat.size_le, Nat.size_le, Nat.div_lt_iff_lt_mul (by decide), ← Nat.pow_add]
  have hub := (hle (Nat.size v - 7)).2 (by omega)
  have hlb := (hle _).1 le_rfl
  omega

theorem uvlen_go_eq (fuel : Nat) {v : Nat} (hv : v < 2 ^ (7 * (fuel + 1))) :
    uvlen.go fuel v = max 1 ((Nat.size v + 6) / 7) := by
  induction fuel generalizing v with
  | zero =>
    have hsize : Nat.size v ≤ 7 := Nat.size_le.2 hv
    rw [uvlen.go]
    omega
  | succ fuel ih =>
    rw [uvlen.go]
    split
    · have hsize : Nat.size v ≤ 7 := Nat.size_le.2 ‹_›
      omega
    · have hsize : 7 < Nat.size v := Nat.lt_size.2 (by omega)
      rw [ih (div_group_lt hv), size_div_group]
      omega

theorem uvlen_eq {v : Nat} (hv : v < 2 ^ 64) : uvlen v = max 1 ((Nat.size v + 6) / 7) :=
  uvlen_go_eq 9 (by omega)

theorem uvlen_le_ten {v : Nat} (hv : v < 2 ^ 64) : uvlen v ≤ 10 := by
  have hsize : Nat.size v ≤ 64 := Nat.size_le.2 hv
  rw [uvlen_eq hv]
  omega

theorem isUvarint_uvarintEnc {v : Nat} (hv : v < 2 ^ 64) : IsUvarint (uvarintEnc v) v := by
  obtain ⟨hgroups, hvalue⟩ := uvarintEnc_go_groups 9 (v := v) (by omega)
  exact isUvarint_iff.2 ⟨hgroups, (length_uvarintEnc v).trans_le (uvlen_le_ten hv), hvalue, hv⟩

/-! ## What is read (R92) -/

/-- A group placed above the bits of x already read. -/
theorem or_shiftLeft_group {x i : Nat} (g : Nat) (hx : x < 2 ^ (7 * i)) : x ||| g <<< (7 * i) = x + 2 ^ (7 * i) * g := by
  rw [Nat.or_comm, ← Nat.shiftLeft_add_eq_or_of_lt hx, Nat.shiftLeft_eq, Nat.add_comm, Nat.mul_comm]

section
variable {cb : Memory 8} {p e i x : Nat} {b : Byte}

theorem uvarintDec_go_more (fuel : Nat) (he : p + i < e) (hi : i < 10) (hb : Memory.read? cb (p + i) = some b)
    (hmore : 0x80 ≤ b.toNat) (hx : x < 2 ^ (7 * i)) :
    uvarintDec.go cb p e (fuel + 1) i x =
      uvarintDec.go cb p e fuel (i + 1) (x + 2 ^ (7 * i) * (b.toNat % 2 ^ 7)) := by
  have hgroup : b.toNat &&& 0x7F = b.toNat % 2 ^ 7 := Nat.and_two_pow_sub_one_eq_mod _ 7
  rw [uvarintDec.go, if_neg (by omega), if_neg (by omega), hb]
  simp only [if_neg (Nat.not_lt.2 hmore)]
  rw [hgroup, or_shiftLeft_group _ hx]

theorem uvarintDec_go_last (fuel : Nat) (he : p + i < e) (hi : i < 10) (hb : Memory.read? cb (p + i) = some b)
    (hlast : b.toNat < 0x80) (hx : x < 2 ^ (7 * i)) (hfits : ¬ (i = 9 ∧ 1 < b.toNat)) :
    uvarintDec.go cb p e (fuel + 1) i x = .value (x + 2 ^ (7 * i) * b.toNat) (i + 1) := by
  rw [uvarintDec.go, if_neg (by omega), if_neg (by omega), hb]
  simp only [if_pos hlast, if_neg hfits]
  rw [or_shiftLeft_group _ hx]

end

theorem HoldsAt.head {w : Nat} {m : Memory w} {a : Nat} {v : BitVec w} {vs : List (BitVec w)}
    (h : HoldsAt m a (v :: vs)) : Memory.read? m a = some v :=
  h 0 (by simp)

theorem HoldsAt.tail {w : Nat} {m : Memory w} {a : Nat} {v : BitVec w} {vs : List (BitVec w)}
    (h : HoldsAt m a (v :: vs)) : HoldsAt m (a + 1) vs := by
  intro j hj
  rw [Nat.add_assoc, Nat.add_comm 1 j]
  exact h (j + 1) (by simpa using hj)

/-- With the value x of i groups already read, the loop goes on to read the groups that stand at p + i. -/
theorem uvarintDec_go_groups {cb : Memory 8} {p e : Nat} {bytes : List Byte} (hgroups : IsGroups bytes) (fuel : Nat)
    {i x : Nat} (hfuel : bytes.length ≤ fuel) (hten : i + bytes.length ≤ 10) (he : p + i + bytes.length ≤ e)
    (hcb : HoldsAt cb (p + i) bytes) (hx : x < 2 ^ (7 * i)) (hv : x + 2 ^ (7 * i) * uvarintValue bytes < 2 ^ 64) :
    uvarintDec.go cb p e fuel i x = .value (x + 2 ^ (7 * i) * uvarintValue bytes) (i + bytes.length) := by
  induction hgroups generalizing fuel i x with
  | @last b hb =>
    obtain ⟨fuel, rfl⟩ := Nat.exists_eq_add_of_le' hfuel
    rw [List.length_singleton] at hten he ⊢
    have hvalue : uvarintValue [b] = b.toNat := by rw [uvarintValue, uvarintValue]; omega
    rw [hvalue] at hv ⊢
    have hfits : ¬ (i = 9 ∧ 1 < b.toNat) := by
      rintro ⟨rfl, hbit⟩
      omega
    exact uvarintDec_go_last fuel (by omega) (by omega) hcb.head hb hx hfits
  | @more b bs hb _ ih =>
    rw [List.length_cons] at hfuel hten he ⊢
    obtain ⟨fuel, rfl⟩ := Nat.exists_eq_add_of_le' (Nat.le_of_add_left_le hfuel)
    have hpow : 2 ^ (7 * (i + 1)) = 2 ^ (7 * i) * 2 ^ 7 := Nat.pow_add 2 (7 * i) 7
    have hx' : x + 2 ^ (7 * i) * (b.toNat % 2 ^ 7) < 2 ^ (7 * (i + 1)) := by
      have hmod : b.toNat % 2 ^ 7 < 2 ^ 7 := Nat.mod_lt _ (by decide)
      rw [hpow]
      nlinarith
    have hsplit : x + 2 ^ (7 * i) * uvarintValue (b :: bs) =
        x + 2 ^ (7 * i) * (b.toNat % 2 ^ 7) + 2 ^ (7 * (i + 1)) * uvarintValue bs := by
      rw [uvarintValue, hpow]
      ring
    rw [hsplit] at hv ⊢
    rw [uvarintDec_go_more fuel (by omega) (by omega) hcb.head hb hx,
      ih fuel (by omega) (by omega) (by omega) hcb.tail hx' hv, Nat.add_right_comm i, Nat.add_assoc i]

theorem uvarintDec_of_isUvarint {bytes : List Byte} {v p e : Nat} {cb : Memory 8} (h : IsUvarint bytes v)
    (hcb : HoldsAt cb p bytes) (he : p + bytes.length ≤ e) : uvarintDec cb p e = .value v bytes.length := by
  obtain ⟨hgroups, hten, rfl, hv⟩ := isUvarint_iff.1 h
  rw [uvarintDec, uvarintDec_go_groups hgroups 11 (by omega) (by omega) he hcb (by decide) (by omega)]
  simp

/-! ## Zig-zag (R94, R95) -/

theorem zigzagDec_even (k : Nat) : zigzagDec (2 * k) = k := by
  rw [zigzagDec, if_pos (by omega), Nat.mul_div_cancel_left k (by decide)]

theorem zigzagDec_odd (k : Nat) : zigzagDec (2 * k + 1) = -((k : Int) + 1) := by
  rw [zigzagDec, if_neg (by omega), Nat.mul_add_div (by decide)]
  omega

theorem zigzagEnc_natCast (k : Nat) : zigzagEnc (k : Int) = 2 * k := by
  rw [zigzagEnc, if_pos (by omega)]
  omega

theorem zigzagEnc_neg (k : Nat) : zigzagEnc (-((k : Int) + 1)) = 2 * k + 1 := by
  rw [zigzagEnc, if_neg (by omega)]
  omega

theorem zigzagDec_zigzagEnc (v : Int) : zigzagDec (zigzagEnc v) = v := by
  rcases lt_or_ge v 0 with hneg | hpos
  · obtain ⟨k, rfl⟩ : ∃ k : Nat, v = -((k : Int) + 1) := ⟨(-v - 1).toNat, by omega⟩
    rw [zigzagEnc_neg, zigzagDec_odd]
  · obtain ⟨k, rfl⟩ := Int.eq_ofNat_of_zero_le hpos
    rw [zigzagEnc_natCast, zigzagDec_even]

theorem zigzagEnc_lt {v : Int} (hlow : -2 ^ 63 ≤ v) (hhigh : v < 2 ^ 63) : zigzagEnc v < 2 ^ 64 := by
  rw [zigzagEnc]
  split <;> omega

theorem zigzagDec_range {u : Nat} (hu : u < 2 ^ 64) : -2 ^ 63 ≤ zigzagDec u ∧ zigzagDec u ≤ 2 ^ 63 - 1 := by
  rw [zigzagDec]
  split <;> omega

/-- Settles O6: the bytes written for v are its groups, the loop reads back any groups of v, and zig-zag pairs k with 2k
and -(k+1) with 2k+1. -/
theorem varintRoundTrips : Obligations.VarintRoundTrips :=
  ⟨fun v hv => ⟨isUvarint_uvarintEnc hv, (length_uvarintEnc v).trans (uvlen_eq hv), uvlen_eq hv⟩,
    fun _ _ _ _ _ h hcb he => uvarintDec_of_isUvarint h hcb he,
    fun v hlow hhigh => ⟨zigzagEnc_lt hlow hhigh, zigzagDec_zigzagEnc v⟩,
    fun k => ⟨zigzagDec_even k, zigzagDec_odd k⟩,
    fun _ hu => zigzagDec_range hu⟩

end Sys2Proof.Machine
end

section
/-! PROOFS. BUILD's queue in priority order, the number of leaves, and the obligations about the queue and the lengths
(R103, R104, R108, R111). -/

namespace Sys2Proof.Machine

/-! ## The priority order of the queue (R104) -/

/-- `a` comes before `b` in the queue: smaller weight, then smaller node index. -/
def QueueLt (a b : Nat × Nat) : Prop := a.1 < b.1 ∨ a.1 = b.1 ∧ a.2 < b.2

theorem queueBefore_iff {a b : Nat × Nat} : queueBefore a b = true ↔ QueueLt a b := by
  simp [queueBefore, QueueLt]

theorem QueueLt.irrefl (a : Nat × Nat) : ¬ QueueLt a a := by
  unfold QueueLt
  omega

theorem QueueLt.trans {a b c : Nat × Nat} (hab : QueueLt a b) (hbc : QueueLt b c) : QueueLt a c := by
  unfold QueueLt at *
  omega

theorem QueueLt.total {a b : Nat × Nat} (hne : a ≠ b) : QueueLt a b ∨ QueueLt b a := by
  rw [Ne, Prod.ext_iff] at hne
  unfold QueueLt
  omega

theorem mem_queueInsert {e x : Nat × Nat} {q : List (Nat × Nat)} : x ∈ queueInsert e q ↔ x = e ∨ x ∈ q :=
  (queueInsert_perm e q).mem_iff.trans List.mem_cons

/-- Inserting a new pair keeps the priority order. -/
theorem queueInsert_pairwise {e : Nat × Nat} {q : List (Nat × Nat)} (he : e ∉ q) (hq : q.Pairwise QueueLt) :
    (queueInsert e q).Pairwise QueueLt := by
  induction q with
  | nil => exact List.pairwise_singleton _ _
  | cons x q ih =>
    obtain ⟨hx, hq'⟩ := List.pairwise_cons.1 hq
    obtain ⟨hex, heq⟩ := not_or.1 (mt List.mem_cons.2 he)
    rw [queueInsert]
    split
    · rename_i hbefore
      have hlt := queueBefore_iff.1 hbefore
      refine List.pairwise_cons.2 ⟨fun y hy => ?_, hq⟩
      rcases List.mem_cons.1 hy with rfl | hy
      · exact hlt
      · exact hlt.trans (hx y hy)
    · rename_i hbefore
      have hlt := (QueueLt.total hex).resolve_left (mt queueBefore_iff.2 hbefore)
      refine List.pairwise_cons.2 ⟨fun y hy => ?_, ih heq hq'⟩
      rcases mem_queueInsert.1 hy with rfl | hy
      · exact hlt
      · exact hx y hy

/-- Inserting distinct pairs, one after the other and some left out, keeps the priority order. -/
theorem foldl_queueInsert_pairwise {l q : List (Nat × Nat)} (hnodup : (l ++ q).Nodup) (hq : q.Pairwise QueueLt) :
    (l.foldl (fun q e => if 0 < e.1 then queueInsert e q else q) q).Pairwise QueueLt := by
  induction l generalizing q with
  | nil => exact hq
  | cons e l ih =>
    rw [List.foldl_cons]
    obtain ⟨he, hnodup'⟩ := List.nodup_cons.1 hnodup
    split
    · have hperm : (l ++ queueInsert e q).Perm (e :: (l ++ q)) :=
        ((queueInsert_perm e q).append_left l).trans List.perm_middle
      exact ih (hperm.nodup_iff.2 hnodup) (queueInsert_pairwise (fun h => he (List.mem_append_right l h)) hq)
    · exact ih hnodup' hq

theorem leafQueue_pairwise (ws : List Nat) : (leafQueue ws).Pairwise QueueLt := by
  have hids : ((leafQueue ws).map Prod.snd).Nodup := (leafQueue_ids_perm ws).nodup_iff.2 (leafIds_nodup ws)
  have hsymbols : ws.zipIdx.Nodup := .of_map Prod.snd (by rw [List.zipIdx_map_snd]; exact List.nodup_range')
  refine queueInsert_pairwise ?_ (foldl_queueInsert_pairwise (by simpa using hsymbols) .nil)
  exact (List.nodup_cons.1 ((queueInsert_perm _ _).nodup_iff.1 hids.of_map)).1

theorem mem_leafQueue {ws : List Nat} {w s : Nat} :
    (w, s) ∈ leafQueue ws ↔ s < ws.length ∧ 0 < w ∧ ws.getD s 0 = w ∨ w = 0 ∧ s = ws.length := by
  rw [(leafQueue_perm ws).mem_iff, List.mem_cons, List.mem_filter, List.mk_mem_zipIdx_iff_getElem?,
    List.getElem?_eq_some_iff, Prod.mk.injEq, decide_eq_true_eq, or_comm]
  refine or_congr_left ⟨?_, ?_⟩
  · rintro ⟨⟨hs, rfl⟩, hpos⟩
    exact ⟨hs, hpos, List.getD_eq_getElem _ _ hs⟩
  · rintro ⟨hs, hpos, rfl⟩
    exact ⟨⟨hs, (List.getD_eq_getElem _ _ hs).symm⟩, hpos⟩

/-- Settles O31: the leaves are inserted one after the other, and each insertion keeps the order. -/
theorem queueIsInPriorityOrder : Obligations.QueueIsInPriorityOrder :=
  ⟨fun ws => ⟨leafQueue_pairwise ws, fun _ _ => mem_leafQueue⟩,
    fun e q he hq => ⟨queueInsert_pairwise he hq, queueInsert_perm e q⟩⟩

/-! ## The number of leaves (R103) and the lengths (R108, R111) -/

/-- k, the number of leaves. -/
theorem length_leafIds (ws : List Nat) : (leafIds ws).length = 1 + ws.countP fun w => decide (0 < w) := by
  have hcount : ws.countP (fun w => decide (0 < w)) = (ws.zipIdx.filter fun e => decide (0 < e.1)).length := by
    conv_lhs => rw [← List.zipIdx_map_fst 0 ws]
    rw [List.countP_map, List.countP_eq_length_filter]
    rfl
  rw [hcount, ← leafQueue_length, (leafQueue_perm ws).length_eq, List.length_cons, Nat.add_comm]

theorem two_le_length_leafIds {ws : List Nat} (h : ∃ w ∈ ws, 0 < w) : 2 ≤ (leafIds ws).length := by
  have : 0 < ws.countP fun w => decide (0 < w) := List.countP_pos_iff.2 (by simpa using h)
  rw [length_leafIds]
  omega

/-- A symbol without a leaf has length 0. -/
theorem codeLengths_getD_of_no_leaf {ws : List Nat} {s : Nat} (hs : s ∉ leafIds ws) :
    (codeLengths ws).getD s 0 = 0 := by
  rcases lt_or_ge s (codeLengths ws).length with hlt | hge
  · obtain ⟨hne, hw⟩ : s ≠ ws.length ∧ ¬ 0 < ws.getD s 0 := by
      rw [mem_leafIds] at hs
      rw [length_codeLengths] at hlt
      omega
    rw [List.getD_eq_getElem _ _ hlt]
    simp only [codeLengths_eq]
    split
    · simp only [List.getElem_set_ne hne.symm, List.getElem_map, List.getElem_range, hne, hw, or_self, if_false]
    · simp only [List.getElem_map, List.getElem_range, hne, hw, or_self, if_false]
  · exact List.getD_eq_default _ _ hge

/-- Exactly the symbols with a leaf are coded. -/
theorem codeLengths_pos_iff {ws : List Nat} {s : Nat} : 1 ≤ (codeLengths ws).getD s 0 ↔ s ∈ leafIds ws := by
  constructor
  · intro hpos
    by_contra hs
    exact absurd (codeLengths_getD_of_no_leaf hs) (by omega)
  · intro hs
    rcases mem_leafIds.1 hs with rfl | ⟨hlt, hw⟩
    · exact codeLengths_eof_pos ws
    · have h2 := two_le_length_leafIds ⟨ws[s], List.getElem_mem hlt, List.getD_eq_getElem ws 0 hlt ▸ hw⟩
      rw [codeLengths_getD_of_two_leaves h2 hs]
      exact leafDepth_pos h2 hs

/-- Settles O34: a symbol without a leaf has length 0, and one with a leaf a positive depth. -/
theorem buildCodesExactlyTheWeighted : Obligations.BuildCodesExactlyTheWeighted := by
  refine fun ws => ⟨length_codeLengths ws, fun s hs => ?_⟩
  have hiff := codeLengths_pos_iff (ws := ws) (s := s)
  rw [mem_leafIds] at hiff
  omega

/-- Settles O35: a positive weight gives a second leaf, and then the merge loop's Kraft sum is the lengths'. -/
theorem buildTreeIsComplete : Obligations.BuildTreeIsComplete :=
  fun _ _ hpos hm => codeLengths_sum (two_le_length_leafIds hpos) hm

/-- The number of coded symbols is that of the leaves. -/
theorem rankBase_codeLengths {ws : List Nat} (h : ∀ l ∈ codeLengths ws, l ≤ maxCodeLength) :
    rankBase (codeLengths ws) (maxCodeLength + 1) = (leafIds ws).length := by
  have hids : codeLengths ws = (List.range (ws.length + 1)).map fun s => (codeLengths ws).getD s 0 :=
    List.ext_getElem (by simp [length_codeLengths]) fun s hs _ => by simp [List.getElem?_eq_getElem hs]
  rw [rankBase_eq_countP, hids, List.countP_map, List.countP_eq_length_filter, leafIds]
  congr 1
  refine List.filter_congr fun s hs => ?_
  have hlt : s < (codeLengths ws).length := length_codeLengths ws ▸ List.mem_range.1 hs
  have hle : (codeLengths ws).getD s 0 ≤ maxCodeLength :=
    List.getD_eq_getElem _ _ hlt ▸ h _ (List.getElem_mem hlt)
  have hiff := codeLengths_pos_iff (ws := ws) (s := s)
  rw [mem_leafIds] at hiff
  rw [length_codeLengths] at hlt
  exact decide_eq_decide.2 (by dsimp only; omega)

/-- Two leaves are both children of the root. -/
theorem leafDepth_of_exactly_two_leaves {ws : List Nat} {s : Nat} (h2 : (leafIds ws).length = 2) (hs : s ∈ leafIds ws) :
    leafDepth ws s = 1 := by
  obtain ⟨x, y, hxy⟩ := List.length_eq_two.1 h2
  have hx := leafDepth_pos h2.ge (s := x) (by simp [hxy])
  have hy := leafDepth_pos h2.ge (s := y) (by simp [hxy])
  have hsum := sum_leafDepth (ws := ws) (m := leafDepth ws x + leafDepth ws y) (by simp [hxy])
  simp only [hxy, List.map_cons, List.map_nil, List.sum_cons, List.sum_nil, Nat.add_sub_cancel_left,
    Nat.add_sub_cancel, Nat.pow_add, Nat.add_zero] at hsum
  have h2x : 2 ^ 1 ≤ 2 ^ leafDepth ws x := Nat.pow_le_pow_right (by decide) hx
  have h2y : 2 ^ 1 ≤ 2 ^ leafDepth ws y := Nat.pow_le_pow_right (by decide) hy
  have hX : 2 ^ leafDepth ws x = 2 ^ 1 := by nlinarith
  have hY : 2 ^ leafDepth ws y = 2 ^ 1 := by nlinarith
  rw [hxy, List.mem_pair] at hs
  rcases hs with rfl | rfl
  · exact Nat.pow_right_injective le_rfl hX
  · exact Nat.pow_right_injective le_rfl hY

/-- With two leaves each coded symbol has length 1. -/
theorem codeLengths_of_exactly_two_leaves {ws : List Nat} (h2 : (leafIds ws).length = 2) :
    codeLengths ws = (ws.map fun w => if 0 < w then 1 else 0) ++ [1] := by
  refine List.ext_getElem (by simp [length_codeLengths]) fun s hs _ => ?_
  rw [length_codeLengths] at hs
  simp only [codeLengths_of_two_leaves h2.ge, List.getElem_map, List.getElem_range, List.getElem_append,
    List.length_map, List.getElem_singleton]
  rcases (Nat.lt_succ_iff.1 hs).lt_or_eq with hlt | rfl
  · rw [dif_pos hlt, ← List.getD_eq_getElem ws 0 hlt]
    exact ite_congr (by simp [hlt.ne]) (fun hw => leafDepth_of_exactly_two_leaves h2 (mem_leafIds.2 (.inr ⟨hlt, hw⟩)))
      fun _ => rfl
  · simp [leafDepth_of_exactly_two_leaves h2 (mem_leafIds.2 (.inl rfl))]

/-- Settles O36: without a positive weight there is one leaf, with one there are two, each a child of the root. -/
theorem degenerateTrees : Obligations.DegenerateTrees := by
  refine ⟨fun ws hzero => codeLengths_of_one_leaf ?_, fun m n w hw => ?_⟩
  · rw [length_leafIds, List.countP_eq_zero.2 fun w hw => by simp [hzero w hw]]
  · have h2 : (leafIds (List.replicate m 0 ++ w :: List.replicate n 0)).length = 2 := by
      simp [length_leafIds, List.countP_replicate, hw]
    rw [codeLengths_of_exactly_two_leaves h2]
    simp [hw]

end Sys2Proof.Machine
end

section
/-! PROOFS. The tree of BUILD: the indices of its nodes, which pairs each merge takes, and what the walker gives the
nodes (R104 to R107). -/

namespace Sys2Proof.Machine

/-! ## What each merge takes (R105, R106) -/

/-- The children of an internal node. -/
def Internal.children (n : Internal) : List Nat := [n.child0, n.child1]

/-- The weight of a node: a symbol's own, 0 for EOF, and the sum of its children's for an internal node (R103, R105). -/
def nodeWeight (ws : List Nat) : List Internal → Nat → Nat
  | [], i => ws.getD i 0
  | n :: nodes, i =>
    if i = n.index then nodeWeight ws nodes n.child0 + nodeWeight ws nodes n.child1 else nodeWeight ws nodes i

/-- `LiveBefore` with the internal nodes that exist so far in the place of the whole tree's. -/
def LiveAmong (ws : List Nat) (nodes : List Internal) (born m : Nat) : Prop :=
  (m < ws.length ∧ 0 < ws.getD m 0 ∨ ws.length ≤ m ∧ m < born) ∧
    ∀ n ∈ nodes, n.index < born → m ≠ n.child0 ∧ m ≠ n.child1

theorem liveBefore_iff {ws : List Nat} {born m : Nat} : LiveBefore ws born m ↔ LiveAmong ws (buildTree ws) born m :=
  Iff.rfl

/-- Node n merges the two least pairs of the queue it is created from, in their order, and weighs their sum (R105). -/
structure LeastMerge (ws : List Nat) (nodes : List Internal) (n : Internal) : Prop where
  weight : nodeWeight ws nodes n.index = nodeWeight ws nodes n.child0 + nodeWeight ws nodes n.child1
  live0 : LiveAmong ws nodes n.index n.child0
  live1 : LiveAmong ws nodes n.index n.child1
  before : QueueLt (nodeWeight ws nodes n.child0, n.child0) (nodeWeight ws nodes n.child1, n.child1)
  least : ∀ m, LiveAmong ws nodes n.index m → m ≠ n.child0 → m ≠ n.child1 →
    QueueLt (nodeWeight ws nodes n.child1, n.child1) (nodeWeight ws nodes m, m)

section
variable {ws : List Nat} {nodes : List Internal} {n : Internal} {born m i : Nat}

theorem nodeWeight_cons_self :
    nodeWeight ws (n :: nodes) n.index = nodeWeight ws nodes n.child0 + nodeWeight ws nodes n.child1 := if_pos rfl

theorem nodeWeight_cons_of_ne (h : i ≠ n.index) : nodeWeight ws (n :: nodes) i = nodeWeight ws nodes i := if_neg h

theorem LiveAmong.lt (h : LiveAmong ws nodes born m) (hborn : ws.length < born) : m < born := by
  have := h.1
  omega

/-- A node takes no pair from the queue that it is not yet in. -/
theorem liveAmong_cons (h : born ≤ n.index) : LiveAmong ws (n :: nodes) born m ↔ LiveAmong ws nodes born m := by
  unfold LiveAmong
  rw [List.forall_mem_cons]
  exact and_congr_right' ⟨And.right, fun hnodes => ⟨fun hlt => absurd hlt (by omega), hnodes⟩⟩

/-- A new node keeps what the older ones merged. -/
theorem LeastMerge.cons {new : Internal} (h : LeastMerge ws nodes n) (hn : ws.length < n.index)
    (hnew : n.index < new.index) : LeastMerge ws (new :: nodes) n := by
  have hweight : ∀ i, LiveAmong ws nodes n.index i → nodeWeight ws (new :: nodes) i = nodeWeight ws nodes i :=
    fun i hi => nodeWeight_cons_of_ne ((hi.lt hn).trans hnew).ne
  have hw0 := hweight _ h.live0
  have hw1 := hweight _ h.live1
  exact {
    weight := by rw [nodeWeight_cons_of_ne hnew.ne, hw0, hw1, h.weight]
    live0 := (liveAmong_cons hnew.le).2 h.live0
    live1 := (liveAmong_cons hnew.le).2 h.live1
    before := by rw [hw0, hw1]; exact h.before
    least := fun m hm hm0 hm1 => by
      have hm := (liveAmong_cons hnew.le).1 hm
      rw [hw1, hweight m hm]
      exact h.least m hm hm0 hm1 }

end

/-- What the merge loop keeps when the nodes so far, newest first, are `nodes`: their indices, the queue in priority
order with exactly the live nodes' pairs, and that each node merged the two least pairs. -/
structure MergedInOrder (ws : List Nat) (q : List (Nat × Nat)) (nodes : List Internal) : Prop where
  index : nodes.reverse.map Internal.index = List.range' (ws.length + 1) nodes.length
  sorted : q.Pairwise QueueLt
  mem : ∀ w m, (w, m) ∈ q ↔ w = nodeWeight ws nodes m ∧ LiveAmong ws nodes (ws.length + 1 + nodes.length) m
  least : ∀ n ∈ nodes, LeastMerge ws nodes n

section
variable {ws : List Nat} {q : List (Nat × Nat)} {nodes : List Internal}

theorem MergedInOrder.index_bounds (h : MergedInOrder ws q nodes) {n : Internal} (hn : n ∈ nodes) :
    ws.length < n.index ∧ n.index < ws.length + 1 + nodes.length := by
  have hmem : n.index ∈ nodes.reverse.map Internal.index := List.mem_map_of_mem (List.mem_reverse.2 hn)
  rw [h.index, List.mem_range'_1] at hmem
  exact hmem

theorem leafQueue_mergedInOrder (ws : List Nat) : MergedInOrder ws (leafQueue ws) [] where
  index := rfl
  sorted := leafQueue_pairwise ws
  mem w m := by
    have heof : ws.getD ws.length 0 = 0 := List.getD_eq_default _ _ le_rfl
    simp only [mem_leafQueue, nodeWeight, LiveAmong, List.length_nil, List.not_mem_nil, false_imp_iff, implies_true,
      and_true]
    constructor
    · rintro (⟨hm, hw, rfl⟩ | ⟨rfl, rfl⟩)
      · exact ⟨rfl, .inl ⟨hm, hw⟩⟩
      · exact ⟨heof.symm, .inr ⟨le_rfl, by omega⟩⟩
    · rintro ⟨rfl, ⟨hm, hw⟩ | ⟨hge, hlt⟩⟩
      · exact .inl ⟨hm, hw, rfl⟩
      · obtain rfl : m = ws.length := by omega
        exact .inr ⟨heof, rfl⟩
  least := by simp

theorem MergedInOrder.children_lt (h : MergedInOrder ws q nodes) {n : Internal} (hn : n ∈ nodes) :
    n.child0 < n.index ∧ n.child1 < n.index :=
  have hlt := (h.index_bounds hn).1
  ⟨(h.least n hn).live0.lt hlt, (h.least n hn).live1.lt hlt⟩

/-- A merge takes its two children from the live nodes and adds the node it creates. -/
theorem MergedInOrder.liveAmong_merge (h : MergedInOrder ws q nodes) {new : Internal} {m : Nat}
    (hnew : new.index = ws.length + 1 + nodes.length) (h0 : new.child0 < new.index) (h1 : new.child1 < new.index) :
    LiveAmong ws (new :: nodes) (new.index + 1) m ↔
      m = new.index ∨ LiveAmong ws nodes new.index m ∧ m ≠ new.child0 ∧ m ≠ new.child1 := by
  unfold LiveAmong
  rw [List.forall_mem_cons]
  constructor
  · rintro ⟨hm, hchild, hnodes⟩
    by_cases hne : m = new.index
    · exact .inl hne
    · exact .inr ⟨⟨by omega, fun n hn hlt => hnodes n hn (by omega)⟩, hchild (Nat.lt_succ_self _)⟩
  · rintro (rfl | ⟨⟨hm, hnodes⟩, hchild⟩)
    · refine ⟨by omega, fun _ => ⟨h0.ne', h1.ne'⟩, fun n hn _ => ?_⟩
      have hidx := h.index_bounds hn
      have hlt := h.children_lt hn
      omega
    · exact ⟨by omega, fun _ => hchild, fun n hn _ => hnodes n hn (hnew ▸ (h.index_bounds hn).2)⟩

/-- The pairs behind the two least ones are those of the other live nodes. -/
theorem MergedInOrder.mem_rest {wa a wb b w m : Nat} (h : MergedInOrder ws ((wa, a) :: (wb, b) :: q) nodes) :
    (w, m) ∈ q ↔
      w = nodeWeight ws nodes m ∧ LiveAmong ws nodes (ws.length + 1 + nodes.length) m ∧ m ≠ a ∧ m ≠ b := by
  obtain ⟨hfirst, hrest⟩ := List.pairwise_cons.1 h.sorted
  obtain ⟨hsecond, -⟩ := List.pairwise_cons.1 hrest
  have hmem := h.mem w m
  rw [List.mem_cons, List.mem_cons] at hmem
  constructor
  · intro hm
    obtain ⟨rfl, hlive⟩ := hmem.1 (.inr (.inr hm))
    refine ⟨rfl, hlive, ?_, ?_⟩
    · rintro rfl
      obtain ⟨rfl, -⟩ := (h.mem wa m).1 (by simp)
      exact QueueLt.irrefl _ (hfirst _ (List.mem_cons_of_mem _ hm))
    · rintro rfl
      obtain ⟨rfl, -⟩ := (h.mem wb m).1 (by simp)
      exact QueueLt.irrefl _ (hsecond _ hm)
  · rintro ⟨hw, hlive, hma, hmb⟩
    simpa [hma, hmb] using hmem.2 ⟨hw, hlive⟩

/-- The node that a merge creates has merged the two least pairs. -/
theorem MergedInOrder.leastMerge {wa wb : Nat} {new : Internal}
    (h : MergedInOrder ws ((wa, new.child0) :: (wb, new.child1) :: q) nodes)
    (hnew : new.index = ws.length + 1 + nodes.length) : LeastMerge ws (new :: nodes) new := by
  obtain ⟨hfirst, hrest⟩ := List.pairwise_cons.1 h.sorted
  obtain ⟨hsecond, -⟩ := List.pairwise_cons.1 hrest
  obtain ⟨rfl, hlive0⟩ := (h.mem wa new.child0).1 (by simp)
  obtain ⟨rfl, hlive1⟩ := (h.mem wb new.child1).1 (by simp)
  rw [← hnew] at hlive0 hlive1
  have hweight : ∀ i, LiveAmong ws nodes new.index i → nodeWeight ws (new :: nodes) i = nodeWeight ws nodes i :=
    fun i hi => nodeWeight_cons_of_ne (hi.lt (by omega)).ne
  have hw0 := hweight _ hlive0
  have hw1 := hweight _ hlive1
  exact {
    weight := by rw [nodeWeight_cons_self, hw0, hw1]
    live0 := (liveAmong_cons le_rfl).2 hlive0
    live1 := (liveAmong_cons le_rfl).2 hlive1
    before := by
      rw [hw0, hw1]
      exact hfirst _ (by simp)
    least := fun m hm hm0 hm1 => by
      have hm := (liveAmong_cons le_rfl).1 hm
      rw [hw1, hweight m hm]
      exact hsecond _ (h.mem_rest.2 ⟨rfl, hnew ▸ hm, hm0, hm1⟩) }

/-- One merge keeps the invariant. -/
theorem MergedInOrder.merge {wa wb : Nat} {new : Internal}
    (h : MergedInOrder ws ((wa, new.child0) :: (wb, new.child1) :: q) nodes)
    (hnew : new.index = ws.length + 1 + nodes.length) :
    MergedInOrder ws (queueInsert (wa + wb, new.index) q) (new :: nodes) := by
  have hnew_notLive : ¬ LiveAmong ws nodes new.index new.index := fun hlive => (hlive.lt (by omega)).false
  have hnew_notMem : (wa + wb, new.index) ∉ q := by
    rw [h.mem_rest, ← hnew]
    exact fun hm => hnew_notLive hm.2.1
  obtain ⟨hw0, hlive0⟩ := (h.mem wa new.child0).1 (by simp)
  obtain ⟨hw1, hlive1⟩ := (h.mem wb new.child1).1 (by simp)
  have hparent : nodeWeight ws (new :: nodes) new.index = wa + wb := by rw [nodeWeight_cons_self, hw0, hw1]
  rw [← hnew] at hlive0 hlive1
  exact {
    index := by
      rw [List.reverse_cons, List.map_append, h.index, List.length_cons, List.range'_1_concat, ← hnew]
      rfl
    sorted := queueInsert_pairwise hnew_notMem h.sorted.of_cons.of_cons
    mem := fun w m => by
      rw [mem_queueInsert, h.mem_rest, Prod.mk.injEq, List.length_cons, ← Nat.add_assoc, ← hnew,
        h.liveAmong_merge hnew (hlive0.lt (by omega)) (hlive1.lt (by omega))]
      by_cases hm : m = new.index
      · subst hm
        simp [hparent, hnew_notLive]
      · simp [hm, nodeWeight_cons_of_ne hm]
    least := List.forall_mem_cons.2
      ⟨h.leastMerge hnew, fun n hn => (h.least n hn).cons (h.index_bounds hn).1 (hnew ▸ (h.index_bounds hn).2)⟩ }

theorem MergedInOrder.mergeAll {fuel : Nat} (h : MergedInOrder ws q nodes) :
    ∃ root, MergedInOrder ws root (mergeAll fuel q (ws.length + 1 + nodes.length) nodes) := by
  induction fuel generalizing q nodes with
  | zero => exact ⟨q, h⟩
  | succ fuel ih =>
    match q, h with
    | [], h => exact ⟨_, h⟩
    | [_], h => exact ⟨_, h⟩
    | (wa, a) :: (wb, b) :: q, h => exact ih (h.merge (new := ⟨_, a, b⟩) rfl)

end

theorem buildTree_mergedInOrder (ws : List Nat) : ∃ root, MergedInOrder ws root (buildTree ws) :=
  (leafQueue_mergedInOrder ws).mergeAll

/-- A symbol's node keeps the symbol's weight. -/
theorem MergedInOrder.nodeWeight_leaf {ws : List Nat} {q : List (Nat × Nat)} {nodes : List Internal}
    (h : MergedInOrder ws q nodes) {s : Nat} (hs : s ≤ ws.length) : nodeWeight ws nodes s = ws.getD s 0 := by
  have hne : ∀ n ∈ nodes, s ≠ n.index := fun n hn => (hs.trans_lt (h.index_bounds hn).1).ne
  clear h
  induction nodes with
  | nil => rfl
  | cons n nodes ih =>
    obtain ⟨hn, hnodes⟩ := List.forall_mem_cons.1 hne
    rw [nodeWeight_cons_of_ne hn, ih hnodes]

theorem LeastMerge.child0_ne_child1 {ws : List Nat} {nodes : List Internal} {n : Internal}
    (h : LeastMerge ws nodes n) : n.child0 ≠ n.child1 := by
  intro heq
  have hlt := h.before
  rw [heq] at hlt
  exact QueueLt.irrefl _ hlt

/-- Settles O32: with the leaves in the queue `MergedInOrder` holds, and every merge keeps it, up to the whole tree. -/
theorem treeHasOneMergePerLeafButOne : Obligations.TreeHasOneMergePerLeafButOne := by
  intro ws k hk
  obtain ⟨_, htree⟩ := buildTree_mergedInOrder ws
  have hlen : (buildTree ws).length = k - 1 := by
    have hmerges := (buildTree_merged ws).1
    rw [length_leafIds, ← hk] at hmerges
    omega
  refine ⟨hlen ▸ htree.index, nodeWeight ws (buildTree ws), fun s hs => htree.nodeWeight_leaf hs.le, ?_,
    fun n hn => ?_⟩
  · rw [htree.nodeWeight_leaf le_rfl, List.getD_eq_default _ _ le_rfl]
  · obtain ⟨hw, h0, h1, hbefore, hleast⟩ := htree.least n hn
    exact ⟨hw, (htree.least n hn).child0_ne_child1, liveBefore_iff.2 h0, liveBefore_iff.2 h1, hbefore,
      fun m hm => hleast m (liveBefore_iff.1 hm)⟩

/-! ## What the walker gives the nodes (R107) -/

theorem walkDepths_getD_of_no_parent {nodes : List Internal} {depth : List Nat} {i : Nat}
    (h : ∀ n ∈ nodes, i ∉ n.children) : (walkDepths nodes depth).getD i 0 = depth.getD i 0 := by
  induction nodes generalizing depth with
  | nil => rfl
  | cons n nodes ih =>
    obtain ⟨hn, hnodes⟩ := List.forall_mem_cons.1 h
    obtain ⟨h0, h1⟩ : i ≠ n.child0 ∧ i ≠ n.child1 := by simpa [Internal.children] using hn
    rw [walkDepths_cons, ih hnodes, Internal.setChildren_other depth h0 h1]

/-- The walker's order is right when no later visit sets the depth of an earlier node or of one of its children. -/
theorem walkDepths_getD_child {nodes : List Internal} {depth : List Nat}
    (hnode : ∀ n ∈ nodes, n.child0 ≠ n.child1 ∧ n.index ∉ n.children ∧ ∀ i ∈ n.children, i < depth.length)
    (horder : nodes.Pairwise fun n n' => ∀ i ∈ n.index :: n.children, i ∉ n'.children) :
    ∀ n ∈ nodes, ∀ i ∈ n.children,
      (walkDepths nodes depth).getD i 0 = (walkDepths nodes depth).getD n.index 0 + 1 := by
  induction nodes generalizing depth with
  | nil => simp
  | cons n nodes ih =>
    obtain ⟨⟨hne, hown, hlt⟩, hnode⟩ := List.forall_mem_cons.1 hnode
    obtain ⟨hlater, horder⟩ := List.pairwise_cons.1 horder
    refine List.forall_mem_cons.2 ⟨fun i hi => ?_, ?_⟩
    · have hset : ∀ j ∈ n.index :: n.children,
          (walkDepths (n :: nodes) depth).getD j 0 = (n.setChildren depth).getD j 0 :=
        fun j hj => walkDepths_getD_of_no_parent fun n' hn' => hlater n' hn' j hj
      obtain ⟨h0, h1⟩ : n.index ≠ n.child0 ∧ n.index ≠ n.child1 := by simpa [Internal.children] using hown
      rw [hset i (List.mem_cons_of_mem _ hi), hset n.index List.mem_cons_self,
        Internal.setChildren_other depth h0 h1]
      rcases List.mem_pair.1 hi with rfl | rfl
      · exact Internal.setChildren_child0 hne (hlt _ hi)
      · exact Internal.setChildren_child1 (hlt _ hi)
    · exact ih (fun n' hn' => by simpa using hnode n' hn') horder

section
variable {ws : List Nat} {q : List (Nat × Nat)} {nodes : List Internal}

theorem MergedInOrder.mem_children_lt (h : MergedInOrder ws q nodes) {n : Internal} (hn : n ∈ nodes) :
    ∀ i ∈ n.children, i < n.index := by
  simpa [Internal.children] using h.children_lt hn

/-- Newest node first, no older node has a child that is a newer node or a newer node's child. -/
theorem MergedInOrder.walk_order (h : MergedInOrder ws q nodes) :
    nodes.Pairwise fun n n' => ∀ i ∈ n.index :: n.children, i ∉ n'.children := by
  have hindex : (nodes.reverse.map Internal.index).Pairwise (· < ·) := h.index ▸ List.pairwise_lt_range' 1 Nat.one_pos
  rw [List.pairwise_map, List.pairwise_reverse] at hindex
  refine hindex.imp_of_mem fun {n n'} hn hn' hlt => List.forall_mem_cons.2 ⟨fun hi => ?_, fun i hi => ?_⟩
  · exact (hlt.trans (h.mem_children_lt hn' _ hi)).false
  · have hlive : LiveAmong ws nodes n.index i := by
      rcases List.mem_pair.1 hi with rfl | rfl
      · exact (h.least n hn).live0
      · exact (h.least n hn).live1
    simpa [Internal.children] using hlive.2 n' hn' hlt

end

/-- Settles O33: each child is set once, by a parent whose own depth is set already, and the root by nobody. -/
theorem depthsFollowTheTree : Obligations.DepthsFollowTheTree := by
  rintro ws depth rfl
  obtain ⟨_, htree⟩ := buildTree_mergedInOrder ws
  have hown : ∀ n ∈ buildTree ws, n.index ∉ n.children := fun n hn hi => (htree.mem_children_lt hn _ hi).false
  constructor
  · intro n hn
    have hchild := walkDepths_getD_child (depth := List.replicate (ws.length + 1 + (buildTree ws).length) 0)
      (fun n hn => ⟨(htree.least n hn).child0_ne_child1, hown n hn, fun i hi => by
        rw [List.length_replicate]
        exact (htree.mem_children_lt hn i hi).trans (htree.index_bounds hn).2⟩) htree.walk_order n hn
    exact ⟨hchild _ (by simp [Internal.children]), hchild _ (by simp [Internal.children])⟩
  · intro root hroot
    obtain ⟨nodes, hnodes⟩ := List.head?_eq_some_iff.1 hroot
    have horder := htree.walk_order
    rw [hnodes] at hown horder ⊢
    rw [walkDepths_getD_of_no_parent]
    · simp
    · exact List.forall_mem_cons.2 ⟨hown root (by simp), fun n hn =>
        (List.pairwise_cons.1 horder).1 n hn root.index (by simp)⟩

end Sys2Proof.Machine
end

section
/-! PROOFS. The obligations about the BUILD command: its errors, its fault and its commit (R101, R102, R109, R110). -/

namespace Sys2Proof.Machine

/-! ## The rule of BUILD, case by case (R101) -/

section
variable {s : State} {ws : List Word}

theorem buildRule_of_range (h : s.params.nMax < s.csr.alpha.toNat) : buildRule s = raiseInvalidating .range s :=
  if_pos h

theorem buildRule_of_error {j : Nat} (h : s.csr.alpha.toNat ≤ s.params.nMax)
    (hj : readWeights s.weights 0 s.csr.alpha.toNat = .error j) : buildRule s = .stopped (.neverWrittenWeight j) := by
  simp only [buildRule, if_neg (Nat.not_lt.2 h), hj]

theorem buildRule_of_overflow {l : Nat} (h : s.csr.alpha.toNat ≤ s.params.nMax) (hlen : ws.length = s.csr.alpha.toNat)
    (hws : HoldsAt s.weights 0 ws) (hl : l ∈ codeLengths (ws.map BitVec.toNat)) (hlong : maxCodeLength < l) :
    buildRule s = raiseInvalidating .lengthOverflow s := by
  have hread := readWeights_of_holdsAt hws
  rw [hlen] at hread
  have hgreatest := (foldl_max_isGreatest (List.ne_nil_of_mem hl)).2 l hl
  simp only [buildRule, if_neg (Nat.not_lt.2 h), hread, if_pos (hlong.trans_le hgreatest)]

theorem buildRule_of_fits (h : s.csr.alpha.toNat ≤ s.params.nMax) (hlen : ws.length = s.csr.alpha.toNat)
    (hws : HoldsAt s.weights 0 ws) (hfits : (codeLengths (ws.map BitVec.toNat)).foldl max 0 ≤ maxCodeLength) :
    buildRule s = finish (canonContext (codeLengths (ws.map BitVec.toNat))).ncoded.toNat .none
      { s with ctx := canonContext (codeLengths (ws.map BitVec.toNat)) } := by
  have hread := readWeights_of_holdsAt hws
  rw [hlen] at hread
  simp only [buildRule, if_neg (Nat.not_lt.2 h), hread, if_neg (Nat.not_lt.2 hfits)]

/-- Reading over an entry never written stops at it or before it. -/
theorem readWeights_of_unwritten {m : Memory 32} {a i n : Nat} (hai : a ≤ i) (hin : i < a + n)
    (hi : Memory.read? m i = none) : ∃ j ≤ i, readWeights m a n = .error j := by
  induction n generalizing a with
  | zero => omega
  | succ n ih =>
    rcases hv : Memory.read? m a with _ | v
    · exact ⟨a, hai, by simp only [readWeights, hv]⟩
    · have hne : a ≠ i := by
        rintro rfl
        rw [hi] at hv
        cases hv
      obtain ⟨j, hj, hread⟩ := ih (a := a + 1) (by omega) (by omega)
      exact ⟨j, hj, by simp only [readWeights, hv, hread]⟩

theorem exec_build (s : State) : exec .build s = acceptCommand .build buildRule s := rfl

/-- The state BUILD answers when its rule ends with a new context and changes nothing else. -/
theorem exec_build_ended {e : ErrCode} {r : Nat} {c : Context} (hidle : s.phase = .idle)
    (hrule : ∀ f, buildRule { s with flags := f } = .ended e r .none { s with flags := f, ctx := c }) :
    ∃ t, exec .build s = .next t ∧ Accepted .build t ∧ t.flags.err = e ∧ t.flags.ovr = s.flags.ovr ∧ t.ctx = c ∧
      t.csr.result = BitVec.ofNat 32 r ∧
      SameOperands s t ∧ SameRams s t ∧ SameStreams s t ∧ SameOutside s t := by
  have hexec : exec .build s = .next (State.endCommand { s with flags := s.flags.accept Op.build.code, ctx := c }
      .build e r .none) := by
    rw [exec_build, acceptCommand_idle hidle, hrule]
  exact ⟨_, hexec, State.endCommand_accepted _ _ _ _ _ rfl, rfl, rfl, rfl, rfl, rfl, ⟨fun _ => rfl, fun _ => rfl⟩,
    ⟨rfl, rfl⟩, rfl, rfl, rfl, rfl⟩

end

/-- Settles O37: RANGE comes before any weight is read, and LENGTH_OVERFLOW when the greatest length exceeds 32. -/
theorem buildErrors : Obligations.BuildErrors := by
  intro s ws e hidle hcases
  have hrule : ∀ f, buildRule { s with flags := f } = raiseInvalidating e { s with flags := f } := by
    intro f
    rcases hcases with ⟨hrange, rfl⟩ | ⟨hmax, hlen, hws, ⟨l, hl, hlong⟩, rfl⟩
    · exact buildRule_of_range hrange
    · exact buildRule_of_overflow hmax hlen hws hl hlong
  obtain ⟨t, hexec, hacc, herr, hovr, hctx, hresult, hframe⟩ := exec_build_ended hidle hrule
  exact ⟨t, hexec, hacc, herr, hovr, by simp [Invalidated, hctx, Context.invalid], hresult, hframe⟩

/-- Settles O38: BUILD reads the weights in ascending order and stops at the first one never written. -/
theorem buildOverNeverWrittenFaults : Obligations.BuildOverNeverWrittenFaults := by
  intro s i hidle hmax hi hnone
  obtain ⟨j, hj, hread⟩ := readWeights_of_unwritten (n := s.csr.alpha.toNat) (Nat.zero_le i) (by omega) hnone
  refine ⟨j, hj, ?_, (readWeights_error hread).2.2⟩
  have hrule := buildRule_of_error (s := { s with flags := s.flags.accept Op.build.code }) hmax hread
  rw [exec_build, acceptCommand_idle hidle, hrule]

/-- Settles O39: the lengths are within the Kraft bound, so that what CANON commits is a right context, and the coded
symbols are the leaves. -/
theorem buildCommitsContext : Obligations.BuildCommitsContext := by
  intro s ws hidle ⟨_, hp, _⟩ hmax hlen hws hle
  set lt := codeLengths (ws.map BitVec.toNat) with hlt
  have hlt_length : lt.length = s.csr.alpha.toNat + 1 := by rw [hlt, length_codeLengths, List.length_map, hlen]
  have hgreatest : lt.foldl max 0 ≤ maxCodeLength :=
    hle _ (foldl_max_isGreatest (List.ne_nil_of_length_pos (by omega))).1
  have hrule : ∀ f, buildRule { s with flags := f } =
      .ended .ok (canonContext lt).ncoded.toNat .none { s with flags := f, ctx := canonContext lt } :=
    fun f => buildRule_of_fits hmax hlen hws hgreatest
  have hcount : (ws.map BitVec.toNat).countP (fun w => decide (0 < w)) = ws.countP fun w => decide (w ≠ 0) := by
    rw [List.countP_map]
    refine List.countP_congr fun w _ => ?_
    simp [Nat.pos_iff_ne_zero, BitVec.toNat_eq]
  obtain ⟨t, hexec, hacc, herr, hovr, hctx, hresult, hoperands, hrams, hstreams, houtside⟩ :=
    exec_build_ended hidle hrule
  refine ⟨t, hexec, hacc, herr, hovr, ?_, ?_, ?_, ?_, ?_, ?_, hoperands, hrams, hstreams, houtside⟩
  · rw [hctx]; rfl
  · rw [hctx, houtside.1]
    exact canonContext_codeLengths_wf (by rwa [List.length_map, hlen]) (by omega) hgreatest
  · rw [hctx, canonContext_nsym (by omega), hlt_length]
  · rw [hctx, canonContext_lengths hle]
  · rw [hctx, canonContext_ncoded (by omega), rankBase_codeLengths hle, length_leafIds, hcount]
  · rw [hresult, hctx, BitVec.ofNat_toNat, BitVec.setWidth_eq]

end Sys2Proof.Machine
end

section
/-! PROOFS. The obligations about canonical codes (R113 to R120): what the codes of each length are, the place of a symbol
in SORTED, and that no codeword begins another. -/

namespace Sys2Proof.Machine

/-! ## The symbols of one length and their place in SORTED (R113, R115) -/

section
variable {lt : List Nat}

theorem length_filter_range_eq_count {k : Nat} (l : Nat) (hk : k ≤ lt.length) :
    ((List.range k).filter fun s => decide (lt.getD s 0 = l)).length = (lt.take k).count l := by
  have htake : lt.take k = (List.range k).map (lt.getD · 0) := by
    refine List.ext_getElem (by simpa using hk) fun i hi _ => ?_
    rw [List.length_take] at hi
    simp [List.getElem?_eq_getElem (show i < lt.length by omega)]
  rw [htake, List.count, List.countP_map, ← List.countP_eq_length_filter]
  rfl

theorem length_symbolsOfLength (lt : List Nat) (l : Nat) : (symbolsOfLength lt l).length = lt.count l := by
  rw [symbolsOfLength, length_filter_range_eq_count l le_rfl, List.take_length]

theorem symbolsOfLength_nodup (lt : List Nat) (l : Nat) : (symbolsOfLength lt l).Nodup := List.nodup_range.filter _

/-- A symbol stands at its rank among the symbols of its length. -/
theorem symbolsOfLength_getElem?_rankOf {s : Nat} (hs : s < lt.length) :
    (symbolsOfLength lt (lt.getD s 0))[rankOf lt s]? = some s := by
  obtain ⟨k, hk⟩ : ∃ k, lt.length = s + (k + 1) := ⟨lt.length - s - 1, by omega⟩
  have hrank : _ = rankOf lt s := length_filter_range_eq_count (lt.getD s 0) hs.le
  rw [symbolsOfLength, hk, List.range_add, List.filter_append, List.getElem?_append_right hrank.le, hrank, Nat.sub_self,
    List.range_succ_eq_map]
  simp

/-- Any place in the run of one length is the rank of the symbol there. -/
theorem exists_rankOf_eq {l r : Nat} (hr : r < lt.count l) :
    ∃ s, s < lt.length ∧ lt.getD s 0 = l ∧ rankOf lt s = r := by
  rw [← length_symbolsOfLength] at hr
  obtain ⟨hs, hl⟩ := mem_symbolsOfLength.1 (List.getElem_mem hr)
  refine ⟨_, hs, hl, ?_⟩
  obtain ⟨hrank, heq⟩ := List.getElem?_eq_some_iff.1 (hl ▸ symbolsOfLength_getElem?_rankOf hs)
  exact (symbolsOfLength_nodup lt l).getElem_inj_iff.1 heq

theorem rankOf_injective {s t : Nat} (hs : s < lt.length) (ht : t < lt.length) (hl : lt.getD s 0 = lt.getD t 0)
    (hr : rankOf lt s = rankOf lt t) : s = t := by
  have := symbolsOfLength_getElem?_rankOf ht
  rw [← hl, ← hr, symbolsOfLength_getElem?_rankOf hs] at this
  exact Option.some.inj this

theorem length_flatMap_symbolsOfLength (lt : List Nat) (l : Nat) :
    ((List.range' 1 l).flatMap (symbolsOfLength lt)).length = rankBase lt (l + 1) := by
  rw [List.length_flatMap, rankBase_eq_sum]
  simp only [length_symbolsOfLength]

/-- The run of the symbols of length `l` begins at `base[l]` of SORTED. -/
theorem sortedSymbols_getElem?_rankBase_add {l r : Nat} (hl : 1 ≤ l) (hle : l ≤ maxCodeLength) (hr : r < lt.count l) :
    (sortedSymbols lt)[rankBase lt l + r]? = (symbolsOfLength lt l)[r]? := by
  obtain ⟨k, rfl⟩ := Nat.exists_eq_add_of_le' hl
  obtain ⟨m, hm⟩ : ∃ m, maxCodeLength = k + (m + 1) := ⟨maxCodeLength - k - 1, by omega⟩
  have hbase := length_flatMap_symbolsOfLength lt k
  rw [sortedSymbols, allLengths, hm, ← List.range'_append_1, List.range'_succ, List.flatMap_append, List.flatMap_cons,
    List.getElem?_append_right (by omega), hbase, Nat.add_sub_cancel_left, Nat.add_comm 1 k,
    List.getElem?_append_left (by rwa [length_symbolsOfLength])]

/-! ## The codes of each length (R118, R120) -/

theorem firstCode_eq_sum (lt : List Nat) {l : Nat} (hl : 1 ≤ l) :
    firstCode lt l = ((List.range' 1 (l - 1)).map fun m => lt.count m * 2 ^ (l - m)).sum := by
  induction l, hl using Nat.le_induction with
  | base => rfl
  | succ l hl ih =>
    have hdouble : ∀ m ∈ List.range' 1 l, lt.count m * 2 ^ (l + 1 - m) = 2 * (lt.count m * 2 ^ (l - m)) := by
      intro m hm
      obtain ⟨-, hm⟩ := List.mem_range'_1.1 hm
      rw [show l + 1 - m = l - m + 1 by omega, Nat.pow_succ]
      ring
    have hconcat : List.range' 1 l = List.range' 1 (l - 1) ++ [l] := by
      obtain ⟨k, rfl⟩ := Nat.exists_eq_add_of_le' hl
      rw [List.range'_1_concat, Nat.add_sub_cancel, Nat.add_comm 1 k]
    rw [firstCode_succ lt hl, ih, Nat.add_sub_cancel, List.map_congr_left hdouble, List.sum_map_mul_left, hconcat]
    simp

/-- The codes of length `l`, extended to `m` bits, stay below the first code of length `m`. -/
theorem firstCode_add_count_mul_le (lt : List Nat) {l m : Nat} (hl : 1 ≤ l) (hlm : l < m) :
    (firstCode lt l + lt.count l) * 2 ^ (m - l) ≤ firstCode lt m := by
  induction m, hlm using Nat.le_induction with
  | base => rw [firstCode_succ lt hl, Nat.succ_eq_add_one, Nat.add_sub_cancel_left, Nat.pow_one, Nat.mul_comm]
  | succ m hm ih =>
    rw [firstCode_succ lt (by omega), Nat.succ_sub (by omega), Nat.pow_succ, ← Nat.mul_assoc, Nat.mul_comm]
    omega

theorem firstCode_le_canonCode (lt : List Nat) (s : Nat) : firstCode lt (lt.getD s 0) ≤ canonCode lt s :=
  Nat.le_add_right _ _

theorem canonCode_lt_firstCode_add_count {s : Nat} (hs : s < lt.length) :
    canonCode lt s < firstCode lt (lt.getD s 0) + lt.count (lt.getD s 0) :=
  Nat.add_lt_add_left (rankOf_lt_count hs) _

theorem canonCode_injective {s t : Nat} (hs : s < lt.length) (ht : t < lt.length) (hl : lt.getD s 0 = lt.getD t 0)
    (hc : canonCode lt s = canonCode lt t) : s = t := by
  refine rankOf_injective hs ht hl ?_
  rw [canonCode, canonCode, hl] at hc
  exact Nat.add_left_cancel hc

/-- The first bits of a code are no other symbol's code of that length (R120). -/
theorem canonCode_ne_canonCode_div {s t : Nat} (hs : s < lt.length) (ht : t < lt.length) (hne : s ≠ t)
    (hc : 1 ≤ lt.getD s 0) (hle : lt.getD s 0 ≤ lt.getD t 0) :
    canonCode lt s ≠ canonCode lt t / 2 ^ (lt.getD t 0 - lt.getD s 0) := by
  rcases hle.eq_or_lt with heq | hlt
  · rw [heq, Nat.sub_self, Nat.pow_zero, Nat.div_one]
    exact mt (canonCode_injective hs ht heq) hne
  · refine Nat.ne_of_lt ((canonCode_lt_firstCode_add_count hs).trans_le ?_)
    rw [Nat.le_div_iff_mul_le (Nat.two_pow_pos _)]
    exact (firstCode_add_count_mul_le lt hc hlt).trans (firstCode_le_canonCode lt t)

end

/-! ## The tables of a valid context (R56, R57, R59) -/

theorem CanonBefore.asymm {lt : List Nat} {s t : Nat} (h : CanonBefore lt s t) : ¬ CanonBefore lt t s := by
  unfold CanonBefore at *
  omega

section
variable {p : Params} {c : Context} {s : Nat}

theorem Context.Wf.sorted_eq (h : c.Wf p) : c.sorted.map BitVec.toNat = sortedSymbols c.lengths := by
  have : Std.Asymm (CanonBefore c.lengths) := ⟨fun _ _ => CanonBefore.asymm⟩
  refine h.sorted_order.eq_of_mem_iff (sortedSymbols_pairwise _) fun s => ?_
  rw [h.sorted_coded, mem_sortedSymbols h.len_le, h.nsym_eq]

theorem Context.lenAt_toNat (hs : s < c.lengths.length) : (c.lenAt s).toNat = c.lengths.getD s 0 := by
  rw [Context.lengths, List.length_map] at hs
  simp [Context.lenAt, Context.lengths, hs]

theorem Context.Wf.lt_length (h : c.Wf p) (hs : c.Coded s) : s < c.lengths.length := h.nsym_eq ▸ hs.1

theorem Context.Wf.one_le_length (h : c.Wf p) (hs : c.Coded s) : 1 ≤ c.lengths.getD s 0 := by
  rw [← Context.lenAt_toNat (h.lt_length hs), Nat.one_le_iff_ne_zero]
  exact fun h0 => hs.2 (BitVec.eq_of_toNat_eq h0)

theorem Context.Wf.codeAt_toNat (h : c.Wf p) (hs : c.Coded s) : (c.codeAt s).toNat = canonCode c.lengths s := by
  have hcode := h.code_canon (s, canonCode c.lengths s) <| by
    rw [h.sorted_eq, sortForm_sortedSymbols]
    exact List.mem_map_of_mem ((mem_sortedSymbols h.len_le s).2 ⟨h.lt_length hs, h.one_le_length hs⟩)
  obtain ⟨v, hv, htoNat⟩ := Option.map_eq_some_iff.1 hcode
  rw [Context.codeAt, hv, Option.getD_some, htoNat]

end

/-! ## The bits of a transfer (R23) -/

@[simp] theorem Transfer.length_bits (x : Transfer) : x.bits.length = x.nbits := by simp [Transfer.bits]

theorem Transfer.getElem_bits (x : Transfer) {j : Nat} (h : j < x.bits.length) :
    x.bits[j] = x.value.toNat.testBit (x.nbits - 1 - j) := by
  simp [Transfer.bits, BitVec.getLsbD]

/-- When the bits of one transfer begin those of another, its value is the other's first bits. -/
theorem Transfer.value_eq_div_of_isPrefix {x y : Transfer} (hx : x.value.toNat < 2 ^ x.nbits)
    (hy : y.value.toNat < 2 ^ y.nbits) (h : x.bits <+: y.bits) :
    x.value.toNat = y.value.toNat / 2 ^ (y.nbits - x.nbits) := by
  have hle : x.nbits ≤ y.nbits := by simpa using h.length_le
  refine Nat.eq_of_testBit_eq fun i => ?_
  rw [Nat.testBit_div_two_pow]
  rcases Nat.lt_or_ge i x.nbits with hi | hi
  · have hbit := h.getElem (i := x.nbits - 1 - i) (by rw [Transfer.length_bits]; omega)
    rw [Transfer.getElem_bits, Transfer.getElem_bits] at hbit
    convert hbit using 2 <;> omega
  · rw [Nat.testBit_lt_two_pow (hx.trans_le (Nat.pow_le_pow_right two_pos hi)),
      Nat.testBit_lt_two_pow (hy.trans_le (Nat.pow_le_pow_right two_pos (by omega)))]

/-! ## The obligations -/

/-- Settles O27, from the closed form of `firstCode` and the symbol of each rank. -/
theorem codesOfALengthAreContiguous : Obligations.CodesOfALengthAreContiguous := by
  intro lt l hl _
  refine ⟨firstCode_eq_sum lt hl, fun c => ⟨?_, ?_⟩⟩
  · rintro ⟨s, hs, rfl, rfl⟩
    exact ⟨firstCode_le_canonCode lt s, canonCode_lt_firstCode_add_count hs⟩
  · rintro ⟨hlow, hhigh⟩
    obtain ⟨s, hs, hsl, hrank⟩ := exists_rankOf_eq (lt := lt) (l := l) (r := c - firstCode lt l) (by omega)
    refine ⟨s, hs, hsl, ?_⟩
    rw [canonCode, hsl, hrank]
    omega

/-- Settles O28, as the check at length 32 implies it at every shorter length. -/
theorem oversubscriptionIsKraft : Obligations.OversubscriptionIsKraft := fun _ h =>
  oversubscribed_eq_false_iff_kraft h

/-- Settles O29, length by length: each length is one run of SORTED, where its symbols stand in the order of their
ranks. -/
theorem radixFormIsSortForm : Obligations.RadixFormIsSortForm := by
  intro lt hlen
  refine ⟨sortedSymbols_pairwise lt, mem_sortedSymbols hlen, fun s hs hc => ?_, sortForm_sortedSymbols lt, rfl⟩
  have hle : lt.getD s 0 ≤ maxCodeLength := List.getD_eq_getElem _ _ hs ▸ hlen _ (List.getElem_mem hs)
  rw [sortedSymbols_getElem?_rankBase_add hc hle (rankOf_lt_count hs), symbolsOfLength_getElem?_rankOf hs]

/-- Settles O30: a codeword that begins another has the value of the longer code's first bits, and these are no code of the
shorter length. -/
theorem codewordsArePrefixFree : Obligations.CodewordsArePrefixFree := by
  intro p c s t hwf hs ht hne hprefix
  have hlens := Context.lenAt_toNat (hwf.lt_length hs)
  have hlent := Context.lenAt_toNat (hwf.lt_length ht)
  have hfits {u : Nat} (hu : c.Coded u) : (c.codeAt u).toNat < 2 ^ (c.lenAt u).toNat := by
    rw [hwf.codeAt_toNat hu, Context.lenAt_toNat (hwf.lt_length hu)]
    exact canonCode_lt hwf.len_le hwf.kraft_le (hwf.lt_length hu) (hwf.one_le_length hu)
  have hle : (c.lenAt s).toNat ≤ (c.lenAt t).toNat := by simpa [Context.codeword] using hprefix.length_le
  have hvalue := Transfer.value_eq_div_of_isPrefix (hfits hs) (hfits ht) hprefix
  simp only [hwf.codeAt_toNat hs, hwf.codeAt_toNat ht, hlens, hlent] at hle hvalue
  exact canonCode_ne_canonCode_div (hwf.lt_length hs) (hwf.lt_length ht) hne (hwf.one_le_length hs) hle hvalue

end Sys2Proof.Machine
end

section
/-! PROOFS. What the parse of a codebook gives (R92, R125 to R131): a varint that ends, fails or stops where its bytes
say, the lengths up to the first that does not pass, and the checks of the whole. -/

namespace Sys2Proof.Machine

theorem holdsAt_cons {w : Nat} {m : Memory w} {a : Nat} {v : BitVec w} {vs : List (BitVec w)} :
    HoldsAt m a (v :: vs) ↔ Memory.read? m a = some v ∧ HoldsAt m (a + 1) vs := by
  refine ⟨fun h => ⟨h.head, h.tail⟩, fun ⟨hv, hvs⟩ i hi => ?_⟩
  cases i with
  | zero => exact hv
  | succ i =>
    simpa [Nat.add_assoc, Nat.add_comm 1] using hvs i (by simpa using hi)

theorem holdsAt_append {w : Nat} {m : Memory w} {a : Nat} {us vs : List (BitVec w)} :
    HoldsAt m a (us ++ vs) ↔ HoldsAt m a us ∧ HoldsAt m (a + us.length) vs := by
  induction us generalizing a with
  | nil => simp [HoldsAt]
  | cons u us ih =>
    rw [List.cons_append, holdsAt_cons, ih, holdsAt_cons, and_assoc, List.length_cons, Nat.add_assoc, Nat.add_comm 1]

/-! ## Varints that do not end (R92, R127, U1) -/

section
variable {cb : Memory 8} {p e i j : Nat} {tail : List Byte}

/-- While bytes have bit 7 set, and up to ten of them, the loop goes on. -/
theorem uvarintDec_go_continues (fuel x : Nat) (hmore : ∀ b ∈ tail, 0x80 ≤ b.toNat) (hcb : HoldsAt cb (p + i) tail)
    (he : p + i + tail.length ≤ e) (hten : i + tail.length ≤ 10) :
    ∃ y, uvarintDec.go cb p e (tail.length + fuel) i x = uvarintDec.go cb p e fuel (i + tail.length) y := by
  induction tail generalizing i x with
  | nil => exact ⟨x, by rw [List.length_nil, Nat.zero_add, Nat.add_zero]⟩
  | cons b tail ih =>
    rw [List.length_cons] at he hten ⊢
    obtain ⟨hb, hmore⟩ := List.forall_mem_cons.1 hmore
    obtain ⟨y, hy⟩ := ih (i := i + 1) (x ||| (b.toNat &&& 0x7F) <<< (7 * i)) hmore hcb.tail (by omega) (by omega)
    refine ⟨y, ?_⟩
    rw [Nat.add_right_comm, uvarintDec.go, if_neg (by omega), if_neg (by omega), hcb.head]
    simp only [if_neg (Nat.not_lt.2 hb)]
    rw [hy, Nat.add_assoc, Nat.add_comm 1]

/-- After at most ten bytes with bit 7 set the loop stands at the next byte. -/
theorem uvarintDec_continues (hmore : ∀ b ∈ tail, 0x80 ≤ b.toNat) (hcb : HoldsAt cb p tail)
    (he : p + tail.length ≤ e) (hten : tail.length ≤ 10) :
    ∃ y, uvarintDec cb p e = uvarintDec.go cb p e (10 - tail.length + 1) tail.length y := by
  obtain ⟨y, hy⟩ := uvarintDec_go_continues (i := 0) (10 - tail.length + 1) 0 hmore hcb he (by omega)
  refine ⟨y, ?_⟩
  rwa [← Nat.add_assoc, Nat.add_sub_cancel' hten, Nat.zero_add] at hy

theorem uvarintDec_go_truncated (fuel x : Nat) (he : e ≤ p + i) : uvarintDec.go cb p e (fuel + 1) i x = .truncated := by
  rw [uvarintDec.go, if_pos he]

/-- The eleventh byte is not read. -/
theorem uvarintDec_go_ten (fuel x : Nat) :
    uvarintDec.go cb p e fuel 10 x = .truncated ∨ uvarintDec.go cb p e fuel 10 x = .overflow := by
  cases fuel with
  | zero => exact .inr rfl
  | succ fuel =>
    rw [uvarintDec.go, if_pos rfl]
    split
    · exact .inl rfl
    · exact .inr rfl

/-- A tenth byte over 1 has bits above the 64. -/
theorem uvarintDec_go_nine (fuel x : Nat) {b : Byte} (he : p + 9 < e) (hb : Memory.read? cb (p + 9) = some b)
    (hbig : 2 ≤ b.toNat) :
    uvarintDec.go cb p e (fuel + 1) 9 x = .truncated ∨ uvarintDec.go cb p e (fuel + 1) 9 x = .overflow := by
  rw [uvarintDec.go, if_neg (by omega), if_neg (by decide), hb]
  by_cases hlast : b.toNat < 0x80
  · simp only [if_pos hlast, true_and, if_pos (show 1 < b.toNat from hbig)]
    exact .inr trivial
  · simp only [if_neg hlast]
    exact uvarintDec_go_ten _ _

/-- The bytes from p on are no varint: those up to the end all have bit 7 set, or the tenth does not fit 64 bits
(R127). -/
def Unparsable (p e : Nat) (tail : List Byte) : Prop :=
  p + tail.length = e ∧ (∀ b ∈ tail, 0x80 ≤ b.toNat) ∨
    p + tail.length ≤ e ∧ tail.length = 10 ∧ (∀ b ∈ tail.dropLast, 0x80 ≤ b.toNat) ∧ ∀ b ∈ tail.getLast?, 2 ≤ b.toNat

theorem uvarintDec_of_unparsable (h : Unparsable p e tail) (hcb : HoldsAt cb p tail) :
    uvarintDec cb p e = .truncated ∨ uvarintDec cb p e = .overflow := by
  rcases h with ⟨he, hmore⟩ | ⟨he, hten, hmore, hlast⟩
  · rcases Nat.lt_or_ge 10 tail.length with hlong | hshort
    · have htake : (tail.take 10).length = 10 := by rw [List.length_take]; omega
      obtain ⟨hten, -⟩ := holdsAt_append.1 (List.take_append_drop 10 tail ▸ hcb)
      obtain ⟨y, hy⟩ := uvarintDec_continues (e := e) (fun b hb => hmore b (List.mem_of_mem_take hb)) hten
        (by rw [htake]; omega) htake.le
      rw [hy, htake]
      exact uvarintDec_go_ten _ _
    · obtain ⟨y, hy⟩ := uvarintDec_continues hmore hcb he.le hshort
      exact .inl (hy.trans (uvarintDec_go_truncated _ _ he.ge))
  · obtain ⟨init, b, rfl⟩ := (List.eq_nil_or_concat' tail).resolve_left
      (List.ne_nil_of_length_pos (by omega))
    rw [List.dropLast_concat] at hmore
    rw [List.length_append, List.length_singleton] at he hten
    have hnine : init.length = 9 := by omega
    obtain ⟨hinit, hb⟩ := holdsAt_append.1 hcb
    obtain ⟨y, hy⟩ := uvarintDec_continues (e := e) hmore hinit (by omega) (by omega)
    rw [hnine] at hy hb
    rw [hy]
    exact uvarintDec_go_nine _ _ (by omega) hb.head (hlast b (by simp))

/-- The loop stops at the first byte that was never written. -/
theorem uvarintDec_of_unwritten (hmore : ∀ b ∈ tail, 0x80 ≤ b.toNat) (hten : tail.length < 10) (hcb : HoldsAt cb p tail)
    (he : p + tail.length < e) (hnone : Memory.read? cb (p + tail.length) = none) :
    uvarintDec cb p e = .unwritten (p + tail.length) := by
  obtain ⟨y, hy⟩ := uvarintDec_continues hmore hcb he.le hten.le
  rw [hy, uvarintDec.go, if_neg (by omega), if_neg (by omega), hnone]

theorem uvarintDec_go_unwritten {fuel x : Nat} (h : uvarintDec.go cb p e fuel i x = .unwritten j) :
    j < e ∧ Memory.read? cb j = none := by
  induction fuel generalizing i x with
  | zero => cases h
  | succ fuel ih =>
    rw [uvarintDec.go] at h
    split at h
    · cases h
    · split at h
      · cases h
      · split at h
        · cases h
          exact ⟨by omega, ‹_›⟩
        · split at h
          · split at h <;> cases h
          · exact ih h

theorem uvarintDec_unwritten (h : uvarintDec cb p e = .unwritten j) : j < e ∧ Memory.read? cb j = none :=
  uvarintDec_go_unwritten h

/-! ## One length (R94, R129) -/

theorem svarintDec_of_isUvarint {bytes : List Byte} {v : Int} (h : IsUvarint bytes (zigzagEnc v))
    (hcb : HoldsAt cb p bytes) (he : p + bytes.length ≤ e) : svarintDec cb p e = .value v bytes.length := by
  rw [svarintDec, uvarintDec_of_isUvarint h hcb he]
  simp only [zigzagDec_zigzagEnc]

theorem svarintDec_of_unparsable (h : Unparsable p e tail) (hcb : HoldsAt cb p tail) :
    svarintDec cb p e = .truncated ∨ svarintDec cb p e = .overflow := by
  rw [svarintDec]
  rcases uvarintDec_of_unparsable h hcb with h | h
  · exact .inl (by rw [h])
  · exact .inr (by rw [h])

theorem svarintDec_unwritten_iff : svarintDec cb p e = .unwritten j ↔ uvarintDec cb p e = .unwritten j := by
  rw [svarintDec]
  cases uvarintDec cb p e <;> simp

/-! ## The lengths (R125, R127, R129) -/

/-- A code length's value (R129). -/
abbrev IsLength (v : Int) : Prop := 0 ≤ v ∧ v ≤ 32

/-- What the parse gives with some lengths before it. -/
def Parsed.after (lt : List Nat) : Parsed → Parsed
  | .lengths us q => .lengths (lt ++ us) q
  | .invalid => .invalid
  | .unwritten i => .unwritten i

theorem Parsed.after_append (lt us : List Nat) (r : Parsed) : (r.after us).after lt = r.after (lt ++ us) := by
  cases r <;> simp [Parsed.after]

theorem parseLengths_of_value {n k : Nat} {v : Int} (h : svarintDec cb p e = .value v k) :
    parseLengths cb e (n + 1) p = if IsLength v then (parseLengths cb e n (p + k)).after [v.toNat] else .invalid := by
  have hmax : maxCodeLength = 32 := rfl
  rw [parseLengths, h]
  by_cases hv : IsLength v
  · simp only [if_pos hv, if_neg (show ¬ (v < 0 ∨ (maxCodeLength : Int) < v) by omega)]
    cases parseLengths cb e n (p + k) <;> rfl
  · simp only [if_neg hv, if_pos (show v < 0 ∨ (maxCodeLength : Int) < v by omega)]

theorem parseLengths_of_unparsable (n : Nat) (h : Unparsable p e tail) (hcb : HoldsAt cb p tail) :
    parseLengths cb e (n + 1) p = .invalid := by
  rcases svarintDec_of_unparsable h hcb with h | h <;> simp only [parseLengths, h]

theorem parseLengths_of_unwritten (n : Nat) (h : uvarintDec cb p e = .unwritten j) :
    parseLengths cb e (n + 1) p = .unwritten j := by
  simp only [parseLengths, svarintDec_unwritten_iff.2 h]

theorem areSvarints_iff_forall₂ {encs : List (List Byte)} {vs : List Int} :
    AreSvarints encs vs ↔ List.Forall₂ (fun bytes v => IsUvarint bytes (zigzagEnc v)) encs vs := by
  induction encs generalizing vs with
  | nil => cases vs <;> simp [AreSvarints]
  | cons bytes encs ih => cases vs <;> simp [AreSvarints, ih]

/-- Over encodings of some values the parse goes on behind them when each is a length, and is invalid otherwise. -/
theorem parseLengths_of_areSvarints {encs : List (List Byte)} {vs : List Int} (n : Nat) (h : AreSvarints encs vs)
    (hcb : HoldsAt cb p encs.flatten) (he : p + encs.flatten.length ≤ e) :
    parseLengths cb e (vs.length + n) p =
      if ∀ v ∈ vs, IsLength v then (parseLengths cb e n (p + encs.flatten.length)).after (vs.map Int.toNat)
      else .invalid := by
  rw [areSvarints_iff_forall₂] at h
  induction h generalizing p with
  | nil => cases hn : parseLengths cb e n p <;> simp [Parsed.after, hn]
  | @cons bytes v encs vs hbytes _ ih =>
    rw [List.flatten_cons, holdsAt_append] at hcb
    rw [List.flatten_cons, List.length_append, ← Nat.add_assoc] at he ⊢
    rw [List.length_cons, Nat.add_right_comm,
      parseLengths_of_value (svarintDec_of_isUvarint hbytes hcb.1 (by omega)), ih hcb.2 he]
    by_cases hv : IsLength v
    · rw [if_pos hv]
      by_cases hvs : ∀ v ∈ vs, IsLength v
      · rw [if_pos hvs, if_pos (List.forall_mem_cons.2 ⟨hv, hvs⟩), Parsed.after_append]
        rfl
      · rw [if_neg hvs, if_neg fun h => hvs (List.forall_mem_cons.1 h).2]
        rfl
    · rw [if_neg hv, if_neg fun h => hv (List.forall_mem_cons.1 h).1]

theorem parseLengths_unwritten {n : Nat} (h : parseLengths cb e n p = .unwritten j) :
    j < e ∧ Memory.read? cb j = none := by
  induction n generalizing p with
  | zero => cases h
  | succ n ih =>
    rcases hdec : svarintDec cb p e with ⟨v, k⟩ | _ | _ | i
    · rw [parseLengths_of_value hdec] at h
      split at h
      · rcases hn : parseLengths cb e n (p + k) with _ | _ | i <;> rw [hn] at h <;> cases h
        exact ih hn
      · cases h
    · simp [parseLengths, hdec] at h
    · simp [parseLengths, hdec] at h
    · simp only [parseLengths, hdec, Parsed.unwritten.injEq] at h
      exact uvarintDec_unwritten (svarintDec_unwritten_iff.1 (h ▸ hdec))

/-! ## The whole codebook (R125 to R131) -/

variable {bound cnt k : Nat}

theorem parseCodebook_of_unparsable_count (h : Unparsable 0 e tail) (hcb : HoldsAt cb 0 tail) :
    parseCodebook cb e bound = .invalid := by
  rcases uvarintDec_of_unparsable h hcb with h | h <;> simp only [parseCodebook, h]

theorem parseCodebook_of_unwritten_count (h : uvarintDec cb 0 e = .unwritten j) :
    parseCodebook cb e bound = .unwritten j := by
  simp only [parseCodebook, h]

theorem parseCodebook_of_count_out_of_bounds (h : uvarintDec cb 0 e = .value cnt k) (hcnt : cnt = 0 ∨ bound < cnt) :
    parseCodebook cb e bound = .invalid := by
  simp only [parseCodebook, h, if_pos hcnt]

/-- What the checks after the count make of the lengths (R130, R131). -/
def Parsed.checked : Parsed → Parsed
  | .lengths lt q => if lt.getD (lt.length - 1) 0 = 0 ∨ oversubscribed lt = true then .invalid else .lengths lt q
  | .invalid => .invalid
  | .unwritten i => .unwritten i

theorem parseCodebook_of_count (h : uvarintDec cb 0 e = .value cnt k) (hpos : 1 ≤ cnt) (hle : cnt ≤ bound) :
    parseCodebook cb e bound = (parseLengths cb e cnt k).checked := by
  simp only [parseCodebook, h, if_neg (show ¬ (cnt = 0 ∨ bound < cnt) by omega)]
  rcases hlt : parseLengths cb e cnt k with ⟨lt, q⟩ | _ | _
  · obtain ⟨rfl, -⟩ := parseLengths_lengths hlt
    simp only [Parsed.checked, ite_or]
  · rfl
  · rfl

theorem parseCodebook_unwritten (h : parseCodebook cb e bound = .unwritten j) : j < e ∧ Memory.read? cb j = none := by
  rcases hdec : uvarintDec cb 0 e with ⟨cnt, k⟩ | _ | _ | i
  · by_cases hcnt : cnt = 0 ∨ bound < cnt
    · rw [parseCodebook_of_count_out_of_bounds hdec hcnt] at h
      cases h
    · rw [parseCodebook_of_count hdec (by omega) (by omega)] at h
      rcases hlt : parseLengths cb e cnt k with ⟨lt, q⟩ | _ | i <;> rw [hlt] at h
      · rw [Parsed.checked] at h
        split at h <;> cases h
      · cases h
      · cases h
        exact parseLengths_unwritten hlt
  · simp [parseCodebook, hdec] at h
  · simp [parseCodebook, hdec] at h
  · rw [parseCodebook_of_unwritten_count hdec] at h
    cases h
    exact uvarintDec_unwritten hdec

end

end Sys2Proof.Machine
end

section
/-! PROOFS. The obligations about SERIALIZE and DESERIALIZE (R123 to R134). -/

namespace Sys2Proof.Machine

/-! ## The commands, case by case (R123, R125, R126) -/

section
variable {s : State}

theorem exec_serialize (s : State) : exec .serialize s = acceptCommand .serialize serializeRule s := rfl

theorem exec_deserialize (s : State) : exec .deserialize s = acceptCommand .deserialize deserializeRule s := rfl

/-- What the parse of CB up to CBLEN gives, under the bound on the count (R125, R128). -/
def State.parsed (s : State) : Parsed :=
  parseCodebook s.cb s.csr.cblen.toNat (min s.csr.dlim.toNat (s.params.nMax + 1))

theorem deserializeRule_of_range (h : s.params.cbBytes < s.csr.cblen.toNat) :
    deserializeRule s = raiseInvalidating .range s := if_pos h

theorem deserializeRule_of_invalid (h : s.csr.cblen.toNat ≤ s.params.cbBytes) (hparsed : s.parsed = .invalid) :
    deserializeRule s = raiseInvalidating .invalidCodebook s := by
  rw [State.parsed] at hparsed
  simp only [deserializeRule, if_neg (Nat.not_lt.2 h), hparsed]

theorem deserializeRule_of_lengths {lt : List Nat} {q : Nat} (h : s.csr.cblen.toNat ≤ s.params.cbBytes)
    (hparsed : s.parsed = .lengths lt q) : deserializeRule s = finish q .none { s with ctx := canonContext lt } := by
  rw [State.parsed] at hparsed
  simp only [deserializeRule, if_neg (Nat.not_lt.2 h), hparsed]

theorem deserializeRule_of_unwritten {i : Nat} (h : s.csr.cblen.toNat ≤ s.params.cbBytes)
    (hparsed : s.parsed = .unwritten i) : deserializeRule s = .stopped (.neverWrittenByte i) := by
  rw [State.parsed] at hparsed
  simp only [deserializeRule, if_neg (Nat.not_lt.2 h), hparsed]

/-- The command has ended with error code `e`, RESULT `r` and `c` as the context, and changed nothing else. -/
structure ContextReplaced (op : Op) (s : State) (e : ErrCode) (r : Nat) (c : Context) (t : State) : Prop where
  accepted : Accepted op t
  err : t.flags.err = e
  ovr : t.flags.ovr = s.flags.ovr
  ctx : t.ctx = c
  result : t.csr.result = BitVec.ofNat 32 r
  operands : SameOperands s t
  rams : SameRams s t
  streams : SameStreams s t
  outside : SameOutside s t

theorem ContextReplaced.invalidated {op : Op} {e : ErrCode} {r : Nat} {t : State}
    (h : ContextReplaced op s e r .invalid t) : Invalidated t := by
  rw [Invalidated, h.ctx]
  exact ⟨rfl, rfl, rfl, rfl⟩

theorem acceptCommand_replaces_ctx {op : Op} {rule : State → Ending} {e : ErrCode} {r : Nat} {c : Context}
    (hidle : s.phase = .idle)
    (hrule : ∀ f, rule { s with flags := f } = .ended e r .none { s with flags := f, ctx := c }) :
    ∃ t, acceptCommand op rule s = .next t ∧ ContextReplaced op s e r c t := by
  rw [acceptCommand_idle hidle, hrule]
  exact ⟨_, rfl, State.endCommand_accepted _ _ _ _ _ rfl, rfl, rfl, rfl, rfl, rfl, ⟨fun _ => rfl, fun _ => rfl⟩,
    ⟨rfl, rfl⟩, rfl, rfl, rfl, rfl⟩

theorem exec_deserialize_of_range (hidle : s.phase = .idle) (h : s.params.cbBytes < s.csr.cblen.toNat) :
    ∃ t, exec .deserialize s = .next t ∧ ContextReplaced .deserialize s .range 0 .invalid t :=
  acceptCommand_replaces_ctx hidle fun _ => deserializeRule_of_range h

theorem exec_deserialize_of_invalid (hidle : s.phase = .idle) (h : s.csr.cblen.toNat ≤ s.params.cbBytes)
    (hparsed : s.parsed = .invalid) :
    ∃ t, exec .deserialize s = .next t ∧ ContextReplaced .deserialize s .invalidCodebook 0 .invalid t :=
  acceptCommand_replaces_ctx hidle fun _ => deserializeRule_of_invalid h hparsed

theorem exec_deserialize_of_lengths {lt : List Nat} {q : Nat} (hidle : s.phase = .idle)
    (h : s.csr.cblen.toNat ≤ s.params.cbBytes) (hparsed : s.parsed = .lengths lt q) :
    ∃ t, exec .deserialize s = .next t ∧ ContextReplaced .deserialize s .ok q (canonContext lt) t :=
  acceptCommand_replaces_ctx hidle fun _ => deserializeRule_of_lengths h hparsed

theorem exec_deserialize_of_unwritten {i : Nat} (hidle : s.phase = .idle) (h : s.csr.cblen.toNat ≤ s.params.cbBytes)
    (hparsed : s.parsed = .unwritten i) : exec .deserialize s = .fault (.neverWrittenByte i) := by
  have hrule := deserializeRule_of_unwritten (s := { s with flags := s.flags.accept Op.deserialize.code }) h hparsed
  rw [exec_deserialize, acceptCommand_idle hidle, hrule]

end

/-- What SERIALIZE writes (R123). -/
def Context.serialized (c : Context) : List Byte :=
  codebookBytes c.nsym.toNat ((List.range c.nsym.toNat).map fun i => (c.lenAt i).toNat)

theorem serializeRule_of_valid {s : State} (h : s.ctx.valid = true) :
    serializeRule s = finish s.ctx.serialized.length .none
      { s with
        cb := Memory.writeAll s.cb 0 s.ctx.serialized
        csr := { s.csr with cblen := BitVec.ofNat 32 s.ctx.serialized.length } } := if_pos h

theorem exec_serialize_of_valid {s : State} (hidle : s.phase = .idle) (hvalid : s.ctx.valid = true) :
    exec .serialize s = .next (State.endCommand
      { s with
        flags := s.flags.accept Op.serialize.code
        cb := Memory.writeAll s.cb 0 s.ctx.serialized
        csr := { s.csr with cblen := BitVec.ofNat 32 s.ctx.serialized.length } }
      .serialize .ok s.ctx.serialized.length .none) := by
  rw [exec_serialize, acceptCommand_idle hidle,
    serializeRule_of_valid (s := { s with flags := s.flags.accept Op.serialize.code }) hvalid]
  rfl

/-! ## The codebooks that parse (R128 to R131) -/

section
variable {cb : Memory 8} {e bound : Nat} {count tail : List Byte} {encs : List (List Byte)} {vs : List Int}

/-- Past the bounds on the count, the checks of DESERIALIZE on lengths are those of a valid codebook. -/
theorem validLengths_iff (hpos : 1 ≤ vs.length) (hle : vs.length ≤ bound) (hvs : ∀ v ∈ vs, IsLength v) :
    ValidLengths bound vs ↔
      ¬ ((vs.map Int.toNat).getD ((vs.map Int.toNat).length - 1) 0 = 0 ∨ oversubscribed (vs.map Int.toNat) = true) := by
  have hlast : (vs.map Int.toNat).getD ((vs.map Int.toNat).length - 1) 0 = 0 ↔ vs.getLast? = some 0 := by
    obtain ⟨init, v, rfl⟩ := (List.eq_nil_or_concat' vs).resolve_left (List.ne_nil_of_length_pos hpos)
    have hv := hvs v (by simp)
    have htoNat : v.toNat = 0 ↔ v = 0 := by omega
    simp [htoNat]
  have hlen : ∀ l ∈ vs.map Int.toNat, l ≤ maxCodeLength := by
    have hmax : maxCodeLength = 32 := rfl
    intro l hl
    obtain ⟨v, hv, rfl⟩ := List.mem_map.1 hl
    have := hvs v hv
    omega
  rw [hlast, not_or, Bool.not_eq_true, oversubscribed_eq_false_iff_kraft hlen, ValidLengths]
  exact ⟨fun ⟨_, _, _, h⟩ => h, fun h => ⟨hpos, hle, hvs, h⟩⟩

/-- A codebook that parses comes to the checks on its lengths when these and their count are in bounds. -/
theorem parseCodebook_of_areSvarints (hcount : IsUvarint count vs.length) (hencs : AreSvarints encs vs)
    (hcb : HoldsAt cb 0 (count ++ encs.flatten)) (he : (count ++ encs.flatten).length ≤ e)
    (hpos : 1 ≤ vs.length) (hle : vs.length ≤ bound) :
    parseCodebook cb e bound =
      if ∀ v ∈ vs, IsLength v then (Parsed.lengths (vs.map Int.toNat) (count ++ encs.flatten).length).checked
      else .invalid := by
  obtain ⟨hcb, hlens⟩ := holdsAt_append.1 hcb
  rw [Nat.zero_add] at hlens
  rw [List.length_append] at he ⊢
  rw [parseCodebook_of_count (uvarintDec_of_isUvarint hcount hcb (by omega)) hpos hle]
  have hparse := parseLengths_of_areSvarints 0 hencs hlens he
  rw [Nat.add_zero] at hparse
  rw [hparse]
  split
  · rw [parseLengths, Parsed.after, List.append_nil]
  · rfl

theorem parseCodebook_of_validLengths (hcount : IsUvarint count vs.length) (hencs : AreSvarints encs vs)
    (hcb : HoldsAt cb 0 (count ++ encs.flatten)) (he : (count ++ encs.flatten).length ≤ e)
    (hvalid : ValidLengths bound vs) :
    parseCodebook cb e bound = .lengths (vs.map Int.toNat) (count ++ encs.flatten).length := by
  obtain ⟨hpos, hle, hvs, -⟩ := id hvalid
  rw [parseCodebook_of_areSvarints hcount hencs hcb he hpos hle, if_pos hvs, Parsed.checked,
    if_neg ((validLengths_iff hpos hle hvs).1 hvalid)]

theorem parseCodebook_of_not_validLengths (hcount : IsUvarint count vs.length) (hencs : AreSvarints encs vs)
    (hcb : HoldsAt cb 0 (count ++ encs.flatten)) (he : (count ++ encs.flatten).length ≤ e)
    (hvalid : ¬ ValidLengths bound vs) : parseCodebook cb e bound = .invalid := by
  by_cases hbounds : 1 ≤ vs.length ∧ vs.length ≤ bound
  · obtain ⟨hpos, hle⟩ := hbounds
    rw [parseCodebook_of_areSvarints hcount hencs hcb he hpos hle]
    by_cases hvs : ∀ v ∈ vs, IsLength v
    · rw [if_pos hvs, Parsed.checked, if_pos (not_not.1 (mt (validLengths_iff hpos hle hvs).2 hvalid))]
    · rw [if_neg hvs]
  · rw [List.length_append] at he
    exact parseCodebook_of_count_out_of_bounds
      (uvarintDec_of_isUvarint hcount (holdsAt_append.1 hcb).1 (by omega)) (by omega)

/-! ## The codebooks that do not parse (R127, U1) -/

/-- After a count and fewer lengths than it says, the parse is invalid before it or goes on with the next length. -/
theorem parseLengths_of_fewer {cnt p : Nat} (hlt : encs.length < cnt) (hencs : AreSvarints encs vs)
    (hcb : HoldsAt cb p encs.flatten) (he : p + encs.flatten.length ≤ e) :
    ∃ n, parseLengths cb e cnt p =
      if ∀ v ∈ vs, IsLength v then
        (parseLengths cb e (n + 1) (p + encs.flatten.length)).after (vs.map Int.toNat)
      else .invalid := by
  rw [(areSvarints_iff_forall₂.1 hencs).length_eq] at hlt
  obtain ⟨n, rfl⟩ := Nat.exists_eq_add_of_lt hlt
  exact ⟨n, parseLengths_of_areSvarints (n + 1) hencs hcb he⟩

theorem parseCodebook_of_unparsable {cnt : Nat} (hcount : IsUvarint count cnt) (hlt : encs.length < cnt)
    (hencs : AreSvarints encs vs) (hcb : HoldsAt cb 0 (count ++ encs.flatten ++ tail))
    (h : Unparsable (count ++ encs.flatten).length e tail) : parseCodebook cb e bound = .invalid := by
  obtain ⟨hcb, htail⟩ := holdsAt_append.1 hcb
  obtain ⟨hcb, hlens⟩ := holdsAt_append.1 hcb
  have hend : (count ++ encs.flatten).length ≤ e := by rcases h with h | h <;> omega
  rw [Nat.zero_add] at htail hlens
  rw [List.length_append] at h hend htail
  have hdec := uvarintDec_of_isUvarint (e := e) hcount hcb (by omega)
  by_cases hle : cnt ≤ bound
  · obtain ⟨n, hn⟩ := parseLengths_of_fewer hlt hencs hlens hend
    have hinvalid : parseLengths cb e cnt count.length = .invalid := by
      rw [hn, parseLengths_of_unparsable n h htail]
      split <;> rfl
    rw [parseCodebook_of_count hdec (by omega) hle, hinvalid]
    rfl
  · exact parseCodebook_of_count_out_of_bounds hdec (by omega)

theorem parseCodebook_of_unwritten {cnt i : Nat} (hcount : IsUvarint count cnt) (hle : cnt ≤ bound)
    (hlt : encs.length < cnt) (hencs : AreSvarints encs vs) (hvs : ∀ v ∈ vs, IsLength v)
    (hcb : HoldsAt cb 0 (count ++ encs.flatten)) (he : (count ++ encs.flatten).length ≤ e)
    (h : uvarintDec cb (count ++ encs.flatten).length e = .unwritten i) : parseCodebook cb e bound = .unwritten i := by
  obtain ⟨hcb, hlens⟩ := holdsAt_append.1 hcb
  rw [Nat.zero_add] at hlens
  rw [List.length_append] at he h
  obtain ⟨n, hn⟩ := parseLengths_of_fewer hlt hencs hlens he
  rw [parseCodebook_of_count (uvarintDec_of_isUvarint hcount hcb (by omega)) (by omega) hle, hn, if_pos hvs,
    parseLengths_of_unwritten n h]
  rfl

end

/-! ## What SERIALIZE writes (R123, R134) -/

theorem Context.serialized_eq (c : Context) :
    c.serialized = uvarintEnc c.nsym.toNat ++
      (List.range c.nsym.toNat).flatMap fun i => svarintEnc ((c.lenAt i).toNat : Int) := by
  rw [Context.serialized, codebookBytes_eq, List.flatMap_map]

theorem Context.length_serialized (c : Context) : c.serialized.length = uvlen c.nsym.toNat + c.nsym.toNat := by
  have hlt : ∀ l ∈ (List.range c.nsym.toNat).map fun i => (c.lenAt i).toNat, l < 64 :=
    List.forall_mem_map.2 fun i _ => (c.lenAt i).isLt
  rw [Context.serialized, length_codebookBytes hlt, List.length_map, List.length_range]

theorem uvlen_le_five {v : Nat} (h : v < 2 ^ 32) : uvlen v ≤ 5 := by
  have hsize : Nat.size v ≤ 32 := Nat.size_le.2 h
  rw [uvlen_eq (by omega)]
  omega

/-- LEN[0..NSYM-1] as SERIALIZE writes them: as signed values. -/
def Context.lengthValues (c : Context) : List Int := c.lengths.map ((↑) : Nat → Int)

@[simp] theorem Context.length_lengthValues (c : Context) : c.lengthValues.length = c.lengths.length :=
  List.length_map ..

@[simp] theorem Context.map_toNat_lengthValues (c : Context) : c.lengthValues.map Int.toNat = c.lengths := by
  rw [Context.lengthValues, List.map_map]
  exact List.map_id _

section
variable {p : Params} {c d : Context}

theorem Context.Wf.map_lenAt (h : c.Wf p) : (List.range c.nsym.toNat).map (fun i => (c.lenAt i).toNat) = c.lengths := by
  refine List.ext_getElem (by rw [List.length_map, List.length_range, h.nsym_eq]) fun i _ hi => ?_
  rw [List.getElem_map, List.getElem_range, Context.lenAt_toNat hi, List.getD_eq_getElem _ _ hi]

theorem Context.Wf.serialized_fits (h : c.Wf p) (hp : Legal p) : c.serialized.length ≤ p.cbBytes :=
  h.codebook_fits hp (List.forall_mem_map.2 fun i _ => (c.lenAt i).isLt) (by rw [List.length_map, List.length_range])

/-- The serialized form in the terms of O42: the count's bytes, and an encoding of each length. -/
theorem Context.Wf.serialized_eq_encodings (h : c.Wf p) :
    c.serialized = uvarintEnc c.lengthValues.length ++
      (c.lengthValues.map svarintEnc).flatten := by
  rw [Context.serialized, h.map_lenAt, codebookBytes_eq, h.nsym_eq, c.length_lengthValues, Context.lengthValues,
    List.map_map, List.flatMap_def]
  rfl

theorem Context.Wf.isLength (h : c.Wf p) : ∀ v ∈ c.lengthValues, IsLength v :=
  List.forall_mem_map.2 fun l hl => ⟨by omega, by have := h.len_le l hl; rw [maxCodeLength] at this; omega⟩

theorem Context.Wf.isUvarint_count (h : c.Wf p) :
    IsUvarint (uvarintEnc c.lengthValues.length) c.lengthValues.length := by
  refine isUvarint_uvarintEnc ?_
  rw [c.length_lengthValues, ← h.nsym_eq]
  exact c.nsym.isLt.trans (by decide)

theorem Context.Wf.areSvarints (h : c.Wf p) : AreSvarints (c.lengthValues.map svarintEnc) c.lengthValues := by
  rw [areSvarints_iff_forall₂, List.forall₂_map_left_iff, List.forall₂_same]
  intro v hv
  have := h.isLength v hv
  exact isUvarint_uvarintEnc (zigzagEnc_lt (by omega) (by omega))

theorem Context.Wf.validLengths {bound : Nat} (h : c.Wf p) (hle : c.nsym.toNat ≤ bound) :
    ValidLengths bound c.lengthValues := by
  have hpos := h.nsym_pos
  have heof := h.eof_coded
  rw [h.nsym_eq] at hle hpos heof
  rw [← c.length_lengthValues] at hle hpos
  rw [validLengths_iff hpos hle h.isLength, c.map_toNat_lengthValues, not_or, Bool.not_eq_true,
    oversubscribed_eq_false_iff_kraft h.len_le]
  exact ⟨by omega, h.kraft_le⟩

/-- The lengths determine what a valid context specifies (R134). -/
theorem Context.Wf.same {q : Params} (hc : c.Wf p) (hd : d.Wf q) (hvalid : d.valid = c.valid)
    (hlengths : d.lengths = c.lengths) : c.Same d := by
  have hinj {w : Nat} {us vs : List (BitVec w)} (h : us.map BitVec.toNat = vs.map BitVec.toNat) : us = vs :=
    List.map_injective_iff.2 (fun _ _ => BitVec.eq_of_toNat_eq) h
  have hlen : d.len = c.len := hinj hlengths
  have hnsym : d.nsym = c.nsym := BitVec.eq_of_toNat_eq (by rw [hd.nsym_eq, hc.nsym_eq, hlengths])
  have hnuml : d.numl = c.numl := hinj (by rw [hd.numl_eq, hc.numl_eq, hlengths])
  have hsorted : d.sorted = c.sorted := hinj (by rw [hd.sorted_eq, hc.sorted_eq, hlengths])
  constructor
  case valid => exact hvalid
  case nsym => exact hnsym
  case maxlen =>
    have hle := hc.maxlen_ge _ (hlengths ▸ hd.maxlen_mem)
    have hge := hd.maxlen_ge _ (hlengths ▸ hc.maxlen_mem)
    exact BitVec.eq_of_toNat_eq (Nat.le_antisymm hle hge)
  case ncoded => exact BitVec.eq_of_toNat_eq (by rw [hd.ncoded_eq, hc.ncoded_eq, hnuml])
  case len => exact fun s _ => by rw [Context.lenAt, Context.lenAt, hlen]
  case code =>
    intro s hs hl
    have hcoded : d.Coded s := ⟨hnsym ▸ hs, by rwa [Context.lenAt, hlen]⟩
    exact BitVec.eq_of_toNat_eq (by rw [hd.codeAt_toNat hcoded, hc.codeAt_toNat ⟨hs, hl⟩, hlengths])
  case sorted => exact fun k _ => by rw [Context.sortedAt, Context.sortedAt, hsorted]
  case numl => exact fun l _ => by rw [Context.numlAt, Context.numlAt, hnuml]

end

/-! ## The obligations -/

/-- Settles O42: the parse of the codebook ends with its lengths exactly when they are valid, and CANON commits them. -/
theorem deserializeAcceptsExactlyValidCodebooks : Obligations.DeserializeAcceptsExactlyValidCodebooks := by
  intro s count encs vs hidle ⟨_, hp, _⟩ hcblen hcount hencs hcb he
  by_cases hvalid : ValidLengths (min s.csr.dlim.toNat (s.params.nMax + 1)) vs
  · have hparsed : s.parsed = _ := parseCodebook_of_validLengths hcount hencs hcb he hvalid
    obtain ⟨hpos, hmax, hlen, heof, hover⟩ := parseCodebook_lengths hparsed
    obtain ⟨t, hexec, ht⟩ := exec_deserialize_of_lengths hidle hcblen hparsed
    refine ⟨t, hexec, ht.accepted, ht.ovr, ht.operands, ht.rams, ht.streams, ht.outside,
      fun _ => ⟨ht.err, ?_, ?_, ?_, ?_⟩, absurd hvalid⟩
    · rw [ht.result, BitVec.toNat_ofNat, Nat.mod_eq_of_lt (by omega)]
    · rw [ht.ctx]; rfl
    · rw [ht.ctx, canonContext_lengths hlen]
    · rw [ht.ctx, ht.outside.1]
      exact canonContext_wf hpos (by omega) (by omega) hlen heof ((oversubscribed_eq_false_iff_kraft hlen).1 hover)
  · obtain ⟨t, hexec, ht⟩ := exec_deserialize_of_invalid hidle hcblen
      (parseCodebook_of_not_validLengths hcount hencs hcb he hvalid)
    exact ⟨t, hexec, ht.accepted, ht.ovr, ht.operands, ht.rams, ht.streams, ht.outside, (absurd · hvalid),
      fun _ => ⟨ht.err, ht.result, ht.invalidated⟩⟩

/-- Settles O43: the count or the length that stands at the tail fails to decode. -/
theorem deserializeRejectsUnparsable : Obligations.DeserializeRejectsUnparsable := by
  intro s count tail encs vs n hidle hcblen hbefore hcb htail
  have hunparsable : Unparsable (count ++ encs.flatten).length s.csr.cblen.toNat tail := by
    simpa only [Unparsable, List.length_append] using htail
  have hparsed : s.parsed = .invalid := by
    rcases hbefore with ⟨rfl, rfl⟩ | ⟨hcount, hfew, hencs⟩
    · exact parseCodebook_of_unparsable_count hunparsable hcb
    · exact parseCodebook_of_unparsable hcount hfew hencs hcb hunparsable
  obtain ⟨t, hexec, ht⟩ := exec_deserialize_of_invalid hidle hcblen hparsed
  exact ⟨t, hexec, ht.accepted, ht.err, ht.result, ht.invalidated, ht.operands, ht.rams, ht.streams, ht.outside⟩

/-- Settles O41: CBLEN is checked before the parse, and the count before the lengths. -/
theorem deserializeBoundsComeFirst : Obligations.DeserializeBoundsComeFirst := by
  intro s e hidle hcases
  have hreplaced : ∃ t, exec .deserialize s = .next t ∧ ContextReplaced .deserialize s e 0 .invalid t := by
    rcases hcases with ⟨hrange, rfl⟩ | ⟨hcblen, rfl, count, n, hcount, hcb, he, hbounds⟩
    · exact exec_deserialize_of_range hidle hrange
    · exact exec_deserialize_of_invalid hidle hcblen
        (parseCodebook_of_count_out_of_bounds (uvarintDec_of_isUvarint hcount hcb (by omega)) hbounds)
  obtain ⟨t, hexec, ht⟩ := hreplaced
  exact ⟨t, hexec, ht.accepted, ht.err, ht.ovr, ht.invalidated, ht.result, ht.operands, ht.rams, ht.streams, ht.outside⟩

/-- Settles O44: the parse gives lengths, an invalid codebook, or a byte below CBLEN that was never written. -/
theorem deserializeEndsOrFaults : Obligations.DeserializeEndsOrFaults := by
  intro s hidle hcblen
  refine ⟨fun hwritten => ?_, fun count tail encs vs n i hbefore hten hmore hcb hi hlt hnone => ?_, fun i hfault => ?_⟩
  · rcases hparsed : s.parsed with ⟨lt, q⟩ | _ | i
    · obtain ⟨t, hexec, ht⟩ := exec_deserialize_of_lengths hidle hcblen hparsed
      exact ⟨t, hexec, ht.accepted, .inl ⟨ht.err, by rw [ht.ctx]; rfl⟩⟩
    · obtain ⟨t, hexec, ht⟩ := exec_deserialize_of_invalid hidle hcblen hparsed
      exact ⟨t, hexec, ht.accepted, .inr ⟨ht.err, ht.invalidated⟩⟩
    · obtain ⟨hi, hnone⟩ := parseCodebook_unwritten hparsed
      exact absurd hnone (hwritten i hi)
  · obtain ⟨hcb, htail⟩ := holdsAt_append.1 hcb
    rw [Nat.zero_add] at htail
    rw [hi, List.length_append] at hlt hnone ⊢
    have hdec := uvarintDec_of_unwritten hmore hten htail hlt hnone
    refine exec_deserialize_of_unwritten hidle hcblen ?_
    rcases hbefore with ⟨rfl, rfl⟩ | ⟨hcount, hle, hfew, hencs, hvs⟩
    · exact parseCodebook_of_unwritten_count hdec
    · exact parseCodebook_of_unwritten hcount hle hfew hencs hvs hcb (by omega) hdec
  · rcases hparsed : s.parsed with ⟨lt, q⟩ | _ | j
    · obtain ⟨t, hexec, -⟩ := exec_deserialize_of_lengths hidle hcblen hparsed
      cases hexec.symm.trans hfault
    · obtain ⟨t, hexec, -⟩ := exec_deserialize_of_invalid hidle hcblen hparsed
      cases hexec.symm.trans hfault
    · cases (exec_deserialize_of_unwritten hidle hcblen hparsed).symm.trans hfault
      exact parseCodebook_unwritten hparsed

/-- Settles O40: what SERIALIZE writes is the serialized form of the context, one byte for each length. -/
theorem serializeWritesCodebook : Obligations.SerializeWritesCodebook := by
  intro s out hidle hvalid hout _
  obtain rfl : out = s.ctx.serialized := hout.trans s.ctx.serialized_eq.symm
  exact ⟨s.ctx.length_serialized, _, exec_serialize_of_valid hidle hvalid, State.endCommand_accepted _ _ _ _ _ rfl, rfl,
    rfl, Memory.read?_writeAll_in _ _ _, fun a ha => Memory.read?_writeAll_out _ _ _ (.inr (by omega)),
    fun _ => rfl, rfl, rfl, ⟨rfl, rfl⟩, rfl, rfl, rfl, rfl⟩

/-- Settles O46: what SERIALIZE writes is an encoding of valid lengths, which O42 has DESERIALIZE accept, and the lengths
determine a valid context. -/
theorem serializeDeserializeRoundTrip : Obligations.SerializeDeserializeRoundTrip := by
  intro s hinv hidle hvalid hnsym
  have hwf := hinv.valid_wf hvalid
  have hsize : s.ctx.serialized.length < 2 ^ 32 := by
    have := uvlen_le_five s.ctx.nsym.isLt
    rw [s.ctx.length_serialized]
    omega
  refine ⟨_, exec_serialize_of_valid hidle hvalid, fun u huidle hparams hdlim hcblen hbytes => ?_⟩
  have hcblen : u.csr.cblen.toNat = s.ctx.serialized.length := by
    rw [hcblen]
    exact Nat.mod_eq_of_lt hsize
  have hcb : HoldsAt u.cb 0 s.ctx.serialized := fun i hi => by
    rw [hbytes _ (by rw [Nat.zero_add]; exact hi.trans_eq (Nat.mod_eq_of_lt hsize).symm)]
    exact Memory.read?_writeAll_in _ _ _ i hi
  have hfits : s.ctx.serialized.length ≤ u.params.cbBytes := hparams ▸ hwf.serialized_fits hinv.legal
  rw [hwf.serialized_eq_encodings] at hcb
  obtain ⟨v, hexec, -, -, -, -, -, houtside, haccepts, -⟩ := deserializeAcceptsExactlyValidCodebooks u _ _ _ huidle
    (hparams ▸ hinv.legal) (hcblen.trans_le hfits) hwf.isUvarint_count hwf.areSvarints hcb
    (by rw [hcblen, ← hwf.serialized_eq_encodings])
  have hbound : s.ctx.nsym.toNat ≤ min u.csr.dlim.toNat (u.params.nMax + 1) :=
    Nat.le_min.2 ⟨hdlim, hparams ▸ hwf.nsym_le⟩
  obtain ⟨herr, hresult, hv, hlengths, hwf'⟩ := haccepts (hwf.validLengths hbound)
  refine ⟨v, hexec, herr, BitVec.eq_of_toNat_eq ?_, hwf.same hwf' (hv.trans hvalid.symm) ?_⟩
  · rw [hresult, ← hwf.serialized_eq_encodings]
    exact (Nat.mod_eq_of_lt hsize).symm
  · rw [hlengths, Context.map_toNat_lengthValues]

end Sys2Proof.Machine
end

section
/-! PROOFS. The obligations about SYMLEN and ENCODE (R135 to R142) and about the commands that drive the stream ports. -/

namespace Sys2Proof.Machine

/-! ## The rules of SYMLEN and ENCODE, case by case (R136, R138, R140, R141) -/

section
variable {s : State}

theorem symlenRule_of_invalid (hv : s.ctx.valid = false) : symlenRule s = raise .noCodebook 0 .none s :=
  if_neg (Bool.eq_false_iff.1 hv)

theorem symlenRule_of_lt (hv : s.ctx.valid = true) (h : s.ctx.idOf s.csr.sym < s.ctx.nsym.toNat) :
    symlenRule s = finish (s.ctx.lenAt (s.ctx.idOf s.csr.sym)).toNat .none s :=
  (if_pos hv).trans (if_neg (Nat.not_le.2 h))

theorem symlenRule_of_ge (hv : s.ctx.valid = true) (h : s.ctx.nsym.toNat ≤ s.ctx.idOf s.csr.sym) :
    symlenRule s = finish 0 .none s :=
  (if_pos hv).trans (if_pos h)

theorem encodeRule_of_invalid (hv : s.ctx.valid = false) : encodeRule s = raise .noCodebook 0 .none s :=
  if_neg (Bool.eq_false_iff.1 hv)

theorem encodeRule_of_not_coded (hv : s.ctx.valid = true) (hc : ¬ s.ctx.Coded (s.ctx.idOf s.csr.sym)) :
    encodeRule s = raise .unknownSymbol 0 .none s := by
  refine (if_pos hv).trans ?_
  rcases Nat.lt_or_ge (s.ctx.idOf s.csr.sym) s.ctx.nsym.toNat with hlt | hge
  · exact (if_neg (Nat.not_le.2 hlt)).trans (if_pos (not_not.1 fun hl => hc ⟨hlt, hl⟩))
  · exact if_pos hge

theorem encodeRule_of_coded (hv : s.ctx.valid = true) (hc : s.ctx.Coded (s.ctx.idOf s.csr.sym)) :
    encodeRule s = finish (s.ctx.lenAt (s.ctx.idOf s.csr.sym)).toNat .wrote
      (s.bitWrite (s.ctx.codeAt (s.ctx.idOf s.csr.sym)) (s.ctx.lenAt (s.ctx.idOf s.csr.sym)).toNat) :=
  (if_pos hv).trans <| (if_neg (Nat.not_le.2 hc.1)).trans (if_neg hc.2)

/-- The command has ended with error code `e`, RESULT `r` and `w` as the writer's record, and changed nothing else. -/
structure WriterReplaced (op : Op) (s : State) (e : ErrCode) (r : Nat) (w : List Transfer) (t : State) : Prop where
  accepted : Accepted op t
  err : t.flags.err = e
  ovr : t.flags.ovr = s.flags.ovr
  ctx : t.ctx = s.ctx
  result : t.csr.result = BitVec.ofNat 32 r
  operands : SameOperands s t
  rams : SameRams s t
  writer : t.writer = w
  reader : t.reader = s.reader
  outside : SameOutside s t

theorem acceptCommand_replaces_writer {op : Op} {rule : State → Ending} {e : ErrCode} {r : Nat} {p : PortUse}
    {w : List Transfer} (hidle : s.phase = .idle)
    (hrule : ∀ f, rule { s with flags := f } = .ended e r p { s with flags := f, writer := w }) :
    ∃ t, acceptCommand op rule s = .next t ∧ WriterReplaced op s e r w t := by
  rw [acceptCommand_idle hidle, hrule]
  exact ⟨_, rfl, State.endCommand_accepted _ _ _ _ _ rfl, rfl, rfl, rfl, rfl, rfl, ⟨fun _ => rfl, fun _ => rfl⟩, rfl,
    rfl, rfl, rfl, rfl, rfl⟩

theorem exec_symlen_of_invalid (hidle : s.phase = .idle) (hv : s.ctx.valid = false) :
    ∃ t, exec .symlen s = .next t ∧ WriterReplaced .symlen s .noCodebook 0 s.writer t :=
  acceptCommand_replaces_writer hidle fun _ => symlenRule_of_invalid hv

theorem exec_symlen_of_lt (hidle : s.phase = .idle) (hv : s.ctx.valid = true)
    (h : s.ctx.idOf s.csr.sym < s.ctx.nsym.toNat) :
    ∃ t, exec .symlen s = .next t ∧
      WriterReplaced .symlen s .ok (s.ctx.lenAt (s.ctx.idOf s.csr.sym)).toNat s.writer t :=
  acceptCommand_replaces_writer hidle fun _ => symlenRule_of_lt hv h

theorem exec_symlen_of_ge (hidle : s.phase = .idle) (hv : s.ctx.valid = true)
    (h : s.ctx.nsym.toNat ≤ s.ctx.idOf s.csr.sym) :
    ∃ t, exec .symlen s = .next t ∧ WriterReplaced .symlen s .ok 0 s.writer t :=
  acceptCommand_replaces_writer hidle fun _ => symlenRule_of_ge hv h

theorem exec_encode_of_invalid (hidle : s.phase = .idle) (hv : s.ctx.valid = false) :
    ∃ t, exec .encode s = .next t ∧ WriterReplaced .encode s .noCodebook 0 s.writer t :=
  acceptCommand_replaces_writer hidle fun _ => encodeRule_of_invalid hv

theorem exec_encode_of_not_coded (hidle : s.phase = .idle) (hv : s.ctx.valid = true)
    (hc : ¬ s.ctx.Coded (s.ctx.idOf s.csr.sym)) :
    ∃ t, exec .encode s = .next t ∧ WriterReplaced .encode s .unknownSymbol 0 s.writer t :=
  acceptCommand_replaces_writer hidle fun _ => encodeRule_of_not_coded hv hc

/-- The transfer that ENCODE makes of a coded symbol (R139). -/
def Context.transferOf (c : Context) (id : Nat) : Transfer := ⟨c.codeAt id, (c.lenAt id).toNat⟩

theorem Context.bits_transferOf (c : Context) (id : Nat) : (c.transferOf id).bits = c.codeword id := rfl

theorem exec_encode_of_coded (hidle : s.phase = .idle) (hv : s.ctx.valid = true)
    (hc : s.ctx.Coded (s.ctx.idOf s.csr.sym)) :
    ∃ t, exec .encode s = .next t ∧ WriterReplaced .encode s .ok (s.ctx.lenAt (s.ctx.idOf s.csr.sym)).toNat
      (s.writer ++ [s.ctx.transferOf (s.ctx.idOf s.csr.sym)]) t :=
  acceptCommand_replaces_writer hidle fun _ => encodeRule_of_coded hv hc

end

/-- The value of a codeword has no bit above the codeword's length (R56). -/
theorem Context.Wf.codeAt_lt {p : Params} {c : Context} {id : Nat} (h : c.Wf p) (hc : c.Coded id) :
    (c.codeAt id).toNat < 2 ^ (c.lenAt id).toNat := by
  rw [h.codeAt_toNat hc, Context.lenAt_toNat (h.lt_length hc)]
  exact canonCode_lt h.len_le h.kraft_le (h.lt_length hc) (h.one_le_length hc)

theorem Context.Wf.lenAt_bounds {p : Params} {c : Context} {id : Nat} (h : c.Wf p) (hc : c.Coded id) :
    1 ≤ (c.lenAt id).toNat ∧ (c.lenAt id).toNat ≤ maxCodeLength := by
  have hlt := h.lt_length hc
  have hpos := h.one_le_length hc
  rw [Context.lenAt_toNat hlt]
  exact ⟨hpos, h.len_le _ (by rw [List.getD_eq_getElem _ _ hlt]; exact List.getElem_mem hlt)⟩

/-! ## The commands of the stream ports (R139, R155) -/

section
variable {op : Op} {s u : State}

/-- Only ENCODE drives the bit writer (R139). -/
theorem RuleEffect.writer (h : RuleEffect op s u) (hop : op ≠ .encode) : u.writer = s.writer := by
  cases op with
  | encode => exact absurd rfl hop
  | _ => rw [RuleEffect] at h; rw [h]

/-- Only DECODE drives the bit reader (R155). -/
theorem RuleEffect.reader (h : RuleEffect op s u) (hop : op ≠ .decode) : u.reader = s.reader := by
  cases op with
  | decode => exact absurd rfl hop
  | _ => rw [RuleEffect] at h; rw [h]

end

@[simp] theorem writeReg_writer (d : Word) (s : State) (r : Reg) : (writeReg d s r).writer = s.writer := by
  rw [writeReg_frame]

@[simp] theorem writeReg_reader (d : Word) (s : State) (r : Reg) : (writeReg d s r).reader = s.reader := by
  rw [writeReg_frame]

/-! ## The obligations -/

/-- Settles O47: SYMLEN's three ends, none of which changes more than STATUS and RESULT. -/
theorem symlenReportsLength : Obligations.SymlenReportsLength := by
  intro s id hidle hid
  obtain rfl : id = s.ctx.idOf s.csr.sym := hid
  rcases hv : s.ctx.valid with _ | _
  · obtain ⟨t, hexec, ht⟩ := exec_symlen_of_invalid hidle hv
    exact ⟨t, hexec, ht.accepted, ht.ovr, fun _ => ⟨ht.err, ht.result⟩, nofun, ht.ctx, ht.operands, ht.rams,
      ⟨ht.writer, ht.reader⟩, ht.outside⟩
  · rcases Nat.lt_or_ge (s.ctx.idOf s.csr.sym) s.ctx.nsym.toNat with hlt | hge
    · obtain ⟨t, hexec, ht⟩ := exec_symlen_of_lt hidle hv hlt
      exact ⟨t, hexec, ht.accepted, ht.ovr, nofun,
        fun _ => ⟨ht.err, fun _ => ht.result.trans (BitVec.ofNat_toNat ..), fun hge => absurd hlt (Nat.not_lt.2 hge)⟩,
        ht.ctx, ht.operands, ht.rams, ⟨ht.writer, ht.reader⟩, ht.outside⟩
    · obtain ⟨t, hexec, ht⟩ := exec_symlen_of_ge hidle hv hge
      exact ⟨t, hexec, ht.accepted, ht.ovr, nofun,
        fun _ => ⟨ht.err, fun hlt => absurd hlt (Nat.not_lt.2 hge), fun _ => ht.result⟩, ht.ctx, ht.operands, ht.rams,
        ⟨ht.writer, ht.reader⟩, ht.outside⟩

/-- Settles O48: ENCODE's three ends, of which the one for a coded symbol alone has a transfer. -/
theorem encodeWritesCodeword : Obligations.EncodeWritesCodeword := by
  intro s id hidle hid
  obtain rfl : id = s.ctx.idOf s.csr.sym := hid
  rcases hv : s.ctx.valid with _ | _
  · obtain ⟨t, hexec, ht⟩ := exec_encode_of_invalid hidle hv
    exact ⟨t, hexec, ht.accepted, ht.ovr, nofun, nofun, fun _ => ⟨ht.err, ht.result, ht.writer⟩, ht.ctx, ht.reader,
      ht.operands, ht.rams, ht.outside⟩
  · by_cases hc : s.ctx.Coded (s.ctx.idOf s.csr.sym)
    · obtain ⟨t, hexec, ht⟩ := exec_encode_of_coded hidle hv hc
      exact ⟨t, hexec, ht.accepted, ht.ovr,
        fun _ => ⟨ht.err, ht.result.trans (BitVec.ofNat_toNat ..), ht.writer⟩, fun h => absurd hc h.2, nofun, ht.ctx,
        ht.reader, ht.operands, ht.rams, ht.outside⟩
    · obtain ⟨t, hexec, ht⟩ := exec_encode_of_not_coded hidle hv hc
      exact ⟨t, hexec, ht.accepted, ht.ovr, fun h => absurd h.2 hc, fun _ => ⟨ht.err, ht.result, ht.writer⟩, nofun,
        ht.ctx, ht.reader, ht.operands, ht.rams, ht.outside⟩

/-- Settles O49: the transfer is the symbol's code and length, which R59 bounds. -/
theorem transferFitsItsLength : Obligations.TransferFitsItsLength := by
  intro s hinv hidle hv hc
  have hwf := hinv.valid_wf hv
  obtain ⟨hpos, hle⟩ := hwf.lenAt_bounds hc
  obtain ⟨t, hexec, ht⟩ := exec_encode_of_coded hidle hv hc
  exact ⟨t, _, hexec, ht.writer, s.ctx.bits_transferOf _, hpos, hle, hwf.codeAt_lt hc⟩

/-- Settles O56: of the commands' rules ENCODE's alone names the writer and DECODE's alone the reader. -/
theorem streamsDrivenOnlyByTheirCommands : Obligations.StreamsDrivenOnlyByTheirCommands := by
  intro s t h
  rcases step_effect h with ⟨hr, -⟩ | ⟨rest, op, e, r, p, u, hc, hrule, rfl⟩ | ⟨rest, a, d, -, -, rfl⟩ | hq
  · exact ⟨fun _ => .inl hr, fun _ => .inl hr⟩
  · have heff := ruleOf_effect hrule
    refine ⟨fun hne => .inr ?_, fun hne => .inr ?_⟩
    · by_cases hop : op = .encode
      · exact hop ▸ hc
      · exact absurd (heff.writer hop) hne
    · by_cases hop : op = .decode
      · exact hop ▸ hc
      · exact absurd (heff.reader hop) hne
  · exact ⟨fun hne => absurd (writeReg_writer ..) hne, fun hne => absurd (writeReg_reader ..) hne⟩
  · exact ⟨fun hne => absurd hq.writer hne, fun hne => absurd hq.reader hne⟩

end Sys2Proof.Machine
end

section
/-! PROOFS. The obligation that what one core encodes another decodes (R143, R153): the loop of DECODE over a codeword, and
the hosts that wait for each command's end. -/

namespace Sys2Proof.Machine

/-! ## The loop of DECODE over the bits of a codeword (R144, R154) -/

@[simp] theorem bitAnswers_nil : bitAnswers [] = [] := rfl

@[simp] theorem bitAnswers_cons (b : Bool) (bits : List Bool) : bitAnswers (b :: bits) = .bit b :: bitAnswers bits := rfl

@[simp] theorem bitAnswers_append (bits bits' : List Bool) :
    bitAnswers (bits ++ bits') = bitAnswers bits ++ bitAnswers bits' := List.map_append

section
variable {p : Params} {c : Context} {id : Nat}

theorem Context.Wf.numlAt_toNat (h : c.Wf p) {l : Nat} (hl : 1 ≤ l) (hle : l ≤ maxCodeLength) :
    (c.numlAt l).toNat = c.lengths.count l := by
  obtain ⟨k, rfl⟩ := Nat.exists_eq_add_of_le' hl
  have hget : (c.numl.map BitVec.toNat)[k + 1]? = some (c.lengths.count (k + 1)) := by
    rw [h.numl_eq, List.getElem?_cons_succ, List.getElem?_map, List.getElem?_range' (by omega)]
    simp [Nat.add_comm]
  rw [List.getElem?_map, Option.map_eq_some_iff] at hget
  obtain ⟨v, hv, hcount⟩ := hget
  rw [Context.numlAt, hv, Option.getD_some, hcount]

/-- A symbol stands in SORTED at `base` of its length plus its rank (R57). -/
theorem Context.Wf.sortedAt_rank (h : c.Wf p) (hc : c.Coded id) :
    c.sortedAt (rankBase c.lengths (c.lengths.getD id 0) + rankOf c.lengths id) = BitVec.ofNat 32 id := by
  have hid := h.lt_length hc
  have hle : c.lengths.getD id 0 ≤ maxCodeLength := Context.lenAt_toNat hid ▸ (h.lenAt_bounds hc).2
  have hget := sortedSymbols_getElem?_rankBase_add (h.one_le_length hc) hle (rankOf_lt_count hid)
  rw [symbolsOfLength_getElem?_rankOf hid, ← h.sorted_eq, List.getElem?_map, Option.map_eq_some_iff] at hget
  obtain ⟨v, hv, htoNat⟩ := hget
  rw [Context.sortedAt, hv, Option.getD_some, ← htoNat, BitVec.ofNat_toNat, BitVec.setWidth_eq]

theorem shiftLeft_or_bit (x : Nat) (b : Bool) : (x <<< 1 ||| b.toNat) = 2 * x + b.toNat := by
  rw [← Nat.shiftLeft_add_eq_or_of_lt (by cases b <;> decide), Nat.shiftLeft_eq]
  omega

/-- One bit of the loop when the bits so far are no codeword: with `first` and `base` of the next length in its
accumulators the loop goes on with those of the length after it. -/
theorem Context.Wf.decodeLoop_continue (h : c.Wf p) {fuel n x : Nat} {b : Bool} {rest : List Answer}
    (hn : n < maxCodeLength)
    (hx : firstCode c.lengths (n + 1) + c.lengths.count (n + 1) ≤ 2 * x + b.toNat) :
    decodeLoop c (fuel + 1) n x (firstCode c.lengths (n + 1)) (rankBase c.lengths (n + 1)) (.bit b :: rest) =
      decodeLoop c fuel (n + 1) (2 * x + b.toNat) (firstCode c.lengths (n + 2)) (rankBase c.lengths (n + 2)) rest := by
  have hcnt := h.numlAt_toNat (l := n + 1) (by omega) hn
  rw [decodeLoop]
  simp only [shiftLeft_or_bit, hcnt]
  rw [if_neg (by omega)]
  rfl

/-- The loop's last bit: the bits so far are the code of rank `r` among those of their length. -/
theorem Context.Wf.decodeLoop_found (h : c.Wf p) {fuel n x r : Nat} {b : Bool} {rest : List Answer}
    (hn : n < maxCodeLength) (hx : 2 * x + b.toNat = firstCode c.lengths (n + 1) + r)
    (hr : r < c.lengths.count (n + 1)) :
    decodeLoop c (fuel + 1) n x (firstCode c.lengths (n + 1)) (rankBase c.lengths (n + 1)) (.bit b :: rest) =
      .found (c.sortedAt (rankBase c.lengths (n + 1) + r)) (n + 1) rest := by
  have hcnt := h.numlAt_toNat (l := n + 1) (by omega) hn
  rw [decodeLoop]
  simp only [shiftLeft_or_bit, hcnt, hx, Nat.add_sub_cancel_left]
  rw [if_pos hr]

/-- The bits of a transfer are its topmost one and those below it. -/
theorem Transfer.bits_succ (v : Word) (k : Nat) :
    Transfer.bits ⟨v, k + 1⟩ = v.toNat.testBit k :: Transfer.bits ⟨v, k⟩ := by
  refine List.ext_getElem (by simp) fun j hj _ => ?_
  rw [Transfer.getElem_bits]
  cases j with
  | zero => rfl
  | succ j =>
    rw [List.getElem_cons_succ, Transfer.getElem_bits]
    exact congrArg v.toNat.testBit (by dsimp only; omega)

/-- The topmost bits of a number are those but the last, and the last. -/
theorem two_mul_div_add_testBit (x k : Nat) : 2 * (x / 2 ^ (k + 1)) + (x.testBit k).toNat = x / 2 ^ k := by
  rw [Nat.toNat_testBit, Nat.pow_succ, ← Nat.div_div_eq_div_mul]
  omega

/-- With the last `k` bits of a codeword still to come the loop finds its symbol at the codeword's end. -/
theorem Context.Wf.decodeLoop_codeword (h : c.Wf p) (hc : c.Coded id) {n k fuel : Nat} {rest : List Answer}
    (hlen : n + k = c.lengths.getD id 0) (hk : 1 ≤ k) (hfuel : k ≤ fuel) :
    decodeLoop c fuel n (canonCode c.lengths id / 2 ^ k) (firstCode c.lengths (n + 1)) (rankBase c.lengths (n + 1))
        (bitAnswers (Transfer.bits ⟨c.codeAt id, k⟩) ++ rest) =
      .found (BitVec.ofNat 32 id) (c.lengths.getD id 0) rest := by
  have hid := h.lt_length hc
  have hmax : c.lengths.getD id 0 ≤ maxCodeLength := Context.lenAt_toNat hid ▸ (h.lenAt_bounds hc).2
  induction k generalizing n fuel with
  | zero => omega
  | succ k ih =>
    obtain ⟨fuel, rfl⟩ := Nat.exists_eq_add_of_le' (show 1 ≤ fuel by omega)
    have hcode := two_mul_div_add_testBit (canonCode c.lengths id) k
    rw [Transfer.bits_succ, h.codeAt_toNat hc, bitAnswers_cons, List.cons_append]
    rcases Nat.eq_zero_or_pos k with rfl | hpos
    · have hrank : canonCode c.lengths id / 2 ^ 0 = firstCode c.lengths (n + 1) + rankOf c.lengths id := by
        rw [Nat.pow_zero, Nat.div_one, canonCode, ← hlen]
      rw [h.decodeLoop_found (by omega) (hcode.trans hrank) (hlen ▸ rankOf_lt_count hid), hlen, h.sortedAt_rank hc]
      rfl
    · have hlow : firstCode c.lengths (n + 1) + c.lengths.count (n + 1) ≤ canonCode c.lengths id / 2 ^ k := by
        rw [Nat.le_div_iff_mul_le (Nat.two_pow_pos k), show k = c.lengths.getD id 0 - (n + 1) by omega]
        exact (firstCode_add_count_mul_le c.lengths (by omega) (by omega)).trans (firstCode_le_canonCode c.lengths id)
      rw [h.decodeLoop_continue (by omega) (hcode ▸ hlow), hcode, ih (by omega) hpos (by omega)]

/-- Over a whole codeword the loop of DECODE finds its symbol and takes no answer after it (R154). -/
theorem Context.Wf.decodeLoop_eq_found (h : c.Wf p) (hc : c.Coded id) (rest : List Answer) :
    decodeLoop c c.maxlen.toNat 0 0 0 0 (bitAnswers (c.codeword id) ++ rest) =
      .found (BitVec.ofNat 32 id) (c.lenAt id).toNat rest := by
  have hid := h.lt_length hc
  have hlen := Context.lenAt_toNat hid
  have hpos := h.one_le_length hc
  have hmax : c.lengths.getD id 0 ≤ c.maxlen.toNat :=
    h.maxlen_ge _ (by rw [List.getD_eq_getElem _ _ hid]; exact List.getElem_mem hid)
  have hzero : canonCode c.lengths id / 2 ^ c.lengths.getD id 0 = 0 :=
    Nat.div_eq_of_lt (canonCode_lt h.len_le h.kraft_le hid hpos)
  have hloop := h.decodeLoop_codeword hc (rest := rest) (Nat.zero_add _) hpos hmax
  rw [hzero] at hloop
  rw [Context.codeword, hlen]
  exact hloop

/-- The EOF id is recognised by its register value (R148). -/
theorem Context.Wf.symOut_eq (h : c.Wf p) (hc : c.Coded id) :
    (if BitVec.ofNat 32 id = c.nsym - 1 then eofSentinel else BitVec.ofNat 32 id) = c.symOut id := by
  have hiff : BitVec.ofNat 32 id = c.nsym - 1 ↔ id = c.nsym.toNat - 1 := by
    have hpos : (1 : Word) ≤ c.nsym := BitVec.le_def.2 h.nsym_pos
    rw [← BitVec.toNat_inj, BitVec.toNat_ofNat, BitVec.toNat_sub_of_le hpos, Nat.mod_eq_of_lt (hc.1.trans c.nsym.isLt)]
    rfl
  simp only [hiff, Context.symOut]

end

section
variable {s : State} {id : Nat} {rest : List Answer}

theorem decodeRule_of_codeword (hv : s.ctx.valid = true) (hwf : s.ctx.Wf s.params) (hc : s.ctx.Coded id)
    (hreader : s.reader = bitAnswers (s.ctx.codeword id) ++ rest) :
    decodeRule s = finish (s.ctx.lenAt id).toNat (.read (bitAnswers (s.ctx.codeword id)))
      { s with reader := rest, csr := { s.csr with sym := s.ctx.symOut id } } := by
  rw [decodeRule, if_pos hv, hreader, hwf.decodeLoop_eq_found hc]
  simp only [takenFrom_append, hwf.symOut_eq hc]

/-- DECODE of a codeword (R154). -/
theorem exec_decode_of_codeword (hidle : s.phase = .idle) (hv : s.ctx.valid = true) (hwf : s.ctx.Wf s.params)
    (hc : s.ctx.Coded id) (hreader : s.reader = bitAnswers (s.ctx.codeword id) ++ rest) :
    exec .decode s = .next (State.endCommand
      { s with
        flags := s.flags.accept Op.decode.code
        reader := rest
        csr := { s.csr with sym := s.ctx.symOut id } }
      .decode .ok (s.ctx.lenAt id).toNat (.read (bitAnswers (s.ctx.codeword id)))) := by
  have hrule := decodeRule_of_codeword (s := { s with flags := s.flags.accept Op.decode.code }) hv hwf hc hreader
  change acceptCommand .decode decodeRule s = _
  rw [acceptCommand_idle hidle, hrule]
  rfl

end

/-! ## The hosts that wait (R100) -/

/-- From `s` the core has come to rest in `t`, with `w` as the writer's record and `r` as the reader's answers, and without
another change of the context, the RAMs, the parameters or the host's queue. -/
structure Rested (s : State) (w : List Transfer) (r : List Answer) (t : State) : Prop where
  idle : t.phase = .idle
  writer : t.writer = w
  reader : t.reader = r
  ctx : t.ctx = s.ctx
  rams : SameRams s t
  params : t.params = s.params
  pending : t.pending = s.pending

theorem Rested.refl {s : State} (h : s.phase = .idle) : Rested s s.writer s.reader s :=
  ⟨h, rfl, rfl, rfl, ⟨fun _ => rfl, fun _ => rfl⟩, rfl, rfl⟩

theorem Rested.trans {s t u : State} {w w' : List Transfer} {r r' : List Answer} (h : Rested s w r t)
    (h' : Rested t w' r' u) : Rested s w' r' u :=
  ⟨h'.idle, h'.writer, h'.reader, h'.ctx.trans h.ctx,
    ⟨fun a => (h'.rams.1 a).trans (h.rams.1 a), fun a => (h'.rams.2 a).trans (h.rams.2 a)⟩,
    h'.params.trans h.params, h'.pending.trans h.pending⟩

/-- One symbol sent: SYM, ENCODE, and STATUS until the window has closed. -/
theorem encodes_cons {s : State} {v : Word} (hidle : s.phase = .idle) (hv : s.ctx.valid = true)
    (hc : s.ctx.Coded (s.ctx.idOf v)) :
    ∃ u, Rested s (s.writer ++ [s.ctx.transferOf (s.ctx.idOf v)]) s.reader u ∧
      ∀ vs t, Encodes vs u t → Encodes (v :: vs) s t := by
  have hsym : exec (.hwr 0x18 v) s = .next { s with csr := { s.csr with sym := v } } :=
    exec_hwr_idle v hidle (by decide) (by decide)
  obtain ⟨t, hexec, ht⟩ := exec_encode_of_coded (s := { s with csr := { s.csr with sym := v } }) hidle hv hc
  obtain ⟨u, hwait, huidle, hu⟩ := waitForEnd_next t
  obtain ⟨hparams, hpending, -, -⟩ := ht.outside
  refine ⟨u, ?_, fun vs w hvs => ⟨_, t, u, hsym, hexec, hwait, huidle, ?_, hvs⟩⟩
  · rw [hu]
    exact ⟨rfl, ht.writer, ht.reader, ht.ctx, ht.rams, hparams, hpending⟩
  · rw [hu]
    exact ht.err

/-- A list of coded symbols sent. -/
theorem encodes_of_coded {vs : List Word} {s : State} (hidle : s.phase = .idle) (hv : s.ctx.valid = true)
    (hc : ∀ v ∈ vs, s.ctx.Coded (s.ctx.idOf v)) :
    ∃ t, Encodes vs s t ∧ Rested s (s.writer ++ vs.map fun v => s.ctx.transferOf (s.ctx.idOf v)) s.reader t := by
  induction vs generalizing s with
  | nil => exact ⟨s, rfl, by simpa using Rested.refl hidle⟩
  | cons v vs ih =>
    obtain ⟨hcv, hcvs⟩ := List.forall_mem_cons.1 hc
    obtain ⟨u, hu, hencodes⟩ := encodes_cons hidle hv hcv
    obtain ⟨t, htencodes, ht⟩ := ih hu.idle (hu.ctx ▸ hv) (hu.ctx ▸ hcvs)
    refine ⟨t, hencodes vs t htencodes, ?_⟩
    rw [hu.ctx, hu.writer, hu.reader, List.append_assoc] at ht
    exact hu.trans ht

/-- What the host that decodes a symbol reads in SYM and RESULT (R144, R148). -/
def Context.decoded (c : Context) (id : Nat) : Word × Word := (c.symOut id, (c.lenAt id).zeroExtend 32)

/-- One symbol received: DECODE, and STATUS until the window has closed. -/
theorem decodes_cons {s : State} {id : Nat} {rest : List Answer} (hidle : s.phase = .idle) (hv : s.ctx.valid = true)
    (hwf : s.ctx.Wf s.params) (hc : s.ctx.Coded id) (hreader : s.reader = bitAnswers (s.ctx.codeword id) ++ rest) :
    ∃ u, Rested s s.writer rest u ∧ ∀ es t, Decodes es u t → Decodes (s.ctx.decoded id :: es) s t := by
  have hexec := exec_decode_of_codeword hidle hv hwf hc hreader
  obtain ⟨u, hwait, huidle, hu⟩ := waitForEnd_next _
  refine ⟨u, ?_, fun es t hes => ⟨_, u, hexec, hwait, huidle, ?_, ?_, ?_, hes⟩⟩
  · rw [hu]
    exact ⟨rfl, rfl, rfl, rfl, ⟨fun _ => rfl, fun _ => rfl⟩, rfl, rfl⟩
  · rw [hu]
    rfl
  · rw [hu]
    rfl
  · rw [hu]
    exact BitVec.ofNat_toNat ..

/-- A list of codewords received, and the padding after them left. -/
theorem decodes_of_codewords {ids : List Nat} {pad : List Answer} {s : State} (hidle : s.phase = .idle)
    (hv : s.ctx.valid = true) (hwf : s.ctx.Wf s.params) (hc : ∀ id ∈ ids, s.ctx.Coded id)
    (hreader : s.reader = bitAnswers (ids.flatMap s.ctx.codeword) ++ pad) :
    ∃ t, Decodes (ids.map s.ctx.decoded) s t ∧ Rested s s.writer pad t := by
  induction ids generalizing s with
  | nil => exact ⟨s, rfl, by simpa [hreader] using Rested.refl hidle⟩
  | cons id ids ih =>
    obtain ⟨hcid, hcids⟩ := List.forall_mem_cons.1 hc
    rw [List.flatMap_cons, bitAnswers_append, List.append_assoc] at hreader
    obtain ⟨u, hu, hdecodes⟩ := decodes_cons hidle hv hwf hcid hreader
    obtain ⟨t, htdecodes, ht⟩ := ih hu.idle (hu.ctx ▸ hv) (by rw [hu.ctx, hu.params]; exact hwf) (hu.ctx ▸ hcids)
      (by rw [hu.reader, hu.ctx])
    rw [hu.ctx] at htdecodes
    rw [hu.writer] at ht
    exact ⟨t, hdecodes _ t htdecodes, hu.trans ht⟩

/-! ## Equal contexts -/

section
variable {c d : Context} {id : Nat}

theorem Context.Same.coded (h : c.Same d) (hc : c.Coded id) : d.Coded id :=
  ⟨h.nsym ▸ hc.1, by rw [h.len id hc.1]; exact hc.2⟩

theorem Context.Same.codeword_eq (h : c.Same d) (hc : c.Coded id) : d.codeword id = c.codeword id := by
  rw [Context.codeword, h.len id hc.1, h.code id hc.1 hc.2, Context.codeword]

theorem Context.Same.decoded_eq (h : c.Same d) (hc : c.Coded id) : d.decoded id = c.decoded id := by
  rw [Context.decoded, Context.symOut, h.len id hc.1, h.nsym, Context.decoded, Context.symOut]

end

/-! ## The obligation -/

/-- Settles O54, by induction on the symbols on either side: each ENCODE adds one codeword to the writer's stream, and each
DECODE takes one codeword from the reader's. -/
theorem encodeDecodeRoundTrip : Obligations.EncodeDecodeRoundTrip := by
  intro s vs hinv hidle hv hc
  obtain ⟨t, hencodes, ht⟩ := encodes_of_coded hidle hv hc
  have hbits : t.writer.flatMap Transfer.bits =
      s.writer.flatMap Transfer.bits ++ vs.flatMap fun v => s.ctx.codeword (s.ctx.idOf v) := by
    rw [ht.writer, List.flatMap_append, List.flatMap_map]
    rfl
  refine ⟨t, hencodes, hbits, ht.ctx, ht.reader, ht.rams, ht.params, ht.pending,
    fun u pad huinv huidle hsame hempty hreader => ?_⟩
  have hids : ∀ id ∈ vs.map s.ctx.idOf, s.ctx.Coded id := List.forall_mem_map.2 hc
  have huv : u.ctx.valid = true := hsame.valid.trans hv
  obtain ⟨w, hdecodes, hw⟩ := decodes_of_codewords (ids := vs.map s.ctx.idOf) (pad := pad) huidle huv
    (huinv.valid_wf huv) (fun id hid => hsame.coded (hids id hid)) <| by
      rw [hreader, hbits, hempty, List.flatMap_nil, List.nil_append,
        List.flatMap_congr fun id hid => hsame.codeword_eq (hids id hid), List.flatMap_map]
  rw [List.map_congr_left fun id hid => hsame.decoded_eq (hids id hid), List.map_map] at hdecodes
  exact ⟨w, hdecodes, hw.ctx, hw.reader, hw.writer, hw.rams⟩

end Sys2Proof.Machine
end

section
/-! PROOFS. The obligations about DECODE (R144 to R152, R154). -/

namespace Sys2Proof.Machine

/-! ## The ends of DECODE (R144, R148 to R151) -/

/-- How the loop of DECODE ends in this state (R144). -/
def State.decodeEnd (s : State) : DecodeEnd := decodeLoop s.ctx s.ctx.maxlen.toNat 0 0 0 0 s.reader

/-- DECODE has ended with error code `e`, RESULT `n`, SYM `v` and `r` as the reader's answers, and changed nothing else. -/
structure DecodeEnded (s : State) (e : ErrCode) (n : Nat) (v : Word) (r : List Answer) (t : State) : Prop where
  accepted : Accepted .decode t
  err : t.flags.err = e
  ovr : t.flags.ovr = s.flags.ovr
  csr : t.csr = { s.csr with sym := v, result := BitVec.ofNat 32 n }
  reader : t.reader = r
  ctx : t.ctx = s.ctx
  writer : t.writer = s.writer
  rams : SameRams s t
  outside : SameOutside s t

section
variable {s t : State} {e : ErrCode} {n : Nat} {v : Word} {r : List Answer}

theorem DecodeEnded.sym (h : DecodeEnded s e n v r t) : t.csr.sym = v := by rw [h.csr]

theorem DecodeEnded.result (h : DecodeEnded s e n v r t) : t.csr.result = BitVec.ofNat 32 n := by rw [h.csr]

/-- RESULT holds the number of answers, which is at most MAXLEN and so fits the register. -/
theorem DecodeEnded.result_toNat (h : DecodeEnded s e n v r t) (hn : n ≤ s.ctx.maxlen.toNat) :
    t.csr.result.toNat = n := by
  have hmaxlen := s.ctx.maxlen.isLt
  rw [h.result, BitVec.toNat_ofNat, Nat.mod_eq_of_lt (by omega)]

theorem DecodeEnded.csr_eq (h : DecodeEnded s e n v r t) :
    t.csr = { s.csr with sym := t.csr.sym, result := t.csr.result } := by rw [h.sym, h.result, h.csr]

theorem exec_decode_of_rule {p : PortUse} (hidle : s.phase = .idle)
    (hrule : ∀ f, decodeRule { s with flags := f } =
      .ended e n p { s with flags := f, reader := r, csr := { s.csr with sym := v } }) :
    ∃ t, exec .decode s = .next t ∧ DecodeEnded s e n v r t := by
  change ∃ t, acceptCommand .decode decodeRule s = .next t ∧ _
  rw [acceptCommand_idle hidle, hrule]
  exact ⟨_, rfl, State.endCommand_accepted _ _ _ _ _ rfl, rfl, rfl, rfl, rfl, rfl, rfl, ⟨fun _ => rfl, fun _ => rfl⟩,
    rfl, rfl, rfl, rfl⟩

theorem exec_decode_of_found (hidle : s.phase = .idle) (hv : s.ctx.valid = true)
    (hend : s.decodeEnd = .found v n r) :
    ∃ t, exec .decode s = .next t ∧ DecodeEnded s .ok n (if v = s.ctx.nsym - 1 then eofSentinel else v) r t := by
  rw [State.decodeEnd] at hend
  exact exec_decode_of_rule hidle fun _ => by simp only [decodeRule, hv, if_true, hend]; rfl

theorem exec_decode_of_exhausted (hidle : s.phase = .idle) (hv : s.ctx.valid = true)
    (hend : s.decodeEnd = .exhausted n r) :
    ∃ t, exec .decode s = .next t ∧ DecodeEnded s .endOfStream n s.csr.sym r t := by
  rw [State.decodeEnd] at hend
  exact exec_decode_of_rule hidle fun _ => by simp only [decodeRule, hv, if_true, hend]; rfl

theorem exec_decode_of_noMatch (hidle : s.phase = .idle) (hv : s.ctx.valid = true)
    (hend : s.decodeEnd = .noMatch n r) :
    ∃ t, exec .decode s = .next t ∧ DecodeEnded s .unknownSymbol n s.csr.sym r t := by
  rw [State.decodeEnd] at hend
  exact exec_decode_of_rule hidle fun _ => by simp only [decodeRule, hv, if_true, hend]; rfl

end

/-- The answers that one DECODE takes, for each way it ends (R147, R149, R150). -/
theorem State.decodeEnd_cases (s : State) :
    (∃ v bits rest, s.decodeEnd = .found v bits.length rest ∧ bits ≠ [] ∧ bits.length ≤ s.ctx.maxlen.toNat ∧
      s.reader = bitAnswers bits ++ rest) ∨
    (∃ bits rest, s.decodeEnd = .exhausted bits.length rest ∧ bits.length < s.ctx.maxlen.toNat ∧
      (s.reader = bitAnswers bits ++ .eos :: rest ∨ s.reader = bitAnswers bits ∧ rest = [])) ∨
    ∃ bits rest, s.decodeEnd = .noMatch bits.length rest ∧ bits.length = s.ctx.maxlen.toNat ∧
      s.reader = bitAnswers bits ++ rest := by
  simpa only [Nat.zero_add, State.decodeEnd] using
    decodeLoop_cases s.ctx s.ctx.maxlen.toNat 0 0 0 0 s.reader

@[simp] theorem length_bitAnswers (bits : List Bool) : (bitAnswers bits).length = bits.length := List.length_map _

theorem eos_notMem_bitAnswers (bits : List Bool) : .eos ∉ bitAnswers bits := by simp [bitAnswers]

/-! ## The loop over bits that no codeword begins (R149, R150) -/

section
variable {p : Params} {c : Context}

theorem Context.Wf.coded_of_one_le (h : c.Wf p) {id : Nat} (hid : id < c.lengths.length)
    (hpos : 1 ≤ c.lengths.getD id 0) : c.Coded id := by
  refine ⟨h.nsym_eq ▸ hid, fun hzero => ?_⟩
  rw [← Context.lenAt_toNat hid, hzero] at hpos
  exact absurd hpos (by decide)

/-- The last of the topmost bits of a number, and those before it. -/
theorem div_pow_succ_and_testBit_of_div_pow_eq {v k x : Nat} {b : Bool} (h : v / 2 ^ k = 2 * x + b.toNat) :
    v / 2 ^ (k + 1) = x ∧ v.testBit k = b := by
  have hb := b.toNat_lt
  rw [Nat.pow_succ, ← Nat.div_div_eq_div_mul, Nat.testBit_eq_decide_div_mod_eq, h]
  exact ⟨by omega, by cases b <;> simp⟩

/-- One bit of the loop when the bits before it are past every code of their length: they are now the code of a symbol, or
again past every code. -/
theorem Context.Wf.decodeLoop_bit (h : c.Wf p) {n x : Nat} (b : Bool) (hn : n < maxCodeLength)
    (hx : firstCode c.lengths (n + 1) ≤ 2 * x) :
    (∃ id, c.Coded id ∧ c.lengths.getD id 0 = n + 1 ∧ canonCode c.lengths id = 2 * x + b.toNat) ∨
    firstCode c.lengths (n + 2) ≤ 2 * (2 * x + b.toNat) ∧ ∀ fuel rest,
      decodeLoop c (fuel + 1) n x (firstCode c.lengths (n + 1)) (rankBase c.lengths (n + 1)) (.bit b :: rest) =
        decodeLoop c fuel (n + 1) (2 * x + b.toNat) (firstCode c.lengths (n + 2)) (rankBase c.lengths (n + 2)) rest := by
  rcases Nat.lt_or_ge (2 * x + b.toNat) (firstCode c.lengths (n + 1) + c.lengths.count (n + 1)) with hlt | hge
  · obtain ⟨id, hid, hlen, hrank⟩ := exists_rankOf_eq (lt := c.lengths) (l := n + 1)
      (r := 2 * x + b.toNat - firstCode c.lengths (n + 1)) (by omega)
    refine .inl ⟨id, h.coded_of_one_le hid (by omega), hlen, ?_⟩
    rw [canonCode, hlen, hrank]
    omega
  · refine .inr ⟨?_, fun _ _ => h.decodeLoop_continue hn hge⟩
    rw [firstCode_succ _ (by omega)]
    omega

/-- Over bits that complete no codeword the loop goes on, and the bits stay past every code of their length. Here `x` is the
value of the `n` bits before them. -/
theorem Context.Wf.decodeLoop_over_bits (h : c.Wf p) {n x : Nat} (bits : List Bool) (hn : n + bits.length ≤ maxCodeLength)
    (hfirst : firstCode c.lengths (n + 1) ≤ 2 * x) (hx : x < 2 ^ n)
    (hno : ∀ id k, c.Coded id → n + k = c.lengths.getD id 0 → canonCode c.lengths id / 2 ^ k = x →
      ¬ Transfer.bits ⟨c.codeAt id, k⟩ <+: bits) :
    ∃ y, firstCode c.lengths (n + bits.length + 1) ≤ 2 * y ∧ y < 2 ^ (n + bits.length) ∧ ∀ fuel rest,
      decodeLoop c (fuel + bits.length) n x (firstCode c.lengths (n + 1)) (rankBase c.lengths (n + 1))
          (bitAnswers bits ++ rest) =
        decodeLoop c fuel (n + bits.length) y (firstCode c.lengths (n + bits.length + 1))
          (rankBase c.lengths (n + bits.length + 1)) rest := by
  induction bits generalizing n x with
  | nil => exact ⟨x, hfirst, hx, fun _ _ => rfl⟩
  | cons b bits ih =>
    rw [List.length_cons] at hn ⊢
    have hprefix {id k : Nat} (hc : c.Coded id) (hcode : canonCode c.lengths id / 2 ^ k = 2 * x + b.toNat)
        (hlen : n + (k + 1) = c.lengths.getD id 0) : ¬ Transfer.bits ⟨c.codeAt id, k⟩ <+: bits := by
      obtain ⟨hrest, hbit⟩ := div_pow_succ_and_testBit_of_div_pow_eq hcode
      have hlonger := hno id (k + 1) hc hlen hrest
      rw [Transfer.bits_succ, h.codeAt_toNat hc, hbit] at hlonger
      exact fun hp => hlonger ((List.prefix_cons_inj b).2 hp)
    rcases h.decodeLoop_bit b (by omega) hfirst with ⟨id, hc, hlen, hcode⟩ | ⟨hfirst', hloop⟩
    · exact absurd List.nil_prefix (hprefix (k := 0) hc (by simpa using hcode) hlen.symm)
    · have hx' : 2 * x + b.toNat < 2 ^ (n + 1) := by
        have := b.toNat_lt
        rw [Nat.pow_succ]
        omega
      obtain ⟨y, hy, hlt, hrest⟩ := ih (by omega) hfirst' hx'
        fun id k hc hlen hcode => hprefix hc hcode (by omega)
      rw [show n + 1 + bits.length = n + (bits.length + 1) by omega] at hy hlt hrest
      exact ⟨y, hy, hlt, fun fuel rest => (hloop _ _).trans (hrest fuel rest)⟩

/-- A DECODE whose bits begin with no codeword comes to their end with their value `y`, which is past every code. -/
theorem Context.Wf.decodeLoop_of_no_codeword (h : c.Wf p) {bits : List Bool} (hlen : bits.length ≤ maxCodeLength)
    (hno : ∀ id, c.Coded id → ¬ c.codeword id <+: bits) :
    ∃ y, firstCode c.lengths (bits.length + 1) ≤ 2 * y ∧ y < 2 ^ bits.length ∧ ∀ fuel rest,
      decodeLoop c (fuel + bits.length) 0 0 0 0 (bitAnswers bits ++ rest) =
        decodeLoop c fuel bits.length y (firstCode c.lengths (bits.length + 1))
          (rankBase c.lengths (bits.length + 1)) rest := by
  have hover := h.decodeLoop_over_bits (n := 0) (x := 0) bits (by omega) le_rfl (by decide) fun id k hc hk _ => by
    rw [Nat.zero_add, ← Context.lenAt_toNat (h.lt_length hc)] at hk
    exact hk ▸ hno id hc
  rw [Nat.zero_add] at hover
  exact hover

theorem Context.Wf.maxlen_le (h : c.Wf p) : c.maxlen.toNat ≤ maxCodeLength := h.len_le _ h.maxlen_mem

theorem Context.Wf.one_le_maxlen (h : c.Wf p) : 1 ≤ c.maxlen.toNat := by
  have hlt : c.nsym.toNat - 1 < c.lengths.length := by
    have := h.nsym_eq
    have := h.nsym_pos
    omega
  refine h.eof_coded.trans (h.maxlen_ge _ ?_)
  rw [List.getD_eq_getElem _ _ hlt]
  exact List.getElem_mem hlt

/-- The Kraft sum is the share of the codes of `m` bits that are used up when no code is longer (R119). -/
theorem kraft_eq_mul_of_le {lt : List Nat} {m : Nat} (hpos : 1 ≤ m) (hm : m ≤ maxCodeLength) (h : ∀ l ∈ lt, l ≤ m) :
    kraft lt = 2 ^ (maxCodeLength - m) * (firstCode lt m + lt.count m) := by
  rw [firstCode_add_count lt hpos, ← List.sum_map_mul_left, kraft]
  congr 1
  refine List.map_congr_left fun l hl => ?_
  have hle := h l hl
  rcases Nat.eq_zero_or_pos l with rfl | hl0
  · rfl
  · rw [if_neg (by omega), kraftTerm, if_neg (by omega), ← Nat.pow_add]
    congr 1
    omega

/-- MAXLEN bits that begin with no codeword are a code past the last one, so the code is incomplete (R150). -/
theorem Context.Wf.kraft_lt_of_no_codeword (h : c.Wf p) {bits : List Bool} (hlen : bits.length = c.maxlen.toNat)
    (hno : ∀ id, c.Coded id → ¬ c.codeword id <+: bits) : kraft c.lengths < 2 ^ maxCodeLength := by
  have hmax := h.maxlen_le
  obtain ⟨y, hy, hlt, -⟩ := h.decodeLoop_of_no_codeword (hlen ▸ hmax) hno
  rw [hlen] at hy hlt
  rw [firstCode_succ _ h.one_le_maxlen] at hy
  calc kraft c.lengths
      = 2 ^ (maxCodeLength - c.maxlen.toNat) *
          (firstCode c.lengths c.maxlen.toNat + c.lengths.count c.maxlen.toNat) :=
        kraft_eq_mul_of_le h.one_le_maxlen hmax h.maxlen_ge
    _ < 2 ^ (maxCodeLength - c.maxlen.toNat) * 2 ^ c.maxlen.toNat :=
        Nat.mul_lt_mul_of_pos_left (by omega) (Nat.two_pow_pos _)
    _ = 2 ^ maxCodeLength := by rw [← Nat.pow_add, Nat.sub_add_cancel hmax]

end

/-! ## DECODE of bits that no codeword begins -/

section
variable {s : State} {bits : List Bool} {rest : List Answer}

theorem decodeEnd_of_codeword (hwf : s.ctx.Wf s.params) {id : Nat} (hc : s.ctx.Coded id)
    (hreader : s.reader = bitAnswers (s.ctx.codeword id) ++ rest) :
    s.decodeEnd = .found (BitVec.ofNat 32 id) (s.ctx.lenAt id).toNat rest := by
  rw [State.decodeEnd, hreader, hwf.decodeLoop_eq_found hc]

theorem decodeEnd_of_eos (hwf : s.ctx.Wf s.params) (hlen : bits.length < s.ctx.maxlen.toNat)
    (hno : ∀ id, s.ctx.Coded id → ¬ s.ctx.codeword id <+: bits)
    (hreader : s.reader = bitAnswers bits ++ .eos :: rest ∨ s.reader = bitAnswers bits ∧ rest = []) :
    s.decodeEnd = .exhausted bits.length rest := by
  have hmax := hwf.maxlen_le
  obtain ⟨y, -, -, hloop⟩ := hwf.decodeLoop_of_no_codeword (by omega) hno
  obtain ⟨fuel, hfuel⟩ : ∃ fuel, s.ctx.maxlen.toNat = fuel + 1 + bits.length :=
    ⟨s.ctx.maxlen.toNat - bits.length - 1, by omega⟩
  rw [State.decodeEnd, hfuel]
  rcases hreader with hreader | ⟨hreader, rfl⟩
  · rw [hreader, hloop]
    rfl
  · rw [hreader, ← List.append_nil (bitAnswers bits), hloop]
    rfl

theorem decodeEnd_of_maxlen_bits (hwf : s.ctx.Wf s.params) (hlen : bits.length = s.ctx.maxlen.toNat)
    (hno : ∀ id, s.ctx.Coded id → ¬ s.ctx.codeword id <+: bits) (hreader : s.reader = bitAnswers bits ++ rest) :
    s.decodeEnd = .noMatch bits.length rest := by
  obtain ⟨y, -, -, hloop⟩ := hwf.decodeLoop_of_no_codeword (hlen ▸ hwf.maxlen_le) hno
  rw [State.decodeEnd, ← hlen, hreader, ← Nat.zero_add bits.length, hloop, Nat.zero_add]
  rfl

/-- When DECODE finds no symbol in bits, no codeword begins them, as it would have found its symbol. -/
theorem no_codeword_of_decodeEnd_eq_noMatch (hwf : s.ctx.Wf s.params) {n : Nat} {r : List Answer}
    (hend : s.decodeEnd = .noMatch n r) (hreader : s.reader = bitAnswers bits ++ rest) {id : Nat}
    (hc : s.ctx.Coded id) : ¬ s.ctx.codeword id <+: bits := by
  rintro ⟨tail, rfl⟩
  rw [bitAnswers_append, List.append_assoc] at hreader
  rw [decodeEnd_of_codeword hwf hc hreader] at hend
  cases hend

end

/-! ## The obligations -/

/-- Settles O51, as the loop finds the symbol at the end of its codeword. -/
theorem decodeReturnsTheCodewordsSymbol : Obligations.DecodeReturnsTheCodewordsSymbol := by
  intro s id rest hidle hv hwf hc hreader
  obtain ⟨t, hexec, ht⟩ := exec_decode_of_found hidle hv (decodeEnd_of_codeword hwf hc hreader)
  rw [hwf.symOut_eq hc] at ht
  refine ⟨t, hexec, ht.accepted, ht.err, ht.ovr, ?_, ht.reader, ht.ctx, ht.writer, ht.rams, ht.outside⟩
  rw [ht.csr, BitVec.ofNat_toNat]

/-- Settles O52, as the loop goes on over bits that complete no codeword and meets the EOS. -/
theorem decodeReportsEndOfStream : Obligations.DecodeReportsEndOfStream := by
  intro s bits rest hidle hv hwf hlen hno hreader
  obtain ⟨t, hexec, ht⟩ := exec_decode_of_exhausted hidle hv (decodeEnd_of_eos hwf hlen hno hreader)
  exact ⟨t, hexec, ht.accepted, ht.err, ht.ovr, ht.csr, ht.reader, ht.ctx, ht.writer, ht.rams, ht.outside⟩

/-- Settles O53: bits without a codeword take the loop to its last length, and their value is then a code of MAXLEN bits
that no symbol uses. -/
theorem noMatchOnlyInIncompleteCodes : Obligations.NoMatchOnlyInIncompleteCodes := by
  intro s hidle hv hwf
  have hresult : BitVec.ofNat 32 s.ctx.maxlen.toNat = s.ctx.maxlen.zeroExtend 32 := BitVec.ofNat_toNat ..
  refine ⟨fun bits rest hlen hreader hno => ?_, ?_⟩
  · obtain ⟨t, hexec, ht⟩ := exec_decode_of_noMatch hidle hv (decodeEnd_of_maxlen_bits hwf hlen hno hreader)
    rw [hlen] at ht
    exact ⟨t, hexec, ht.accepted, ht.err, ht.ovr, hresult ▸ ht.csr, ht.reader, ht.ctx, ht.writer, ht.rams, ht.outside⟩
  · rcases s.decodeEnd_cases with ⟨v, bits, rest, hend, -⟩ | ⟨bits, rest, hend, -⟩ | ⟨bits, rest, hend, hlen, hreader⟩
    · obtain ⟨t, hexec, ht⟩ := exec_decode_of_found hidle hv hend
      exact ⟨t, hexec, fun herr => by cases ht.err.symm.trans herr⟩
    · obtain ⟨t, hexec, ht⟩ := exec_decode_of_exhausted hidle hv hend
      exact ⟨t, hexec, fun herr => by cases ht.err.symm.trans herr⟩
    · obtain ⟨t, hexec, ht⟩ := exec_decode_of_noMatch hidle hv hend
      rw [hlen] at ht
      exact ⟨t, hexec, fun _ => ⟨ht.result.trans hresult, hwf.kraft_lt_of_no_codeword hlen fun _ hc =>
        no_codeword_of_decodeEnd_eq_noMatch hwf hend hreader hc⟩⟩

/-- Settles O50, from the answers that the loop takes for each way it ends. -/
theorem decodeEndsInThreeWays : Obligations.DecodeEndsInThreeWays := by
  intro s hidle hv
  rcases s.decodeEnd_cases with
    ⟨v, bits, rest, hend, hne, hlen, hreader⟩ | ⟨bits, rest, hend, hlen, hreader⟩ | ⟨bits, rest, hend, hlen, hreader⟩
  · obtain ⟨t, hexec, ht⟩ := exec_decode_of_found hidle hv hend
    have hresult := ht.result_toNat hlen
    refine ⟨t, bitAnswers bits, hexec, ht.accepted, ht.ovr, ht.reader ▸ hreader, by simpa using hlen,
      .inl ⟨ht.err, ?_, by simpa using hresult, eos_notMem_bitAnswers bits⟩,
      ht.csr_eq, ht.ctx, ht.writer, ht.rams, ht.outside⟩
    exact hresult ▸ List.length_pos_iff.2 hne
  · obtain ⟨t, hexec, ht⟩ := exec_decode_of_exhausted hidle hv hend
    have hresult := ht.result_toNat hlen.le
    obtain ⟨taken, htaken, hall, hways⟩ : ∃ taken, taken.length ≤ bits.length + 1 ∧ s.reader = taken ++ t.reader ∧
        (taken = bitAnswers bits ++ [.eos] ∨ taken = bitAnswers bits ∧ t.reader = []) := by
      rw [ht.reader]
      rcases hreader with hreader | ⟨hreader, rfl⟩
      · exact ⟨_, by simp, by simp [hreader], .inl rfl⟩
      · exact ⟨_, by simp, by simp [hreader], .inr ⟨rfl, rfl⟩⟩
    exact ⟨t, taken, hexec, ht.accepted, ht.ovr, hall, by omega,
      .inr (.inl ⟨ht.err, ht.sym, by omega, bits, hresult.symm, hways⟩),
      ht.csr_eq, ht.ctx, ht.writer, ht.rams, ht.outside⟩
  · obtain ⟨t, hexec, ht⟩ := exec_decode_of_noMatch hidle hv hend
    have hresult := ht.result_toNat hlen.le
    exact ⟨t, bitAnswers bits, hexec, ht.accepted, ht.ovr, ht.reader ▸ hreader, by simp [hlen],
      .inr (.inr ⟨ht.err, ht.sym, hresult.trans hlen, by simpa using hlen, eos_notMem_bitAnswers bits⟩),
      ht.csr_eq, ht.ctx, ht.writer, ht.rams, ht.outside⟩

end Sys2Proof.Machine
end

section
/-! PROOFS. The obligations about the illegal command word, NOP and CLEAR (45_control.md). -/

namespace Sys2Proof.Machine

/-! ## The words that name no operation (R88) -/

theorem Op.code_toNat_lt (op : Op) : op.code.toNat < 8 := by cases op <;> decide

/-- A word with a bit above OP, or with OP past the last operation, is no command word. -/
theorem decodeOp_eq_none {d : Word} (h : d.toNat / 2 ^ 8 ≠ 0 ∨ 8 ≤ d.toNat % 2 ^ 8) : decodeOp d = none := by
  refine Option.eq_none_iff_forall_ne_some.2 fun op hop => ?_
  have hd : d.toNat < 8 := toNat_of_decodeOp hop ▸ Op.code_toNat_lt op
  omega

/-! ## The commands while BUSY = 0 -/

section
variable {s : State}

/-- A write of an illegal command word to CMD (R158). -/
theorem exec_hwr_cmd_of_illegal {d : Word} (hidle : s.phase = .idle) (hd : decodeOp d = none) :
    exec (.hwr cmdOffset d) s = .next (illegalCommand d s) := by
  have ha : Offset.aligned cmdOffset = true := by decide
  simp only [exec, execHwr, ha, if_true, hidle, writeCmd, hd]

/-- NOP replaces the context by itself: its rule changes nothing (R156). -/
theorem exec_nop (hidle : s.phase = .idle) :
    ∃ t, exec .nop s = .next t ∧ ContextReplaced .nop s .ok 0 s.ctx t :=
  acceptCommand_replaces_ctx hidle fun _ => rfl

/-- The state in which CLEAR's rule ends: accepted, the context discarded and OVR 0 (R157). -/
def State.cleared (s : State) : State :=
  { s with ctx := .invalid, flags := (s.flags.accept Op.clear.code).clearOverrun }

theorem exec_clear (hidle : s.phase = .idle) :
    exec .clear s = .next (s.cleared.endCommand .clear .ok 0 .none) :=
  (exec_instr_eq .clear s).trans (acceptCommand_idle hidle)

end

/-! ## The obligations -/

/-- Settles O23: no operation's code is such a word, so the write to CMD takes the illegal path. -/
theorem illegalCommandWord : Obligations.IllegalCommandWord := by
  intro s d hidle hd
  have hexec : exec (.hwr 0x04 d) s = .next (illegalCommand d s) := exec_hwr_cmd_of_illegal hidle (decodeOp_eq_none hd)
  rw [hexec, illegalCommand, opField, extractLsb'_low_byte]
  rfl

/-- Settles O24, as NOP's rule changes no field. -/
theorem nopEndsOk : Obligations.NopEndsOk := by
  intro s hidle
  obtain ⟨t, hexec, ht⟩ := exec_nop hidle
  exact ⟨t, hexec, ht.accepted, ht.err, ht.ovr, ht.result, ht.ctx, ht.operands, ht.rams, ht.streams, ht.outside⟩

/-- Settles O25, as CLEAR's rule asks nothing of the context that it discards. -/
theorem clearDiscardsContext : Obligations.ClearDiscardsContext := by
  intro s hidle
  have haccepted : Accepted .clear (s.cleared.endCommand .clear .ok 0 .none) :=
    State.endCommand_accepted _ _ _ _ _ rfl
  have hinvalid : Invalidated (s.cleared.endCommand .clear .ok 0 .none) := ⟨rfl, rfl, rfl, rfl⟩
  exact ⟨_, exec_clear hidle, haccepted, rfl, rfl, rfl, hinvalid, rfl, ⟨fun _ => rfl, fun _ => rfl⟩, ⟨rfl, rfl⟩,
    rfl, rfl, rfl, rfl⟩

end Sys2Proof.Machine
end

section
/-! PROOFS. The obligations about what errors leave behind (60_exceptions.md) and about the steps that run nothing. -/

namespace Sys2Proof.Machine

/-! ## The errors of the commands (R165, R167) -/

section
variable {op : Op} {s u : State} {e : ErrCode} {r : Nat} {p : PortUse}

/-- The four commands that need a codebook check for it first. -/
theorem ruleOf_of_no_codebook (hop : op ∈ [Op.serialize, .symlen, .encode, .decode]) (hv : s.ctx.valid = false) :
    ruleOf op s = raise .noCodebook 0 .none s := by
  simp only [List.mem_cons, List.not_mem_nil, or_false] at hop
  rcases hop with rfl | rfl | rfl | rfl
  · exact if_neg (Bool.eq_false_iff.1 hv)
  · exact symlenRule_of_invalid hv
  · exact encodeRule_of_invalid hv
  · exact if_neg (Bool.eq_false_iff.1 hv)

/-- Every error of a command that rebuilds the context is a `raiseInvalidating`. -/
theorem ruleOf_eq_raiseInvalidating (hop : op ∈ [Op.build, .deserialize]) (h : ruleOf op s = .ended e r p u)
    (he : e ≠ .ok) : ruleOf op s = raiseInvalidating e s := by
  simp only [List.mem_cons, List.not_mem_nil, or_false] at hop
  rcases hop with rfl | rfl
  · obtain ⟨rfl, ⟨-, rfl, rfl⟩ | ⟨_, hok, -⟩⟩ := buildRule_cases h
    · exact h
    · exact absurd hok he
  · obtain ⟨rfl, ⟨-, rfl, rfl⟩ | ⟨_, hok, -⟩⟩ := deserializeRule_cases h
    · exact h
    · exact absurd hok he

end

/-- An accepted command whose rule replaces the context changes nothing else at its end. -/
theorem endCommand_replaces_ctx (op : Op) (s : State) (e : ErrCode) (r : Nat) (c : Context) :
    ContextReplaced op s e r c
      (State.endCommand { s with flags := s.flags.accept op.code, ctx := c } op e r .none) where
  accepted := State.endCommand_accepted _ _ _ _ _ rfl
  err := rfl
  ovr := rfl
  ctx := rfl
  result := rfl
  operands := rfl
  rams := ⟨fun _ => rfl, fun _ => rfl⟩
  streams := ⟨rfl, rfl⟩
  outside := ⟨rfl, rfl, rfl, rfl⟩

/-- A BUILD or DESERIALIZE that ends with an error has replaced the context by no codebook and nothing else. -/
theorem exec_rebuild_of_error {op : Op} {s t : State} (hop : op ∈ [Op.build, .deserialize]) (hidle : s.phase = .idle)
    (h : exec op.instr s = .next t) (he : t.flags.err ≠ .ok) :
    ContextReplaced op s t.flags.err 0 .invalid t := by
  rw [exec_instr_eq] at h
  rcases acceptCommand_cases h with ⟨o, n, p, hbusy, -⟩ | ⟨-, e, r, p, u, hrule, rfl⟩
  · cases hidle.symm.trans hbusy
  · cases (ruleOf_eq_raiseInvalidating hop hrule he).symm.trans hrule
    exact endCommand_replaces_ctx op s e 0 .invalid

/-! ## Steps and transactions that run nothing (R22, R64, R179) -/

theorem step_of_pending_nil {s : State} (h : s.pending = []) : step s = .next s := by
  simp only [step, fetch, h]

/-- A step that takes a whole-word transaction which is no instruction. -/
theorem step_of_decode_error {s : State} {w : TransactionWord} {rest : List HostEvent} {r : Reject}
    (hp : s.pending = .transaction 0xF w :: rest) (hd : decode (.transaction w) = .error r) :
    step s = rejectTransaction r := by
  have hsub : isSubWordWrite 0xF w = false := by simp [isSubWordWrite]
  simp only [step, fetch, hp, hsub, hd]
  rfl

theorem decode_transaction_of_misaligned {w : TransactionWord} (h : ¬ Offset.aligned (addrField w) = true) :
    decode (.transaction w) = .error (.misalignedOffset (addrField w)) := if_neg h

theorem addrField_eq_ofNat (w : TransactionWord) : addrField w = BitVec.ofNat 8 (w.toNat / 2 ^ 32) := by
  rw [← BitVec.toNat_inj, addrField_toNat, BitVec.toNat_ofNat]

theorem exec_hwr_of_misaligned {a : Offset} (h : ¬ Offset.aligned a = true) (d : Word) (s : State) :
    exec (.hwr a d) s = .fault (.noSuchOffset a) := if_neg h

theorem exec_hrd_of_misaligned {a : Offset} (h : ¬ Offset.aligned a = true) (s : State) :
    exec (.hrd a) s = .fault (.noSuchOffset a) := if_neg h

/-! ## The obligations -/

/-- Settles O26: NO_CODEBOOK is raised before anything is done, so the context is replaced by itself. -/
theorem noCodebookError : Obligations.NoCodebookError := by
  intro s op hop hidle hv
  obtain ⟨t, hexec, ht⟩ := acceptCommand_replaces_ctx (op := op) (c := s.ctx) hidle
    fun f => ruleOf_of_no_codebook (s := { s with flags := f }) hop hv
  exact ⟨t, (exec_instr_eq op s).trans hexec, ht.accepted, ht.err, ht.ovr, ht.result, ht.ctx, ht.operands, ht.rams,
    ht.streams, ht.outside⟩

/-- Settles O45: the errors of both commands invalidate the context they find. -/
theorem failingRebuildInvalidates : Obligations.FailingRebuildInvalidates := by
  intro s t i hi hidle hexec he
  obtain ⟨op, hop, rfl⟩ : ∃ op ∈ [Op.build, .deserialize], i = op.instr := by
    simp only [List.mem_cons, List.not_mem_nil, or_false] at hi
    rcases hi with rfl | rfl
    · exact ⟨.build, by decide, rfl⟩
    · exact ⟨.deserialize, by decide, rfl⟩
  have ht := exec_rebuild_of_error hop hidle hexec he
  exact ⟨ht.invalidated, ht.result, ht.operands, ht.rams, ht.streams, ht.outside⟩

/-- Settles O9: the offset is checked before the direction of a transaction and before the phase. -/
theorem stepsThatRunNothing : Obligations.StepsThatRunNothing := by
  refine ⟨fun s => step_of_pending_nil, fun s w rest hp hw => ?_, fun s a d ha => ?_⟩
  · have hmisaligned : ¬ Offset.aligned (addrField w) = true := by
      rw [Offset.aligned_iff, addrField_toNat]
      omega
    rw [step_of_decode_error hp (decode_transaction_of_misaligned hmisaligned), addrField_eq_ofNat]
    rfl
  · have hmisaligned : ¬ Offset.aligned a = true := mt (Offset.aligned_iff a).1 ha
    exact ⟨exec_hwr_of_misaligned hmisaligned d s, exec_hrd_of_misaligned hmisaligned s⟩

end Sys2Proof.Machine
end

section
/-! PROOFS. The obligations about the BUSY window (R185, R190). -/

namespace Sys2Proof.Machine

/-! ## A transaction of an open window -/

/-- A transaction of the window changes only the phase and DONE. -/
theorem State.tick_eq (s : State) :
    s.tick = { s with phase := s.tick.phase, flags := { s.flags with done := s.tick.flags.done } } := by
  rcases s.tick_cases with ⟨-, h⟩ | ⟨_, _, -, h⟩ | ⟨_, _, _, -, h⟩ <;> rw [h]

/-- A dropped write changes only OVR, the phase and DONE. -/
theorem State.dropWrite_eq (s : State) :
    s.dropWrite =
      { s with phase := s.dropWrite.phase, flags := { s.flags with ovr := true, done := s.dropWrite.flags.done } } :=
  State.tick_eq { s with flags := s.flags.overrun }

section
variable {s : State} {op : Op} {n : Nat} {port : PortUse}

theorem windowStep_tick (h : s.phase = .busy op n port) : WindowStep op n port s s.tick := by
  cases n with
  | zero => exact ⟨fun _ => by simp only [State.tick, h, and_self], nofun⟩
  | succ n =>
    refine ⟨nofun, fun m hm => ?_⟩
    cases hm
    simp only [State.tick, h, and_self]

/-- OVR is set before the window's transaction passes, which leaves it alone. -/
theorem windowStep_dropWrite (h : s.phase = .busy op n port) : WindowStep op n port s s.dropWrite :=
  windowStep_tick (s := { s with flags := s.flags.overrun }) h

/-! ## The instructions in the window -/

theorem exec_hwr_busy {a : Offset} (d : Word) (h : s.phase = .busy op n port) (ha : Offset.aligned a = true) :
    exec (.hwr a d) s = .next s.dropWrite := by
  simp only [exec, execHwr, ha, if_true, h]

theorem exec_instr_busy (c : Op) (h : s.phase = .busy op n port) : exec c.instr s = .next s.dropWrite := by
  rw [exec_instr_eq, acceptCommand_busy h]

/-- A read in the window: the host gets its answer, a free value is drawn, and the window comes nearer to its end. -/
def State.busyAnswer (s : State) (a : Offset) : State :=
  State.tick { s.answerHost (readRegBusy s (regAt a)) with free := s.free + 1 }

/-- A read in the window changes only the phase, DONE, the draw counter and the host's record. -/
theorem State.busyAnswer_eq (s : State) (a : Offset) :
    s.busyAnswer a = { s with
      phase := (s.busyAnswer a).phase
      flags := { s.flags with done := (s.busyAnswer a).flags.done }
      free := (s.busyAnswer a).free
      answers := s.answers ++ [readRegBusy s (regAt a)] } := by
  rw [State.busyAnswer, State.tick_free]
  exact State.tick_eq _

theorem exec_hrd_busy {a : Offset} (h : s.phase = .busy op n port) (ha : Offset.aligned a = true) :
    exec (.hrd a) s = .next (s.busyAnswer a) := by
  simp only [exec, execHrd, ha, if_true, h, State.busyAnswer]

theorem windowStep_busyAnswer (a : Offset) (h : s.phase = .busy op n port) :
    WindowStep op n port s (s.busyAnswer a) :=
  windowStep_tick (s := { s.answerHost (readRegBusy s (regAt a)) with free := s.free + 1 }) h

/-- An instruction is a host transaction or the command of an operation. -/
theorem hwr_or_hrd_or_command (i : Instr) : (∃ a d, i = .hwr a d) ∨ (∃ a, i = .hrd a) ∨ ∃ c : Op, i = c.instr := by
  cases i with
  | hwr a d => exact .inl ⟨a, d, rfl⟩
  | hrd a => exact .inr (.inl ⟨a, rfl⟩)
  | nop => exact .inr (.inr ⟨.nop, rfl⟩)
  | build => exact .inr (.inr ⟨.build, rfl⟩)
  | serialize => exact .inr (.inr ⟨.serialize, rfl⟩)
  | deserialize => exact .inr (.inr ⟨.deserialize, rfl⟩)
  | symlen => exact .inr (.inr ⟨.symlen, rfl⟩)
  | encode => exact .inr (.inr ⟨.encode, rfl⟩)
  | decode => exact .inr (.inr ⟨.decode, rfl⟩)
  | clear => exact .inr (.inr ⟨.clear, rfl⟩)

/-- Whatever the host issues in the window, it takes one transaction of it and stops nothing. -/
theorem exec_busy {i : Instr} (h : s.phase = .busy op n port) (hi : i.WellFormed) :
    ∃ t, exec i s = .next t ∧ WindowStep op n port s t := by
  rcases hwr_or_hrd_or_command i with ⟨a, d, rfl⟩ | ⟨a, rfl⟩ | ⟨c, rfl⟩
  · exact ⟨_, exec_hwr_busy d h hi, windowStep_dropWrite h⟩
  · exact ⟨_, exec_hrd_busy h hi, windowStep_busyAnswer a h⟩
  · exact ⟨_, exec_instr_busy c h, windowStep_dropWrite h⟩

end

/-! ## STATUS in the window (R185 (3)) -/

theorem busyStatusWord_getLsbD_busy (v : Word) : (busyStatusWord v).getLsbD 0 = true := by
  simp [busyStatusWord]

theorem busyStatusWord_getLsbD_done (v : Word) : (busyStatusWord v).getLsbD 1 = false := by
  simp [busyStatusWord]

/-! ## The obligations -/

/-- Settles O20: a write at any offset and a command word are the same dropped write. -/
theorem busyWindowDropsWrites : Obligations.BusyWindowDropsWrites := by
  intro s op n port h i hi
  have hexec : exec i s = .next s.dropWrite := by
    rcases hi with ⟨a, d, ha, rfl⟩ | ⟨c, rfl⟩
    · exact exec_hwr_busy d h ((Offset.aligned_iff a).2 ha)
    · exact exec_instr_busy c h
  exact ⟨_, hexec, windowStep_dropWrite h, s.dropWrite_eq⟩

/-- Settles O21: the answer is `readRegBusy` of the register at the offset. -/
theorem busyWindowReads : Obligations.BusyWindowReads := by
  intro s op n port a h ha
  refine ⟨s.busyAnswer a, readRegBusy s (regAt a), exec_hrd_busy h ((Offset.aligned_iff a).2 ha),
    windowStep_busyAnswer a h, s.busyAnswer_eq a, ?_, ?_, ?_, ?_, ?_⟩
  · rintro rfl; rfl
  · rintro rfl; rfl
  · rintro rfl; rfl
  · rintro rfl; rfl
  · rintro rfl
    exact ⟨busyStatusWord_getLsbD_busy _, busyStatusWord_getLsbD_done _⟩

/-- Settles O22, by induction on the transactions that are still to come. -/
theorem busyWindowCloses : Obligations.BusyWindowCloses := by
  intro n s op port is h hlen hwf
  induction n generalizing s is with
  | zero =>
    obtain ⟨i, rfl⟩ := List.length_eq_one_iff.1 hlen
    obtain ⟨t, hexec, hlast, -⟩ := exec_busy h (hwf i List.mem_cons_self)
    exact ⟨t, execAll_cons hexec, hlast rfl⟩
  | succ n ih =>
    obtain ⟨i, is, rfl⟩ := List.exists_cons_of_length_eq_add_one hlen
    obtain ⟨u, hexec, -, hnext⟩ := exec_busy h (hwf i List.mem_cons_self)
    obtain ⟨t, hall, ht⟩ := ih u is (hnext n rfl).1 (Nat.succ.inj hlen) fun j hj => hwf j (List.mem_cons_of_mem i hj)
    exact ⟨t, (execAll_cons hexec).trans hall, ht⟩

end Sys2Proof.Machine
end

section
/-! PROOFS. The obligation about a reset in a command's window (R181). -/

namespace Sys2Proof.Machine

/-! ## What a command has done at its port -/

/-- The record that a command leaves of its port says how the streams came from the state `s` before it to `u`. -/
def PortUsed (op : Op) (s u : State) : PortUse → Prop
  | .none => SameStreams s u
  | .wrote => op = .encode ∧ (∃ x, u.writer = s.writer ++ [x]) ∧ u.reader = s.reader
  | .read taken =>
    op = .decode ∧ u.writer = s.writer ∧ s.reader = taken ++ u.reader ∧ taken.length ≤ s.ctx.maxlen.toNat

/-- The answers that the loop of DECODE leaves. -/
def DecodeEnd.rest : DecodeEnd → List Answer
  | .found _ _ rest => rest
  | .exhausted _ rest => rest
  | .noMatch _ rest => rest

/-- A DECODE takes at most MAXLEN answers, the one that is EOS included. -/
theorem State.reader_eq_append_decodeEnd_rest (s : State) :
    ∃ taken, s.reader = taken ++ s.decodeEnd.rest ∧ taken.length ≤ s.ctx.maxlen.toNat := by
  rcases s.decodeEnd_cases with
    ⟨_, bits, rest, hend, -, hlen, hreader⟩ | ⟨bits, rest, hend, hlen, hreader | ⟨hreader, rfl⟩⟩ |
    ⟨bits, rest, hend, hlen, hreader⟩ <;> rw [hend]
  · exact ⟨bitAnswers bits, hreader, by simpa using hlen⟩
  · exact ⟨bitAnswers bits ++ [.eos], by simpa [DecodeEnd.rest] using hreader, by simpa using hlen⟩
  · exact ⟨bitAnswers bits, by simpa [DecodeEnd.rest] using hreader, by simpa using hlen.le⟩
  · exact ⟨bitAnswers bits, hreader, by simpa using hlen.le⟩

section
variable {op : Op} {s u : State} {e : ErrCode} {r n : Nat} {p : PortUse}

/-- With a codebook every end of DECODE records the answers that its loop took. -/
theorem decodeRule_port_of_valid (hv : s.ctx.valid = true) (h : decodeRule s = .ended e r p u) :
    p = .read (takenFrom s.reader s.decodeEnd.rest) ∧ u.reader = s.decodeEnd.rest := by
  rw [decodeRule, if_pos hv] at h
  unfold State.decodeEnd
  split at h <;> rename_i hend <;> cases h <;> rw [hend] <;> exact ⟨rfl, rfl⟩

theorem decodeRule_portUsed (h : decodeRule s = .ended e r p u) : PortUsed .decode s u p := by
  have hwriter : u.writer = s.writer := (ruleOf_effect (op := .decode) h).writer (by decide)
  rcases hv : s.ctx.valid with _ | _
  · cases (ruleOf_of_no_codebook (op := .decode) (by decide) hv).symm.trans h
    exact ⟨rfl, rfl⟩
  · obtain ⟨taken, hreader, hlen⟩ := s.reader_eq_append_decodeEnd_rest
    obtain ⟨rfl, hrest⟩ := decodeRule_port_of_valid hv h
    have htaken : takenFrom s.reader s.decodeEnd.rest = taken := by
      conv_lhs => rw [hreader]
      exact takenFrom_append taken _
    rw [htaken]
    exact ⟨rfl, hwriter, hrest ▸ hreader, hlen⟩

theorem encodeRule_portUsed (h : encodeRule s = .ended e r p u) : PortUsed .encode s u p := by
  obtain ⟨-, -, -, rfl, rfl⟩ | ⟨-, -, -, -, rfl, rfl⟩ | ⟨-, -, -, rfl, -, rfl⟩ := encodeRule_cases h
  · exact ⟨rfl, rfl⟩
  · exact ⟨rfl, rfl⟩
  · exact ⟨rfl, ⟨_, rfl⟩, rfl⟩

/-- The commands without a stream port record none. -/
theorem ruleOf_port_eq_none (hencode : op ≠ .encode) (hdecode : op ≠ .decode) (h : ruleOf op s = .ended e r p u) :
    p = .none := by
  cases op with
  | encode => exact absurd rfl hencode
  | decode => exact absurd rfl hdecode
  | nop => cases h; rfl
  | clear => cases h; rfl
  | build => exact (buildRule_cases h).1
  | deserialize => exact (deserializeRule_cases h).1
  | symlen => exact (symlenRule_cases h).1
  | serialize => obtain ⟨-, -, -, hp, -⟩ | ⟨-, -, hp, -⟩ := serializeRule_cases h <;> exact hp

theorem ruleOf_portUsed (h : ruleOf op s = .ended e r p u) : PortUsed op s u p := by
  by_cases hencode : op = .encode
  · subst hencode
    exact encodeRule_portUsed h
  · by_cases hdecode : op = .decode
    · subst hdecode
      exact decodeRule_portUsed h
    · rw [ruleOf_port_eq_none hencode hdecode h]
      exact ⟨(ruleOf_effect h).writer hencode, (ruleOf_effect h).reader hdecode⟩

/-- A command whose window is open has its record in the phase. -/
theorem phase_and_portUsed_of_exec (hidle : s.phase = .idle) (hexec : exec op.instr s = .next u)
    (hbusy : u.phase.isBusy = true) : ∃ n p, u.phase = .busy op n p ∧ PortUsed op s u p := by
  rw [exec_instr_eq] at hexec
  rcases acceptCommand_cases hexec with ⟨o, n, p, hb, -⟩ | ⟨-, e, r, p, v, hrule, rfl⟩
  · cases hidle.symm.trans hb
  · have hport := ruleOf_portUsed hrule
    rw [State.endCommand_phase] at hbusy ⊢
    obtain ⟨n, hn⟩ := Nat.exists_eq_succ_of_ne_zero ((Phase.ofWindow_isBusy _ _ _).1 hbusy)
    exact ⟨n, p, by rw [hn]; rfl, hport⟩

/-! ## The streams after a reset in the window -/

/-- The writer has the whole transfer of an ENCODE or nothing of it. -/
theorem PortUsed.writerAfterReset (h : PortUsed op s u p) (hphase : u.phase = .busy op n p) :
    u.writerAfterReset = s.writer ∨ op = .encode ∧ u.writerAfterReset = u.writer := by
  cases p with
  | none =>
    obtain ⟨hwriter, -⟩ := h
    exact .inl (by simp only [State.writerAfterReset, hphase, hwriter])
  | read taken =>
    obtain ⟨-, hwriter, -⟩ := h
    exact .inl (by simp only [State.writerAfterReset, hphase, hwriter])
  | wrote =>
    obtain ⟨hop, ⟨x, hwriter⟩, -⟩ := h
    simp only [State.writerAfterReset, hphase]
    split
    · exact .inr ⟨hop, rfl⟩
    · exact .inl (by rw [hwriter, List.dropLast_concat])

/-- The reader has lost a first part of the answers that a DECODE took, and nothing to another command. -/
theorem PortUsed.readerAfterReset (h : PortUsed op s u p) (hphase : u.phase = .busy op n p) :
    ∃ k, u.readerAfterReset = s.reader.drop k ∧ k ≤ s.ctx.maxlen.toNat ∧ (op ≠ .decode → k = 0) := by
  cases p with
  | none =>
    obtain ⟨-, hreader⟩ := h
    exact ⟨0, by simp only [State.readerAfterReset, hphase, hreader, List.drop_zero], Nat.zero_le _, fun _ => rfl⟩
  | wrote =>
    obtain ⟨-, -, hreader⟩ := h
    exact ⟨0, by simp only [State.readerAfterReset, hphase, hreader, List.drop_zero], Nat.zero_le _, fun _ => rfl⟩
  | read taken =>
    obtain ⟨hop, -, hreader, hlen⟩ := h
    have hk : Config.bitsTaken u.free % (taken.length + 1) ≤ taken.length := Nat.le_of_lt_succ (Nat.mod_lt _ (by omega))
    refine ⟨_, ?_, hk.trans hlen, fun hne => absurd hop hne⟩
    rw [hreader, List.drop_append_of_le_length hk]
    simp only [State.readerAfterReset, hphase]

/-- A reset right after a command whose window is open: what it leaves of the streams (R181). -/
theorem step_reset_in_window {lost : Option TransactionWord} {rest : List HostEvent} (hidle : s.phase = .idle)
    (hp : u.pending = .reset lost :: rest) (hbusy : u.phase.isBusy = true) (hexec : exec op.instr s = .next u) :
    ∃ t k, step u = .next t ∧ (t.writer = s.writer ∨ op = .encode ∧ t.writer = u.writer) ∧
      t.reader = s.reader.drop k ∧ k ≤ s.ctx.maxlen.toNat ∧ (op ≠ .decode → k = 0) := by
  obtain ⟨n, p, hphase, hport⟩ := phase_and_portUsed_of_exec hidle hexec hbusy
  obtain ⟨k, hreader, hk⟩ := hport.readerAfterReset hphase
  exact ⟨_, k, step_reset hp, hport.writerAfterReset hphase, hreader, hk⟩

end

/-! ## The obligation -/

/-- Settles O11: ENCODE alone has a transfer to lose, and DECODE alone has answers to lose. -/
theorem resetDuringPortWait : Obligations.ResetDuringPortWait := by
  intro s u lost rest hidle hp hbusy
  refine ⟨fun hexec => ?_, fun hexec => ?_, fun i hi hexec => ?_⟩
  · obtain ⟨t, k, hstep, hwriter, hreader, -, hk⟩ := step_reset_in_window (op := .encode) hidle hp hbusy hexec
    obtain rfl : k = 0 := hk (by decide)
    exact ⟨t, hstep, hwriter.imp_right And.right, hreader⟩
  · obtain ⟨t, k, hstep, hwriter, hreader, hk, -⟩ := step_reset_in_window (op := .decode) hidle hp hbusy hexec
    exact ⟨t, k, hstep, hwriter.resolve_right nofun, hreader, hk⟩
  · obtain ⟨op, hop, rfl⟩ := List.mem_map.1
      (show i ∈ [Op.nop, .build, .serialize, .deserialize, .symlen, .clear].map Op.instr from hi)
    obtain ⟨t, k, hstep, hwriter, hreader, -, hk⟩ := step_reset_in_window hidle hp hbusy hexec
    obtain rfl : k = 0 := hk (by rintro rfl; exact absurd hop (by decide))
    exact ⟨t, hstep, hwriter.resolve_right fun h => absurd (h.1 ▸ hop) (by decide), hreader⟩

end Sys2Proof.Machine
end
